-- ==== Sys2Proof/Word.lean ====
section
/-! DEFINITION. The words of HUFFCORE: widths fixed by `00_scope.md` R6 and `10_state.md` section 5. -/

namespace Sys2Proof

/-- A literal byte, `BYTE_W` = 8 bits (R6). -/
abbrev Byte := BitVec 8

/-- A symbol field, `SYM_W` = 9 bits (R6): 0 to 255 literal bytes, 256 the pseudo-EOF, 257 to 511 reserved (R100). -/
abbrev Sym := BitVec 9

/-- A host register or a channel value, 32 bits (R40, R108). -/
abbrev Word := BitVec 32

/-- The bits of a code as a number, `MAX_CODE_LEN` = 256 bits (R33). -/
abbrev CodeVal := BitVec 256

/-- A channel request word (R108). -/
abbrev ChanReq := BitVec 41

/-- A channel response word (R108). -/
abbrev ChanResp := BitVec 33

/-- The pseudo-end-of-stream symbol `EOF_SYM` = 256 (R6). -/
abbrev eofSym : Sym := 256#9

end Sys2Proof
end

