-- ==== Sys2Proof/Config.lean ====
section
/-! DEFINITION. The parameters of an instance (`00_scope.md` R6, R7) and the free values (log 3, log 12). -/

namespace Sys2Proof

/-- The parameters the source leaves open (R7), as plain data. `State` carries one and no step changes it (log 1). -/
structure Config where
  /-- `MAGIC`: the format identifier written first and checked first. -/
  magic : Word
  /-- `CNT_W`: width of every counter, of every weight and of `NSYM`. -/
  cntW : Nat
  /-- `NODE_CAP`: number of entries of the node memory. -/
  nodeCap : Nat
  /-- `PAD_BIT`: value of each padding bit that `close()` appends. -/
  padBit : Bool
  /-- `TIE_ORDER`, by number: 0 is the default order of R131, ascending (weight, node index). Any other number names an
  order of which only what R131 says of every order is known: a total order on live nodes that refines ascending weight
  (`Machine.tieValue`, log 1). -/
  tieOrder : Nat
  deriving DecidableEq, Repr

namespace Config

/-- The defaults of R7. PRESUMED: the value of `MAGIC` (log 23). -/
def std : Config :=
  { magic := 0xFACE8201#32, cntW := 32, nodeCap := 513, padBit := false, tieOrder := 0 }

/-- The bounds R7 puts on the parameters. -/
def wf (c : Config) : Bool := decide (1 ≤ c.cntW) && decide (513 ≤ c.nodeCap)

/-- `MAX_INPUT` = 2^CNT_W - 2 (R7, R123). -/
def maxInput (c : Config) : Nat := 2 ^ c.cntW - 2

/-- `STACK_CAP` = NODE_CAP (R7). -/
def stackCap (c : Config) : Nat := c.nodeCap

/-- `IDX_W` = ceil(log2(NODE_CAP + 1)) (R7), the number of binary digits of `NODE_CAP`. -/
def idxW (c : Config) : Nat := Nat.log2 c.nodeCap + 1

/-- `NIL` = 2^IDX_W - 1 (R7): the index that names no node. -/
def nil (c : Config) : Nat := 2 ^ c.idxW - 1

/-- `NSYMS` = 257, the size of the alphabet and of `FREQ` and `CODE` (R6). -/
def nsyms : Nat := 257

/-- `MAX_CODE_LEN` = 256 (R8). -/
def maxCodeLen : Nat := 256

/-- `CHAN_MAX_N` = 32, the largest `n` of one transaction (R7, R62). -/
def chanMaxN : Nat := 32

/-- A FREE VALUE: number `n` of the run, item `tag`, entry `i`. It has no body: nothing can be proved of its value.
It stands for the memory contents after a reset event (log 3) and for `OUT` after a transaction that follows
`close()` (log 12). -/
opaque freeValue (n tag i : Nat) : Nat

end Config

end Sys2Proof
end

