-- ==== Sys2Proof/Syntax.lean ====
section
/-! DEFINITION. The instructions: one constructor per row of `spec/opcode_table.json` (`30_encoding.md` R111). -/

namespace Sys2Proof

/-- The 29 rows: 4 host commands, 5 stream tokens, 16 phases, 4 channel transactions. -/
inductive Instr where
  /-- Command `NOP`, `OP` = 0 (R220). -/
  | nop
  /-- Command `COMPRESS`, `OP` = 1 (R217). -/
  | compress
  /-- Command `DECOMPRESS`, `OP` = 2 (R218). -/
  | decompress
  /-- Command `CLEAR`, `OP` = 3 (R221). -/
  | clear
  /-- Token `MAGIC`: the 32 bits of the parameter `MAGIC` (R93). -/
  | tokMagic
  /-- Token `I`: an internal node of the tree field, the bit 0 (R94). -/
  | tokI
  /-- Token `L(s)`: a leaf of the tree field, the bit 1 and nine bits of `s` (R95). -/
  | tokL (s : Sym)
  /-- Token `C(s)`: the code of symbol `s` in the tree of the same stream (R96). -/
  | tokC (s : Sym)
  /-- Token `PAD(p)`: `p` padding bits (R98). -/
  | tokPad (p : BitVec 3)
  /-- Phase 0: no step (R225). -/
  | phaseIdle
  /-- Phase 1: count one input byte (R122). -/
  | phaseCount
  /-- Phase 2: examine one symbol, insert its leaf (R133). -/
  | phaseBuildInit
  /-- Phase 3: one merge, or finish the tree (R135). -/
  | phaseBuildMerge
  /-- Phase 4: visit one node, record or push (R148). -/
  | phaseDerive
  /-- Phase 5: write the magic (R177). -/
  | phaseWrMagic
  /-- Phase 6: write one tree token (R161). -/
  | phaseWrTree
  /-- Phase 7: rewind the input (R179). -/
  | phaseRewind
  /-- Phase 8: encode one input byte (R180). -/
  | phaseEncode
  /-- Phase 9: write the pseudo-EOF code (R182). -/
  | phaseWrEof
  /-- Phase 10: close the output (R183). -/
  | phaseClose
  /-- Phase 11: read and check the magic (R197). -/
  | phaseRdMagic
  /-- Phase 12: read one tree token (R166). -/
  | phaseRdTree
  /-- Phase 13: consume one payload bit (R201). -/
  | phaseDecode
  /-- Phase 14: the final state, no step (R225). -/
  | phaseDone
  /-- Phase 15: the fault state, no step (R225). -/
  | phaseFault
  /-- Transaction `IN.readBits(n)` (R62). -/
  | inRead (n : BitVec 6)
  /-- Transaction `IN.reset()` (R64). -/
  | inReset
  /-- Transaction `OUT.writeBits(n, v)` (R65). -/
  | outWrite (n : BitVec 6) (v : Word)
  /-- Transaction `OUT.close()` (R66). -/
  | outClose
  deriving DecidableEq, Repr

end Sys2Proof
end

