-- ==== Sys2Proof/WellFormed.lean ====
section
/-! DEFINITION. Which operands the encoding gives an instruction (`30_encoding.md` R92, R108). -/

namespace Sys2Proof

namespace Instr

/-- A transaction width the contract defines: 1 to `CHAN_MAX_N` (R62, R65, R108). -/
def widthOk (n : BitVec 6) : Bool := decide (1 ≤ n.toNat) && decide (n.toNat ≤ Config.chanMaxN)

/-- Well-formed: a codeword names a symbol 0 to 256 (R96), a read or a write moves 1 to 32 bits (R108). A leaf token
may carry any nine bits (R100), a padding token 0 to 7 bits (R98). -/
def wf : Instr → Bool
  | .tokC s => decide (s.toNat ≤ 256)
  | .inRead n => widthOk n
  | .outWrite n _ => widthOk n
  | .nop | .compress | .decompress | .clear => true
  | .tokMagic | .tokI | .tokL _ | .tokPad _ => true
  | .phaseIdle | .phaseCount | .phaseBuildInit | .phaseBuildMerge | .phaseDerive | .phaseWrMagic | .phaseWrTree
  | .phaseRewind | .phaseEncode | .phaseWrEof | .phaseClose | .phaseRdMagic | .phaseRdTree | .phaseDecode
  | .phaseDone | .phaseFault => true
  | .inReset | .outClose => true

end Instr

end Sys2Proof
end

