-- ==== Sys2Proof/Decode.lean ====
section
/-! DEFINITION. Bits and bytes (`20_memory.md` R68, R69), the decoder of the four code spaces of `30_encoding.md`, and
the encoder. -/

namespace Sys2Proof

/-! ### Bits of a value, bytes of a stream -/

/-- The `n` low bits of `v`, most significant first (R11, R65, R68). -/
def bitsMsb : Nat → Nat → List Bool
  | 0, _ => []
  | n + 1, v => v.testBit n :: bitsMsb n v

/-- The unsigned value of a bit sequence, first bit most significant (R62). -/
def valMsb (bits : List Bool) : Nat := bits.foldl (fun a b => 2 * a + b.toNat) 0

/-- The bit sequence of a byte stream: bit `8j + i` is bit `7 - i` of byte `j` (R69). -/
def bytesToBits : List Byte → List Bool
  | [] => []
  | b :: bs => bitsMsb 8 b.toNat ++ bytesToBits bs

/-- The bytes of a bit sequence whose length is a multiple of 8 (R69); a shorter last group is no byte. -/
def bitsToBytes : List Bool → List Byte
  | b7 :: b6 :: b5 :: b4 :: b3 :: b2 :: b1 :: b0 :: rest =>
    BitVec.ofNat 8 (valMsb [b7, b6, b5, b4, b3, b2, b1, b0]) :: bitsToBytes rest
  | _ => []

/-- The number of padding bits after `len` bits: `(8 - (len mod 8)) mod 8` (R66, R98). -/
def padLen (len : Nat) : Nat := (8 - len % 8) % 8

/-! ### Trees -/

/-- The abstract tree of `10_state.md` R34: what the tree field of a stream describes. -/
inductive Tree where
  /-- A leaf and its symbol field. -/
  | leaf (s : Sym)
  /-- An internal node with its left and right subtree. -/
  | node (l r : Tree)
  deriving DecidableEq, Repr

namespace Tree

/-- The path from the root to a leaf that holds `s`, 0 for left and 1 for right, root edge first (R96, R146);
the first such leaf in pre-order where a foreign tree has several (R102). -/
def path? (s : Sym) : Tree → Option (List Bool)
  | leaf s' => if s' = s then some [] else none
  | node l r =>
    match path? s l with
    | some p => some (false :: p)
    | none => (path? s r).map (true :: ·)

/-- The leaf a walk from the root reaches and the bits left over (R103); none when the bits end first. -/
def walk? : Tree → List Bool → Option (Sym × List Bool)
  | leaf s, bits => some (s, bits)
  | node _ _, [] => none
  | node l _, false :: bits => walk? l bits
  | node _ r, true :: bits => walk? r bits

/-- The leaves of a tree, left to right. -/
def leaves : Tree → List Sym
  | leaf s => [s]
  | node l r => leaves l ++ leaves r

/-- The number of nodes of a tree. -/
def nodes : Tree → Nat
  | leaf _ => 1
  | node l r => 1 + nodes l + nodes r

end Tree

/-! ### Places, and the reasons to reject -/

/-- Where the bits of an instruction are taken from. The four code spaces overlap as bit patterns; the place selects
the format (R92, R105, R106, R108). -/
inductive Place where
  /-- A word written to host register 0. -/
  | cmd
  /-- The register `PHASE`. -/
  | phase
  /-- A channel request word. -/
  | chan
  /-- The first 32 bits of a stream. -/
  | magic
  /-- The tree field of a stream. -/
  | tree
  /-- The payload of a stream whose tree field is `t`, at the start of a code. -/
  | payload (t : Tree)
  /-- The end of a stream of which `len` bits stand before the padding. -/
  | padding (len : Nat)
  deriving DecidableEq, Repr

/-- Why a bit sequence is no instruction at its place. -/
inductive DecodeError where
  /-- Fewer bits than a command, phase or channel word has. -/
  | shortWord
  /-- The first 32 bits are absent or are not `MAGIC` (R101, `E_FORMAT`). -/
  | badMagic
  /-- The stream ends inside the tree field (R101, `E_HEADER`). -/
  | treeEnds
  /-- The stream ends before the walk reaches a leaf (R101, `E_TRUNC`). -/
  | payloadEnds
  /-- The walk reaches a reserved symbol 257 to 511 (R101, `E_SYM_RANGE`). -/
  | reservedSymbol
  /-- Fewer padding bits than the byte boundary asks for. -/
  | paddingEnds
  /-- A channel and operation the core never issues (R67, R108). -/
  | noSuchTransaction
  /-- A width field that is not 0 in a reset or close (R108). -/
  | badWidth
  /-- A value field that is not 0 where R108 has 0. -/
  | strayValue
  deriving DecidableEq, Repr

/-! ### The decoder -/

/-- A command word: `OP` = bits [1:0], the rest ignored (R41, R105). All four codes are legal. -/
def decodeCmd (v : Word) : Instr :=
  if v.toNat % 4 = 0 then .nop
  else if v.toNat % 4 = 1 then .compress
  else if v.toNat % 4 = 2 then .decompress
  else .clear

/-- A phase code (R106). All sixteen are defined. -/
def decodePhase (p : BitVec 4) : Instr :=
  match p.toNat with
  | 0 => .phaseIdle
  | 1 => .phaseCount
  | 2 => .phaseBuildInit
  | 3 => .phaseBuildMerge
  | 4 => .phaseDerive
  | 5 => .phaseWrMagic
  | 6 => .phaseWrTree
  | 7 => .phaseRewind
  | 8 => .phaseEncode
  | 9 => .phaseWrEof
  | 10 => .phaseClose
  | 11 => .phaseRdMagic
  | 12 => .phaseRdTree
  | 13 => .phaseDecode
  | 14 => .phaseDone
  | _ => .phaseFault

/-- A channel request word: `chan` [40], `op` [39:38], `n` [37:32], `value` [31:0] (R108). A width is read as it stands
(R111: `chan` and `op` select the row); `Instr.wf` refuses one outside 1 to 32 (log 13). -/
def decodeChan (w : ChanReq) : Except DecodeError Instr :=
  let sel : BitVec 3 := w.extractLsb' 38 3
  let n : BitVec 6 := w.extractLsb' 32 6
  let v : Word := w.extractLsb' 0 32
  if sel = 0b000#3 then
    if v = 0 then .ok (.inRead n) else .error .strayValue
  else if sel = 0b010#3 then
    if n = 0 then (if v = 0 then .ok .inReset else .error .strayValue) else .error .badWidth
  else if sel = 0b101#3 then
    .ok (.outWrite n v)
  else if sel = 0b111#3 then
    if n = 0 then (if v = 0 then .ok .outClose else .error .strayValue) else .error .badWidth
  else .error .noSuchTransaction

/-- The first `n` bits and the rest, if there are that many. -/
def splitBits (n : Nat) (bits : List Bool) : Option (List Bool × List Bool) :=
  if n ≤ bits.length then some (bits.take n, bits.drop n) else none

/-- One token of the tree field (R94, R95, R103): the first bit decides, 0 means length 1, 1 means length 10. -/
def decodeTreeToken : List Bool → Except DecodeError (Instr × List Bool)
  | [] => .error .treeEnds
  | false :: rest => .ok (.tokI, rest)
  | true :: rest =>
    match splitBits 9 rest with
    | none => .error .treeEnds
    | some (f, rest') => .ok (.tokL (BitVec.ofNat 9 (valMsb f)), rest')

/-- The instruction that stands at a place of the machine or of a stream, and the bits after it. Total on any bits;
rejects by name (R101). -/
def decode (c : Config) : Place → List Bool → Except DecodeError (Instr × List Bool)
  | .cmd, bits =>
    match splitBits 32 bits with
    | none => .error .shortWord
    | some (f, rest) => .ok (decodeCmd (BitVec.ofNat 32 (valMsb f)), rest)
  | .phase, bits =>
    match splitBits 4 bits with
    | none => .error .shortWord
    | some (f, rest) => .ok (decodePhase (BitVec.ofNat 4 (valMsb f)), rest)
  | .chan, bits =>
    match splitBits 41 bits with
    | none => .error .shortWord
    | some (f, rest) =>
      match decodeChan (BitVec.ofNat 41 (valMsb f)) with
      | .ok i => .ok (i, rest)
      | .error e => .error e
  | .magic, bits =>
    match splitBits 32 bits with
    | none => .error .badMagic
    | some (f, rest) => if BitVec.ofNat 32 (valMsb f) = c.magic then .ok (.tokMagic, rest) else .error .badMagic
  | .tree, bits => decodeTreeToken bits
  | .payload t, bits =>
    match t.walk? bits with
    | none => .error .payloadEnds
    | some (s, rest) => if s.toNat ≤ 256 then .ok (.tokC s, rest) else .error .reservedSymbol
  | .padding len, bits =>
    match splitBits (padLen len) bits with
    | none => .error .paddingEnds
    | some (_, rest) => .ok (.tokPad (BitVec.ofNat 3 (padLen len)), rest)

/-! ### The encoder -/

/-- The numeric code of a command (R105); other instructions are no commands. -/
def cmdOp : Instr → Option Nat
  | .nop => some 0
  | .compress => some 1
  | .decompress => some 2
  | .clear => some 3
  | _ => none

/-- The numeric code of a phase (R106). -/
def phaseOp : Instr → Option Nat
  | .phaseIdle => some 0
  | .phaseCount => some 1
  | .phaseBuildInit => some 2
  | .phaseBuildMerge => some 3
  | .phaseDerive => some 4
  | .phaseWrMagic => some 5
  | .phaseWrTree => some 6
  | .phaseRewind => some 7
  | .phaseEncode => some 8
  | .phaseWrEof => some 9
  | .phaseClose => some 10
  | .phaseRdMagic => some 11
  | .phaseRdTree => some 12
  | .phaseDecode => some 13
  | .phaseDone => some 14
  | .phaseFault => some 15
  | _ => none

/-- A channel request word from its four fields (R108). -/
def chanWord (chan : BitVec 1) (op : BitVec 2) (n : BitVec 6) (v : Word) : ChanReq := chan ++ op ++ n ++ v

/-- The request word of a channel transaction (R108); other instructions have none. -/
def encodeChan : Instr → ChanReq
  | .inRead n => chanWord 0 0 n 0
  | .inReset => chanWord 0 2 0 0
  | .outWrite n v => chanWord 1 1 n v
  | .outClose => chanWord 1 3 0 0
  | .nop | .compress | .decompress | .clear | .tokMagic | .tokI | .tokL _ | .tokC _ | .tokPad _
  | .phaseIdle | .phaseCount | .phaseBuildInit | .phaseBuildMerge | .phaseDerive | .phaseWrMagic | .phaseWrTree
  | .phaseRewind | .phaseEncode | .phaseWrEof | .phaseClose | .phaseRdMagic | .phaseRdTree | .phaseDecode
  | .phaseDone | .phaseFault => 0

/-- A response word: `eod` in bit 32, the value below it (R108). -/
def chanResponse (eod : Bool) (v : Word) : ChanResp := BitVec.ofBool eod ++ v

/-- The bits of an instruction in transfer order, written from R92, R105, R106 and R108. A codeword is the path of its
symbol in the tree `t` of its stream. The ignored bits of a command are sent as 0 (log 24). -/
def encode (c : Config) (t : Tree) : Instr → List Bool
  | .nop => bitsMsb 32 0
  | .compress => bitsMsb 32 1
  | .decompress => bitsMsb 32 2
  | .clear => bitsMsb 32 3
  | .tokMagic => bitsMsb 32 c.magic.toNat
  | .tokI => [false]
  | .tokL s => true :: bitsMsb 9 s.toNat
  | .tokC s => (t.path? s).getD []
  | .tokPad p => List.replicate p.toNat c.padBit
  | .phaseIdle => bitsMsb 4 0
  | .phaseCount => bitsMsb 4 1
  | .phaseBuildInit => bitsMsb 4 2
  | .phaseBuildMerge => bitsMsb 4 3
  | .phaseDerive => bitsMsb 4 4
  | .phaseWrMagic => bitsMsb 4 5
  | .phaseWrTree => bitsMsb 4 6
  | .phaseRewind => bitsMsb 4 7
  | .phaseEncode => bitsMsb 4 8
  | .phaseWrEof => bitsMsb 4 9
  | .phaseClose => bitsMsb 4 10
  | .phaseRdMagic => bitsMsb 4 11
  | .phaseRdTree => bitsMsb 4 12
  | .phaseDecode => bitsMsb 4 13
  | .phaseDone => bitsMsb 4 14
  | .phaseFault => bitsMsb 4 15
  | .inRead n => bitsMsb 41 (encodeChan (.inRead n)).toNat
  | .inReset => bitsMsb 41 (encodeChan .inReset).toNat
  | .outWrite n v => bitsMsb 41 (encodeChan (.outWrite n v)).toNat
  | .outClose => bitsMsb 41 (encodeChan .outClose).toNat

/-- The place where an instruction stands: of its stream, `t` is the tree and `len` the number of bits before the
padding (R92). -/
def placeOf (t : Tree) (len : Nat) : Instr → Place
  | .nop | .compress | .decompress | .clear => .cmd
  | .tokMagic => .magic
  | .tokI | .tokL _ => .tree
  | .tokC _ => .payload t
  | .tokPad _ => .padding len
  | .phaseIdle | .phaseCount | .phaseBuildInit | .phaseBuildMerge | .phaseDerive | .phaseWrMagic | .phaseWrTree
  | .phaseRewind | .phaseEncode | .phaseWrEof | .phaseClose | .phaseRdMagic | .phaseRdTree | .phaseDecode
  | .phaseDone | .phaseFault => .phase
  | .inRead _ | .inReset | .outWrite _ _ | .outClose => .chan

/-- The instruction of an opcode-table word `w` of `nbits` bits (whole bytes, or the row's own width). The width selects
the code space; the code spaces overlap, and how this function tells them apart is log 11. -/
def decodeTableWord (nbits w : Nat) : Option Instr :=
  if nbits = 32 then
    if BitVec.ofNat 32 w = Config.std.magic then some .tokMagic else some (decodeCmd (BitVec.ofNat 32 w))
  else if nbits = 4 ∨ nbits = 8 then
    if w < 16 then some (decodePhase (BitVec.ofNat 4 w)) else none
  else if nbits = 1 then
    if w = 0 then some .tokI else none
  else if nbits = 10 ∨ nbits = 16 then
    match decode Config.std .tree (bitsMsb 10 w) with
    | .ok (.tokL s, _) => if w < 1024 then some (.tokL s) else none
    | _ => none
  else if nbits = 41 ∨ nbits = 48 then
    if w < 0x20000000000 then (decodeChan (BitVec.ofNat 41 w)).toOption else none
  else none

end Sys2Proof
end

