-- ==== Sys2Proof/Machine/State.lean ====
section
/-! DEFINITION. The state of one HUFFCORE instance with its two channels (`10_state.md`, `20_memory.md` R61), and its
value after reset (R50). -/

namespace Sys2Proof.Machine

/-- The values of `PHASE` (R23, R106). -/
inductive Phase where
  | idle | count | buildInit | buildMerge | derive | wrMagic | wrTree | rewind | encode | wrEof | close
  | rdMagic | rdTree | decode | done | fault
  deriving DecidableEq, Repr

/-- The values of `MODE` (R25): compress is 0, decompress is 1. -/
inductive Mode where
  | compress | decompress
  deriving DecidableEq, Repr

/-- The values of `ERRCODE` (R107). Codes 9 to 15 are reserved and never produced. -/
inductive ErrCode where
  | none | format | header | trunc | countOvf | noCode | treeOvf | leafRoot | symRange
  deriving DecidableEq, Repr

/-- One entry of the node memory `NODE` (R31). -/
structure NodeEntry where
  leaf : Bool
  sym : Sym
  weight : Nat
  left : Nat
  right : Nat
  deriving DecidableEq, Repr

/-- The place of a live node of index `i` in tie order number `order`, among the nodes of its weight. `content` is all the
node holds: its entry and the entries below it, a node before its left and its right subtree. It has no body: nothing can
be proved of its value, so what is proved holds for every tie order (R131, log 1). -/
opaque tieValue (order i : Nat) (content : List NodeEntry) : Nat

/-- The place of a live node among the nodes of its weight; at the default order the index alone decides. -/
def tieKey (c : Config) (i : Nat) (content : List NodeEntry) : Nat :=
  if c.tieOrder = 0 then 0 else tieValue c.tieOrder i content

/-- One entry of the code table `CODE` (R33). -/
structure CodeEntry where
  valid : Bool
  len : BitVec 9
  val : CodeVal
  deriving DecidableEq, Repr

/-- One entry of the traversal stack `STK` (R35). `side` is false while the left child is still to come. -/
structure StkEntry where
  node : Nat
  side : Bool
  len : BitVec 9
  val : CodeVal
  deriving DecidableEq, Repr

/-- What an unlisted entry of `NODE` reads as (log 2). -/
def NodeEntry.zero : NodeEntry := { leaf := false, sym := 0, weight := 0, left := 0, right := 0 }

/-- What an unlisted entry of `CODE` reads as (log 2). -/
def CodeEntry.zero : CodeEntry := { valid := false, len := 0, val := 0 }

/-- What an unlisted entry of `STK` reads as (log 2). -/
def StkEntry.zero : StkEntry := { node := 0, side := false, len := 0, val := 0 }

/-- The input channel `IN` = (`IN_BITS`, `IN_POS`, `IN_EOD`) (R61). -/
structure InChan where
  bits : List Bool
  pos : Nat
  eod : Bool
  deriving DecidableEq, Repr

/-- The output channel `OUT` = (`OUT_BITS`, `OUT_CLOSED`) (R61). -/
structure OutChan where
  bits : List Bool
  closed : Bool
  deriving DecidableEq, Repr

/-- What the host and the environment do between two steps, or the slot in which they do nothing (log 6). -/
inductive HostEvent where
  /-- No host access: the sequencer takes its step (R22). -/
  | seq
  /-- `RegWrite(k, v)` (R215). -/
  | regWrite (k : Nat) (v : Word)
  /-- `RegRead(k)` (R215). -/
  | regRead (k : Nat)
  /-- Reset between two steps (R260). -/
  | reset
  /-- Reset during the sequencer's step, after the first `k` transactions the step issues (R260, log 17). -/
  | resetDuring (k : Nat)
  /-- The host presents a fresh pair of channels: `IN` holds these bytes, at its start, `OUT` is empty and open (R265). -/
  | launch (bytes : List Byte)
  /-- The input collaborator now returns other bytes, which breaks R80 and R268 (log 18). -/
  | swapIn (bytes : List Byte)
  /-- Another agent issues a transaction word on the channels, which breaks R268 during an operation (log 19). -/
  | chan (w : ChanReq)
  deriving DecidableEq, Repr

/-- The state. `cfg` is the instance's configuration (R21, log 1); `chanLog`, `hostReads`, `pending` and `freeCtr` are
the model's own fields (log 4, log 6, log 7). An internal memory is a list of (index, entry) pairs in the form
`Memory.wf` (`Machine/Ops.lean`). -/
structure State where
  cfg : Config
  phase : Phase
  mode : Mode
  errcode : ErrCode
  nsym : Nat
  nnodes : Nat
  root : Nat
  cur : Nat
  sp : Nat
  scan : Sym
  freq : List (Nat × Nat)
  node : List (Nat × NodeEntry)
  live : List (Nat × Bool)
  code : List (Nat × CodeEntry)
  stk : List (Nat × StkEntry)
  inp : InChan
  out : OutChan
  chanLog : List (ChanReq × ChanResp)
  hostReads : List (Nat × Word)
  pending : List HostEvent
  freeCtr : Nat
  deriving DecidableEq, Repr

/-- Where the model stops. None of these is an error of the spec: those are next states (`fault(c)`, R240). Each is
raised only in a state no run reaches (R51), and each is safe: the hardware's behaviour there is described nowhere. -/
inductive Fault where
  /-- Raised by `BUILD_INIT`: `SCAN` above 256 names no entry of `FREQ` (R26, R30). Safe. -/
  | freqIndex (i : Nat)
  /-- Raised by a step that accesses `NODE` at an index of `NODE_CAP` or more, `NIL` among them (R31). Safe. -/
  | nodeIndex (i : Nat)
  /-- Raised by `DERIVE` or a codeword token: a symbol above 256 names no entry of `CODE` (R33). Safe. -/
  | codeIndex (i : Nat)
  /-- Raised by a step that accesses `STK` at an index of `STACK_CAP` or more (R35). Safe. -/
  | stackIndex (i : Nat)
  /-- Raised by `BUILD_MERGE`: `minlive()` with no live node (R134: "called only when at least one `LIVE` bit is 1").
  Safe. -/
  | minliveEmpty
  deriving DecidableEq, Repr

/-- Why the model refuses. -/
inductive Refusal where
  /-- Answered by an arm of `exec` whose instruction has no meaning yet. Safe. -/
  | notModelled (mnemonic : String)
  /-- Answered for a channel transaction the contract does not define: a width outside 1 to 32, `reset` on `OUT`,
  `writeBits` or `close` on `IN` (R67: "A model's channel may refuse every other transaction"). Safe. -/
  | undefinedTransaction
  deriving DecidableEq, Repr

/-- The outcome of an instruction. -/
abbrev Result := Host.Outcome State Fault Refusal

/-- The machine right after reset, at the default parameters: the registers as R50 states; the memories, which R50
leaves unspecified, with nothing listed (log 2); empty channels, `OUT` open (log 5); the model's own fields empty
(log 4, log 6, log 7). -/
def State.reset : State :=
  { cfg := Config.std
    phase := .idle
    mode := .compress
    errcode := .none
    nsym := 0
    nnodes := 0
    root := Config.std.nil
    cur := Config.std.nil
    sp := 0
    scan := 0
    freq := []
    node := []
    live := []
    code := []
    stk := []
    inp := { bits := [], pos := 0, eod := false }
    out := { bits := [], closed := false }
    chanLog := []
    hostReads := []
    pending := []
    freeCtr := 0 }

end Sys2Proof.Machine
end

