-- ==== Sys2Proof/Machine/Ops.lean ====
section
/-! DEFINITION. The named operations over the memories and registers: indexed memories, arithmetic of the register
widths, `minlive()`, `init()`, taking an error (`fault(c)`) and returning from it (`CLEAR`), reset. -/

namespace Sys2Proof.Machine

/-! ### Indexed memories -/

namespace Memory

/-- Entry `i`; an unlisted entry reads as `d`. -/
def read {α : Type} (d : α) : List (Nat × α) → Nat → α
  | [], _ => d
  | (j, u) :: m, i => if i = j then u else read d m i

/-- Write entry `i`, keeping the indices rising and no entry equal to `d` listed. -/
def write {α : Type} [DecidableEq α] (d : α) : List (Nat × α) → Nat → α → List (Nat × α)
  | [], i, v => if v = d then [] else [(i, v)]
  | (j, u) :: m, i, v =>
    if i < j then (if v = d then (j, u) :: m else (i, v) :: (j, u) :: m)
    else if i = j then (if v = d then m else (i, v) :: m)
    else (j, u) :: write d m i v

/-- The canonical form: indices strictly rising, no listed entry equal to `d`. -/
def wf {α : Type} [DecidableEq α] (d : α) : List (Nat × α) → Bool
  | [] => true
  | [(_, v)] => decide (v ≠ d)
  | (i, v) :: (j, u) :: m => decide (v ≠ d) && decide (i < j) && wf d ((j, u) :: m)

/-- Every listed index is below `n`. -/
def below {α : Type} (n : Nat) (m : List (Nat × α)) : Bool := m.all (fun e => decide (e.1 < n))

/-- The memory of `n` entries with entry `i` equal to `f i`. -/
def ofFn {α : Type} [DecidableEq α] (d : α) (n : Nat) (f : Nat → α) : List (Nat × α) :=
  ((List.range n).map (fun i => (i, f i))).filter (fun e => decide (e.2 ≠ d))

end Memory

namespace State

/-! ### Reading the memories -/

/-- `FREQ[i]` (R30). -/
def freqAt (s : State) (i : Nat) : Nat := Memory.read 0 s.freq i

/-- `NODE[i]` (R31). -/
def nodeAt (s : State) (i : Nat) : NodeEntry := Memory.read NodeEntry.zero s.node i

/-- `LIVE[i]` (R32). -/
def liveAt (s : State) (i : Nat) : Bool := Memory.read false s.live i

/-- `CODE[i]` (R33). -/
def codeAt (s : State) (i : Nat) : CodeEntry := Memory.read CodeEntry.zero s.code i

/-- `STK[i]` (R35). -/
def stkAt (s : State) (i : Nat) : StkEntry := Memory.read StkEntry.zero s.stk i

/-! ### Writing the memories -/

/-- `FREQ[i] <- v`. -/
def setFreq (i v : Nat) (s : State) : State := { s with freq := Memory.write 0 s.freq i v }

/-- `NODE[i] <- v`. -/
def setNode (i : Nat) (v : NodeEntry) (s : State) : State := { s with node := Memory.write NodeEntry.zero s.node i v }

/-- `LIVE[i] <- v`. -/
def setLive (i : Nat) (v : Bool) (s : State) : State := { s with live := Memory.write false s.live i v }

/-- `CODE[i] <- v`. -/
def setCode (i : Nat) (v : CodeEntry) (s : State) : State := { s with code := Memory.write CodeEntry.zero s.code i v }

/-- `STK[i] <- v`. -/
def setStk (i : Nat) (v : StkEntry) (s : State) : State := { s with stk := Memory.write StkEntry.zero s.stk i v }

/-! ### Arithmetic of the register widths -/

/-- A sum in a `CNT_W`-bit register. R123 and R138 show that it never wraps in a run (log 16). -/
def cntAdd (s : State) (a b : Nat) : Nat := (a + b) % 2 ^ s.cfg.cntW

/-- An increment of an `IDX_W`-bit register. R27 shows that it never wraps in a run (log 16). -/
def idxInc (s : State) (a : Nat) : Nat := (a + 1) % 2 ^ s.cfg.idxW

/-! ### The priority structure -/

/-- `popcount(LIVE)` (R12, R135). -/
def popcount (s : State) : Nat := (s.live.filter (·.2)).length

/-- What a node holds: its entry, and for an internal node the entries of its left and its right subtree. The builder's
children have smaller indices (R139), so a depth of `i + 1` is enough for node `i`. -/
def content (s : State) : Nat → Nat → List NodeEntry
  | 0, _ => []
  | depth + 1, i =>
    if (s.nodeAt i).leaf then [s.nodeAt i]
    else s.nodeAt i :: (s.content depth (s.nodeAt i).left ++ s.content depth (s.nodeAt i).right)

/-- The place of node `i` among the nodes of its weight. -/
def tieKeyAt (s : State) (i : Nat) : Nat := tieKey s.cfg i (s.content (i + 1) i)

/-- `TIE_ORDER` (R131): ascending weight, then the place among the nodes of that weight, then index; at the default every
place is 0. -/
def before (s : State) (a b : Nat) : Bool :=
  let wa := (s.nodeAt a).weight
  let wb := (s.nodeAt b).weight
  decide (wa < wb) ||
    (decide (wa = wb) && (decide (s.tieKeyAt a < s.tieKeyAt b) ||
      (decide (s.tieKeyAt a = s.tieKeyAt b) && decide (a < b))))

/-- The least live index in a list of entries of `LIVE`. -/
def leastLive (s : State) : List (Nat × Bool) → Option Nat
  | [] => none
  | (i, l) :: m =>
    match leastLive s m with
    | none => if l then some i else none
    | some j => if l && s.before i j then some i else some j

/-- `minlive()` (R134): the live node least in `TIE_ORDER`; none if no node is live. -/
def minlive (s : State) : Option Nat := s.leastLive s.live

/-! ### Errors -/

/-- `fault(c)`, taking an error (R240): the code is recorded, `PHASE` becomes `FAULT`, nothing else changes. The
meanings call it last, so that nothing after it is done and what was done before stands. -/
def raise (c : ErrCode) (s : State) : State := { s with errcode := c, phase := .fault }

/-- `CLEAR` where it is effective, the return from an error (R221, R244): `PHASE` becomes `IDLE` and the code 0. -/
def acknowledge (s : State) : State := { s with errcode := .none, phase := .idle }

/-! ### Start of an operation -/

/-- `CODE[s].valid <- 0` for every `s`; `len` and `val` stay (R219). -/
def invalidate : List (Nat × CodeEntry) → List (Nat × CodeEntry)
  | [] => []
  | (i, e) :: m =>
    let e' := { e with valid := false }
    if e' = CodeEntry.zero then invalidate m else (i, e') :: invalidate m

/-- `init()` (R219). `NODE`, `STK` and the channels are not touched. -/
def init (s : State) : State :=
  { s with
    freq := []
    live := []
    code := invalidate s.code
    nsym := 0
    nnodes := 0
    sp := 0
    scan := 0
    root := s.cfg.nil
    cur := s.cfg.nil
    errcode := .none }

/-! ### Reset -/

/-- The unspecified contents of `FREQ` after a reset event: free values (log 3). -/
def freeFreq (s : State) : List (Nat × Nat) :=
  Memory.ofFn 0 Config.nsyms (fun i => Config.freeValue s.freeCtr 0 i % 2 ^ s.cfg.cntW)

/-- The unspecified contents of `NODE` after a reset event: free values (log 3). -/
def freeNode (s : State) : List (Nat × NodeEntry) :=
  Memory.ofFn NodeEntry.zero s.cfg.nodeCap (fun i =>
    { leaf := decide (Config.freeValue s.freeCtr 1 i % 2 = 1)
      sym := BitVec.ofNat 9 (Config.freeValue s.freeCtr 2 i)
      weight := Config.freeValue s.freeCtr 3 i % 2 ^ s.cfg.cntW
      left := Config.freeValue s.freeCtr 4 i % 2 ^ s.cfg.idxW
      right := Config.freeValue s.freeCtr 5 i % 2 ^ s.cfg.idxW })

/-- The unspecified contents of `LIVE` after a reset event: free values (log 3). -/
def freeLive (s : State) : List (Nat × Bool) :=
  Memory.ofFn false s.cfg.nodeCap (fun i => decide (Config.freeValue s.freeCtr 6 i % 2 = 1))

/-- The unspecified contents of `CODE` after a reset event: free values (log 3). -/
def freeCode (s : State) : List (Nat × CodeEntry) :=
  Memory.ofFn CodeEntry.zero Config.nsyms (fun i =>
    { valid := decide (Config.freeValue s.freeCtr 7 i % 2 = 1)
      len := BitVec.ofNat 9 (Config.freeValue s.freeCtr 8 i)
      val := BitVec.ofNat 256 (Config.freeValue s.freeCtr 9 i) })

/-- The unspecified contents of `STK` after a reset event: free values (log 3). -/
def freeStk (s : State) : List (Nat × StkEntry) :=
  Memory.ofFn StkEntry.zero s.cfg.stackCap (fun i =>
    { node := Config.freeValue s.freeCtr 10 i % 2 ^ s.cfg.idxW
      side := decide (Config.freeValue s.freeCtr 11 i % 2 = 1)
      len := BitVec.ofNat 9 (Config.freeValue s.freeCtr 12 i)
      val := BitVec.ofNat 256 (Config.freeValue s.freeCtr 13 i) })

/-- A reset event in any phase (R260, R50): the registers take their reset values, the contents of the memories are
unspecified, the channels are not touched. -/
def resetEvent (s : State) : State :=
  { s with
    phase := .idle
    mode := .compress
    errcode := .none
    nsym := 0
    nnodes := 0
    root := s.cfg.nil
    cur := s.cfg.nil
    sp := 0
    scan := 0
    freq := s.freeFreq
    node := s.freeNode
    live := s.freeLive
    code := s.freeCode
    stk := s.freeStk
    freeCtr := s.freeCtr + 1 }

/-! ### Accesses that may leave a memory -/

/-- Continue with `NODE[i]`; an index of `NODE_CAP` or more names no entry (log 14). -/
def withNode (s : State) (i : Nat) (k : NodeEntry → Result) : Result :=
  if i < s.cfg.nodeCap then k (s.nodeAt i) else .fault (.nodeIndex i)

/-- Continue after `NODE[i] <- v`. -/
def putNode (s : State) (i : Nat) (v : NodeEntry) (k : State → Result) : Result :=
  if i < s.cfg.nodeCap then k (s.setNode i v) else .fault (.nodeIndex i)

/-- Continue with `STK[i]`; an index of `STACK_CAP` or more names no entry (log 14). -/
def withStk (s : State) (i : Nat) (k : StkEntry → Result) : Result :=
  if i < s.cfg.stackCap then k (s.stkAt i) else .fault (.stackIndex i)

/-- Continue after `STK[i] <- v`. -/
def putStk (s : State) (i : Nat) (v : StkEntry) (k : State → Result) : Result :=
  if i < s.cfg.stackCap then k (s.setStk i v) else .fault (.stackIndex i)

end State

end Sys2Proof.Machine
end

