-- ==== Sys2Proof/Machine/Operands.lean ====
section
/-! DEFINITION. The operands that reach the machine through the two channels (`20_memory.md` R62 to R70), and
`emit(c)` (`44_compressor.md` R181). -/

namespace Sys2Proof.Machine

namespace State

/-! ### IN -/

/-- Whether `IN.readBits(n)` finds `n` bits: no end-of-data pending and `IN_POS + n <= IN_LEN` (R62). -/
def canRead (s : State) (n : Nat) : Bool := !s.inp.eod && decide (s.inp.pos + n ≤ s.inp.bits.length)

/-- The `n` bits at the cursor of `IN`. -/
def inBits (s : State) (n : Nat) : List Bool := (s.inp.bits.drop s.inp.pos).take n

/-- The result of `IN.readBits(n)`: the value, or none for `EndOfData` (R62). Never a partial value. -/
def peek (s : State) (n : Nat) : Option Word :=
  if s.canRead n then some (BitVec.ofNat 32 (valMsb (s.inBits n))) else none

/-- The channel `IN` after `readBits(n)`: the cursor moves past the bits, or to the end with the mark set (R62, R63). -/
def inAfter (s : State) (n : Nat) : InChan :=
  if s.canRead n then { s.inp with pos := s.inp.pos + n }
  else { s.inp with pos := s.inp.bits.length, eod := true }

/-- The response word of `IN.readBits(n)` (R108). -/
def readResponse (s : State) (n : Nat) : ChanResp :=
  match s.peek n with
  | none => chanResponse true 0
  | some v => chanResponse false v

/-- The state after `IN.readBits(n)`; its result is `peek n` of the state before. -/
def afterRead (s : State) (n : Nat) : State :=
  { s with
    inp := s.inAfter n
    chanLog := (encodeChan (.inRead (BitVec.ofNat 6 n)), s.readResponse n) :: s.chanLog }

/-- `IN.reset()` (R64). -/
def resetIn (s : State) : State :=
  { s with
    inp := { s.inp with pos := 0, eod := false }
    chanLog := (encodeChan .inReset, chanResponse false 0) :: s.chanLog }

/-! ### OUT -/

/-- The bits of `OUT` after a transaction that follows `close()`, which R67 leaves undefined: a free value (log 12). -/
def freeOut (s : State) : List Bool :=
  (List.range (Config.freeValue s.freeCtr 14 0)).map (fun i => decide (Config.freeValue s.freeCtr 15 i % 2 = 1))

/-- `OUT_BITS` after `bits` are appended to an open `OUT`. -/
def outAppend (s : State) (bits : List Bool) : List Bool :=
  if s.out.closed then s.freeOut else s.out.bits ++ bits

/-- The counter of free values after a transaction on `OUT`. -/
def outCtr (s : State) : Nat := if s.out.closed then s.freeCtr + 1 else s.freeCtr

/-- `OUT.writeBits(n, v)` (R65): the `n` low bits of `v`, most significant first. -/
def writeBits (s : State) (n : Nat) (v : Word) : State :=
  { s with
    out := { s.out with bits := s.outAppend (bitsMsb n v.toNat) }
    chanLog := (encodeChan (.outWrite (BitVec.ofNat 6 n) v), chanResponse false 0) :: s.chanLog
    freeCtr := s.outCtr }

/-- The padding bits that `OUT.close()` appends (R66). -/
def padBits (s : State) : List Bool := List.replicate (padLen s.out.bits.length) s.cfg.padBit

/-- `OUT.close()` (R66). -/
def closeOut (s : State) : State :=
  { s with
    out := { bits := s.outAppend s.padBits, closed := true }
    chanLog := (encodeChan .outClose, chanResponse false 0) :: s.chanLog
    freeCtr := s.outCtr }

/-- The output bytes (R69): they are final and observable after `close()` only (R49, log 20). -/
def outBytes? (s : State) : Option (List Byte) := if s.out.closed then some (bitsToBytes s.out.bits) else none

/-! ### Codes -/

/-- `OUT.writeBits(1, b)`. -/
def writeBit (s : State) (b : Bool) : State := s.writeBits 1 (if b then 1 else 0)

/-- The bits `val[k-1], ..., val[0]`, one transaction each. -/
def emitBits (val : CodeVal) : Nat → State → State
  | 0, s => s
  | k + 1, s => emitBits val k (s.writeBit (val.getLsbD k))

/-- `emit(c)` (R181): the `len` bits of the code, root edge first, one bit per transaction; no transaction for an empty
code. -/
def emit (s : State) (c : CodeEntry) : State := emitBits c.val c.len.toNat s

end State

end Sys2Proof.Machine
end

