-- ==== Sys2Proof/Machine/Channel.lean ====
section
/-! DEFINITION. The channel transactions as instructions (`20_memory.md` R62 to R67). -/

namespace Sys2Proof.Machine

/-- `IN.READ` (R62). The value or `EndOfData` is the response recorded in `chanLog`. A width outside 1 to 32 is no
transaction of the contract (R67). -/
def execInRead (n : BitVec 6) (s : State) : Result :=
  if Instr.widthOk n then .next (s.afterRead n.toNat) else .refused .undefinedTransaction

/-- `IN.RESET` (R64). -/
def execInReset (s : State) : Result := .next s.resetIn

/-- `OUT.WRITE` (R65). A width outside 1 to 32 is no transaction of the contract (R67). -/
def execOutWrite (n : BitVec 6) (v : Word) (s : State) : Result :=
  if Instr.widthOk n then .next (s.writeBits n.toNat v) else .refused .undefinedTransaction

/-- `OUT.CLOSE` (R66). -/
def execOutClose (s : State) : Result := .next s.closeOut

end Sys2Proof.Machine
end

