-- ==== Sys2Proof/Machine/CodeGen.lean ====
section
/-! DEFINITION. The code generator (`42_code_generator.md`). -/

namespace Sys2Proof.Machine

/-- The entry for the right child, one edge 1 further from the root (R99, R148). -/
def StkEntry.right (e : StkEntry) (i : Nat) : StkEntry :=
  { node := i, side := false, len := e.len + 1, val := 2 * e.val + 1 }

/-- The entry for the left child, one edge 0 further from the root (R99, R148). -/
def StkEntry.left (e : StkEntry) (i : Nat) : StkEntry := { node := i, side := false, len := e.len + 1, val := 2 * e.val }

/-- `CODE[sym]` of a leaf reached by the path of stack entry `e` (R148); a symbol above 256 names no entry (log 14). -/
def State.recordCode (sym : Sym) (e : StkEntry) (s : State) : Result :=
  if sym.toNat ≤ 256 then .next (s.setCode sym.toNat { valid := true, len := e.len, val := e.val })
  else .fault (.codeIndex sym.toNat)

/-- Phase `DERIVE` (R148): visit the node on top of the stack; left child on top, visited next. -/
def execPhaseDerive (s : State) : Result :=
  match s.sp with
  | 0 => .next { s with phase := .wrMagic }
  | k + 1 =>
    s.withStk k (fun e =>
      s.withNode e.node (fun n =>
        if n.leaf then { s with sp := k }.recordCode n.sym e
        else
          s.putStk k (e.right n.right) (fun t =>
            t.putStk (k + 1) (e.left n.left) (fun u => .next { u with sp := s.idxInc (k + 1) }))))

end Sys2Proof.Machine
end

