-- ==== Sys2Proof/Machine/Flags.lean ====
section
/-! DEFINITION. The flags, the outputs and the host registers as functions of the state (`10_state.md` R28, R29, R40 to
R47). -/

namespace Sys2Proof.Machine

/-- The numeric code of a phase (R106). -/
def Phase.toCode : Phase → Nat
  | .idle => 0
  | .count => 1
  | .buildInit => 2
  | .buildMerge => 3
  | .derive => 4
  | .wrMagic => 5
  | .wrTree => 6
  | .rewind => 7
  | .encode => 8
  | .wrEof => 9
  | .close => 10
  | .rdMagic => 11
  | .rdTree => 12
  | .decode => 13
  | .done => 14
  | .fault => 15

/-- The numeric code of an error (R107). -/
def ErrCode.toCode : ErrCode → Nat
  | .none => 0
  | .format => 1
  | .header => 2
  | .trunc => 3
  | .countOvf => 4
  | .noCode => 5
  | .treeOvf => 6
  | .leafRoot => 7
  | .symRange => 8

/-- The bit `MODE` (R25). -/
def Mode.toBit : Mode → Nat
  | .compress => 0
  | .decompress => 1

/-- A busy phase: codes 1 to 13 (R22, R106). -/
def Phase.busy (p : Phase) : Bool := decide (1 ≤ p.toCode) && decide (p.toCode ≤ 13)

/-- The phases of a compress (R106). -/
def Phase.ofCompress (p : Phase) : Bool := decide (1 ≤ p.toCode) && decide (p.toCode ≤ 10)

/-- The phases of a decompress (R106). -/
def Phase.ofDecompress (p : Phase) : Bool := decide (11 ≤ p.toCode) && decide (p.toCode ≤ 13)

/-- The phases in which `COMPRESS` and `DECOMPRESS` are accepted: `IDLE` and `DONE` (R216). -/
def Phase.accepts : Phase → Bool
  | .idle | .done => true
  | .count | .buildInit | .buildMerge | .derive | .wrMagic | .wrTree | .rewind | .encode | .wrEof | .close
  | .rdMagic | .rdTree | .decode | .fault => false

/-- The phases in which `CLEAR` is effective: `DONE` and `FAULT` (R216, R221). -/
def Phase.clears : Phase → Bool
  | .done | .fault => true
  | .idle | .count | .buildInit | .buildMerge | .derive | .wrMagic | .wrTree | .rewind | .encode | .wrEof | .close
  | .rdMagic | .rdTree | .decode => false

namespace State

/-- The flag `BUSY` and the output `busy` (R28, R29). -/
def busy (s : State) : Bool := s.phase.busy

/-- The flag `DONE` and the output `done` (R28, R29). -/
def done (s : State) : Bool := decide (s.phase = .done)

/-- The flag `ERROR` and the output `error` (R28, R29). -/
def error (s : State) : Bool := decide (s.phase = .fault)

/-- The value of `STATUS` (R42). -/
def statusWord (s : State) : Word :=
  BitVec.ofNat 32 (s.busy.toNat + 2 * s.done.toNat + 4 * s.error.toNat + 8 * s.mode.toBit + 16 * s.phase.toCode)

/-- The value of `ERR` (R43). -/
def errWord (s : State) : Word := BitVec.ofNat 32 s.errcode.toCode

/-- `RegRead(k)` (R40 to R47, R223): the value, computed from the state at the moment of the read. The low 32 bits of
`NSYM` and `NNODES` (R45, R46); 0 for `CMD` (R41) and for a number that names no register (R47). -/
def regValue (s : State) (k : Nat) : Word :=
  match k with
  | 1 => s.statusWord
  | 2 => s.errWord
  | 3 => s.cfg.magic
  | 4 => BitVec.ofNat 32 s.nsym
  | 5 => BitVec.ofNat 32 s.nnodes
  | _ => 0

/-- A `RegRead` access: no side effect on the machine (R223); the value returned is recorded (log 7). -/
def hostRead (s : State) (k : Nat) : State := { s with hostReads := (k, s.regValue k) :: s.hostReads }

end State

end Sys2Proof.Machine
end

