-- ==== Sys2Proof/Machine/Commands.lean ====
section
/-! DEFINITION. The host commands (`46_host_interface.md` R216 to R222). -/

namespace Sys2Proof.Machine

/-- Acceptance of an operation: `init()`, then the mode and the first phase (R217, R218). -/
def State.accept (m : Mode) (p : Phase) (s : State) : State := { s.init with mode := m, phase := p }

/-- `NOP` (R220): no effect in any phase. -/
def execNop (s : State) : Result := .next s

/-- `COMPRESS` (R217): accepted in `IDLE` and `DONE`, ignored in `FAULT` and in every busy phase (R216). -/
def execCompress (s : State) : Result := .next (if s.phase.accepts then s.accept .compress .count else s)

/-- `DECOMPRESS` (R218): accepted in `IDLE` and `DONE`, ignored in `FAULT` and in every busy phase (R216). -/
def execDecompress (s : State) : Result := .next (if s.phase.accepts then s.accept .decompress .rdMagic else s)

/-- `CLEAR` (R221): effective in `DONE` and `FAULT`, nothing in `IDLE`, ignored in every busy phase (R216). -/
def execClear (s : State) : Result := .next (if s.phase.clears then s.acknowledge else s)

end Sys2Proof.Machine
end

