-- ==== Sys2Proof/Machine/TreeBuilder.lean ====
section
/-! DEFINITION. The tree builder (`41_tree_builder.md`). -/

namespace Sys2Proof.Machine

/-- The leaf `BUILD_INIT` makes for symbol `SCAN` (R132, R133). -/
def State.builtLeaf (s : State) : NodeEntry :=
  { leaf := true, sym := s.scan, weight := s.freqAt s.scan.toNat, left := s.cfg.nil, right := s.cfg.nil }

/-- `LIVE[NNODES] <- 1; NNODES <- NNODES + 1`: the node just written joins the priority structure (R133, R135). -/
def State.insertNode (s : State) : State := { s.setLive s.nnodes true with nnodes := s.idxInc s.nnodes }

/-- The end of a `BUILD_INIT` step: the next symbol, or the next phase after symbol 256 (R133). -/
def State.nextSymbol (s : State) : State :=
  if s.scan = eofSym then { s with phase := .buildMerge } else { s with scan := s.scan + 1 }

/-- Phase `BUILD_INIT` (R133): examine symbol `SCAN`. -/
def execPhaseBuildInit (s : State) : Result :=
  if 256 < s.scan.toNat then .fault (.freqIndex s.scan.toNat)
  else if s.freqAt s.scan.toNat = 0 then .next s.nextSymbol
  else s.putNode s.nnodes s.builtLeaf (fun t => .next t.insertNode.nextSymbol)

/-- The internal node of a merge: first removed left, second removed right, weight their sum (R135, R136). -/
def State.mergedNode (s : State) (a b : Nat) : NodeEntry :=
  { leaf := false, sym := 0, weight := s.cntAdd (s.nodeAt a).weight (s.nodeAt b).weight, left := a, right := b }

/-- The stack entry that starts a traversal at node `i` (R135, R177). -/
def StkEntry.start (i : Nat) : StkEntry := { node := i, side := false, len := 0, val := 0 }

/-- The finishing step of `BUILD_MERGE`: `r` is the one live node (R135). -/
def State.finishTree (r : Nat) (s : State) : Result :=
  { s.setLive r false with root := r }.putStk 0 (StkEntry.start r) (fun t => .next { t with sp := 1, phase := .derive })

/-- One merge of `BUILD_MERGE`: `a`, then the minimum of what is left, become the children of a new node (R135). -/
def State.merge (a : Nat) (s : State) : Result :=
  match (s.setLive a false).minlive with
  | none => .fault .minliveEmpty
  | some b => ((s.setLive a false).setLive b false).putNode s.nnodes (s.mergedNode a b) (fun t => .next t.insertNode)

/-- Phase `BUILD_MERGE` (R135): one merge, or the end of the tree. With no live node, which R135 rules out,
`minlive()` has no result (log 15). -/
def execPhaseBuildMerge (s : State) : Result :=
  match s.minlive with
  | none => .fault .minliveEmpty
  | some a => if s.popcount = 1 then s.finishTree a else s.merge a

end Sys2Proof.Machine
end

