-- ==== Sys2Proof/Machine/Compressor.lean ====
section
/-! DEFINITION. The compressor's own phases (`44_compressor.md`). -/

namespace Sys2Proof.Machine

/-- The transaction that writes the magic token (R93, R177). -/
def State.writeMagic (s : State) : State := s.writeBits 32 s.cfg.magic

/-- Phase `WR_MAGIC` (R177): write the magic and start the traversal at the root. -/
def execPhaseWrMagic (s : State) : Result :=
  s.writeMagic.putStk 0 (StkEntry.start s.root) (fun t => .next { t with sp := 1, phase := .wrTree })

/-- Phase `REWIND` (R179). -/
def execPhaseRewind (s : State) : Result := .next { s.resetIn with phase := .encode }

/-- Phase `ENCODE` (R180): encode one input byte, or detect the end of the input. -/
def execPhaseEncode (s : State) : Result :=
  match s.peek 8 with
  | none => .next { s.afterRead 8 with phase := .wrEof }
  | some r =>
    if (s.codeAt r.toNat).valid then .next ((s.afterRead 8).emit (s.codeAt r.toNat))
    else .next ((s.afterRead 8).raise .noCode)

/-- Phase `WR_EOF` (R182): write the code of the pseudo-EOF symbol. -/
def execPhaseWrEof (s : State) : Result := .next { s.emit (s.codeAt 256) with phase := .close }

/-- Phase `CLOSE` (R183). -/
def execPhaseClose (s : State) : Result := .next { s.closeOut with phase := .done }

end Sys2Proof.Machine
end

