-- ==== Sys2Proof/Machine/Decompressor.lean ====
section
/-! DEFINITION. The decompressor's own phases (`45_decompressor.md`). -/

namespace Sys2Proof.Machine

/-- Phase `RD_MAGIC` (R197): an absent or different magic is `E_FORMAT`. -/
def execPhaseRdMagic (s : State) : Result :=
  if s.peek 32 = some s.cfg.magic then .next { s.afterRead 32 with sp := 0, phase := .rdTree }
  else .next ((s.afterRead 32).raise .format)

/-- The successful end of a decompress (R199, R203). -/
def State.finishDecode (s : State) : State := { s.closeOut with phase := .done }

/-- `leaf_action(s)` for the symbol of the leaf just reached (R203). -/
def State.leafAction (v : Sym) (s : State) : State :=
  if v = eofSym then s.finishDecode
  else if 256 < v.toNat then s.raise .symRange
  else { s.writeBits 8 (v.setWidth 32) with cur := s.root }

/-- `DECODE` on a leaf root, which consumes no bit (R199, R201). -/
def State.leafRoot (v : Sym) (s : State) : State := if v = eofSym then s.finishDecode else s.raise .leafRoot

/-- `DECODE` after the walk has moved to node `c` (R201). -/
def State.arrive (c : Nat) (s : State) : Result :=
  s.withNode c (fun m => .next (if m.leaf then { s with cur := c }.leafAction m.sym else { s with cur := c }))

/-- Phase `DECODE` (R201): one payload bit, one edge down the tree, 0 left and 1 right (R202). -/
def execPhaseDecode (s : State) : Result :=
  s.withNode s.cur (fun n =>
    if n.leaf then .next (s.leafRoot n.sym)
    else
      match s.peek 1 with
      | none => .next ((s.afterRead 1).raise .trunc)
      | some b => (s.afterRead 1).arrive (if b = 0 then n.left else n.right))

end Sys2Proof.Machine
end

