-- ==== Sys2Proof/Machine/FreqCounter.lean ====
section
/-! DEFINITION. The frequency counter (`40_frequency_counter.md`). -/

namespace Sys2Proof.Machine

/-- `COUNT` after its read found the end of the input (R122). -/
def State.countEnd (s : State) : State := { s.setFreq 256 1 with scan := 0, phase := .buildInit }

/-- `COUNT` after it read the byte `r` and the input is not too long (R122). -/
def State.countByte (r : Nat) (s : State) : State :=
  { s.setFreq r (s.cntAdd (s.freqAt r) 1) with nsym := s.cntAdd s.nsym 1 }

/-- Phase `COUNT` (R122): one input byte, or the end of the input. -/
def execPhaseCount (s : State) : Result :=
  match s.peek 8 with
  | none => .next (s.afterRead 8).countEnd
  | some r =>
    if s.nsym = s.cfg.maxInput then .next ((s.afterRead 8).raise .countOvf)
    else .next ((s.afterRead 8).countByte r.toNat)

end Sys2Proof.Machine
end

