-- ==== Sys2Proof/Machine/Resting.lean ====
section
/-! DEFINITION. The phases without a step (`46_host_interface.md` R225): the sequencer waits, nothing changes
(log 9). -/

namespace Sys2Proof.Machine

/-- Phase `IDLE` (R225): no step, no transaction. -/
def execPhaseIdle (s : State) : Result := .next s

/-- Phase `DONE` (R225): final, no step, no transaction. -/
def execPhaseDone (s : State) : Result := .next s

/-- Phase `FAULT` (R225, R240): never left by a step. -/
def execPhaseFault (s : State) : Result := .next s

end Sys2Proof.Machine
end

