-- ==== Sys2Proof/Machine/TreeCodec.lean ====
section
/-! DEFINITION. The tree serializer and deserializer (`43_tree_codec.md`). -/

namespace Sys2Proof.Machine

/-! ### WR_TREE -/

/-- The transactions that write a leaf token `L(v)`: the flag 1, then the nine bits (R95, R161). -/
def State.writeLeafToken (v : Sym) (s : State) : State := (s.writeBits 1 1).writeBits 9 (v.setWidth 32)

/-- The transaction that writes an internal-node token `I`: the flag 0 (R94, R161). -/
def State.writeInnerToken (s : State) : State := s.writeBits 1 0

/-- `STK[i].node <- v`: the other fields of the entry stay (R161). -/
def State.putStkNode (s : State) (i v : Nat) (k : State → Result) : Result :=
  s.putStk i { s.stkAt i with node := v } k

/-- Phase `WR_TREE` (R161): write the token of the node on top of the stack; left child on top, written next. -/
def execPhaseWrTree (s : State) : Result :=
  match s.sp with
  | 0 => .next { s with phase := .rewind }
  | k + 1 =>
    s.withStk k (fun e =>
      s.withNode e.node (fun n =>
        if n.leaf then .next { s.writeLeafToken n.sym with sp := k }
        else
          s.writeInnerToken.putStkNode k n.right (fun t =>
            t.putStkNode (k + 1) n.left (fun u => .next { u with sp := s.idxInc (k + 1) }))))

/-! ### RD_TREE -/

/-- The node the deserializer makes for a token `I` (R166): children not yet known. -/
def State.readInner (s : State) : NodeEntry :=
  { leaf := false, sym := 0, weight := 0, left := s.cfg.nil, right := s.cfg.nil }

/-- The node the deserializer makes for a token `L(v)` (R166). -/
def State.readLeaf (s : State) (v : Sym) : NodeEntry :=
  { leaf := true, sym := v, weight := 0, left := s.cfg.nil, right := s.cfg.nil }

/-- `tree_done(d)` (R167): hand over to the decoding walk; checks nothing. -/
def State.treeDone (d : Nat) (s : State) : State := { s with root := d, cur := d, phase := .decode }

/-- The link-upward loop of R166 with `SP` = its first argument and `d` a node whose subtree is complete. -/
def State.linkUp : Nat → Nat → State → Result
  | 0, d, s => .next ({ s with sp := 0 }.treeDone d)
  | k + 1, d, s =>
    s.withStk k (fun t =>
      s.withNode t.node (fun n =>
        if t.side then
          State.linkUp k t.node { s.setNode t.node { n with right := d } with sp := k }
        else
          .next ({ s with sp := k + 1 }.setNode t.node { n with left := d } |>.setStk k { t with side := true })))

/-- `RD_TREE` after it read a token `I`: the node waits on the stack for its left child (R166). -/
def State.takeInner (s : State) : Result :=
  s.putNode s.nnodes s.readInner (fun t =>
    t.putStk s.sp { node := s.nnodes, side := false, len := 0, val := 0 } (fun u =>
      .next { u with sp := s.idxInc s.sp, nnodes := s.idxInc s.nnodes }))

/-- `RD_TREE` after it read a token `L(v)`: the leaf is complete and is linked upwards (R166). -/
def State.takeLeaf (v : Sym) (s : State) : Result :=
  s.putNode s.nnodes (s.readLeaf v) (fun t => State.linkUp s.sp s.nnodes { t with nnodes := s.idxInc s.nnodes })

/-- Phase `RD_TREE` (R166): read one tree token and link the node it makes. The capacity is tested before anything is
read (R168). -/
def execPhaseRdTree (s : State) : Result :=
  if s.nnodes = s.cfg.nodeCap then .next (s.raise .treeOvf)
  else
    match s.peek 1 with
    | none => .next ((s.afterRead 1).raise .header)
    | some f =>
      if f = 0 then (s.afterRead 1).takeInner
      else
        match (s.afterRead 1).peek 9 with
        | none => .next (((s.afterRead 1).afterRead 9).raise .header)
        | some v => ((s.afterRead 1).afterRead 9).takeLeaf (v.setWidth 9)

end Sys2Proof.Machine
end

