-- ==== Sys2Proof/Machine/Tokens.lean ====
section
/-! DEFINITION. The stream tokens as instructions (`30_encoding.md` R92 to R98).

A token is written by one phase of a compress and read by one phase of a decompress (`20_memory.md` R73: "No other
transaction is ever issued"). Its meaning is what the machine does with it there: in its writing phase its bits go to
`OUT`; in its reading phase, where it stands at the cursor of `IN`, it is taken and has the effect of that phase's step.
A token away from its place moves nothing (log 10). -/

namespace Sys2Proof.Machine

/-- The bits of `IN` that have not been read. -/
def State.unread (s : State) : List Bool := if s.inp.eod then [] else s.inp.bits.drop s.inp.pos

/-- Whether these bits stand at the cursor of `IN`. -/
def State.atCursor (s : State) (bits : List Bool) : Bool := bits.isPrefixOf s.unread

/-- The token `MAGIC` (R93): "Written first by the compressor, read first by the decompressor". -/
def execTokMagic (s : State) : Result :=
  match s.phase with
  | .wrMagic => .next s.writeMagic
  | .rdMagic => if s.atCursor (bitsMsb 32 s.cfg.magic.toNat) then execPhaseRdMagic s else .next s
  | _ => .next s

/-- The token `I` (R94). DESIGN CHOICE (log 27): R161 writes it only for an internal node that it pops; as an instruction it
is written in `WR_TREE` whatever is on the stack. No step calls this meaning. -/
def execTokI (s : State) : Result :=
  match s.phase with
  | .wrTree => .next s.writeInnerToken
  | .rdTree => if s.atCursor [false] then execPhaseRdTree s else .next s
  | _ => .next s

/-- The token `L(v)` (R95). DESIGN CHOICE (log 27): R161 writes only `L(n.sym)` of the node it pops, never a reserved symbol
(R100); the token as an instruction names its symbol, so in `WR_TREE` any nine-bit `v` is written, 257 to 511 among them,
whatever is on the stack. No step calls this meaning. -/
def execTokL (v : Sym) (s : State) : Result :=
  match s.phase with
  | .wrTree => .next (s.writeLeafToken v)
  | .rdTree => if s.atCursor (true :: bitsMsb 9 v.toNat) then execPhaseRdTree s else .next s
  | _ => .next s

/-- The symbol of the leaf that the walk from node `c` along these bits reaches, by the node memory (R202). -/
def State.walkSym (s : State) : List Bool → Nat → Option Sym
  | [], c => if (s.nodeAt c).leaf then some (s.nodeAt c).sym else none
  | b :: bits, c =>
    if (s.nodeAt c).leaf then some (s.nodeAt c).sym
    else s.walkSym bits (if b then (s.nodeAt c).right else (s.nodeAt c).left)

/-- `DECODE` steps, at most `k`, until the walk has returned to the root or the operation has ended (R201). -/
def State.takeCode : Nat → State → Result
  | 0, s => .next s
  | k + 1, s =>
    match execPhaseDecode s with
    | .next t => if t.phase = .decode ∧ t.cur ≠ t.root then State.takeCode k t else .next t
    | .fault f => .fault f
    | .refused r => .refused r

/-- The token `C(v)` (R96, R97). Written by `ENCODE`, where a symbol without a code is `E_NO_CODE` (R180), and by `WR_EOF`
(R182). Read by `DECODE`, one step per bit, from the root. DESIGN CHOICE (log 26): R180 writes only byte codes and R182 only
`C(256)`; the token as an instruction names its symbol, so here `ENCODE` writes any `v` up to 256 that has a code, 256 among
them, and `WR_EOF` the table entry of any `v` up to 256, valid or not. No step calls this meaning. -/
def execTokC (v : Sym) (s : State) : Result :=
  if 256 < v.toNat then .fault (.codeIndex v.toNat)
  else
    match s.phase with
    | .encode => .next (if (s.codeAt v.toNat).valid then s.emit (s.codeAt v.toNat) else s.raise .noCode)
    | .wrEof => .next (s.emit (s.codeAt v.toNat))
    | .decode =>
      if s.cur = s.root ∧ s.walkSym s.unread s.root = some v then State.takeCode (s.unread.length + 1) s else .next s
    | _ => .next s

/-- The bits of `OUT` with `p` padding bits appended, as `close()` appends them (R66). -/
def State.appendPad (p : Nat) (s : State) : State :=
  { s with out := { s.out with bits := s.out.bits ++ List.replicate p s.cfg.padBit } }

/-- The token `PAD(p)` (R98). Written in `CLOSE`, where its length is the one that reaches the byte boundary; never read
by a decompress (R207). -/
def execTokPad (p : BitVec 3) (s : State) : Result :=
  match s.phase with
  | .close => .next (if !s.out.closed && decide (p.toNat = padLen s.out.bits.length) then s.appendPad p.toNat else s)
  | _ => .next s

end Sys2Proof.Machine
end

