-- ==== Sys2Proof/Machine/Dispatch.lean ====
section
/-! DEFINITION. One arm per instruction. -/

namespace Sys2Proof.Machine

def exec (i : Instr) (s : State) : Host.Outcome State Fault Refusal :=
  match i with
  -- host commands
  | .nop => Sys2Proof.Machine.execNop s
  | .compress => Sys2Proof.Machine.execCompress s
  | .decompress => Sys2Proof.Machine.execDecompress s
  | .clear => Sys2Proof.Machine.execClear s
  -- stream tokens
  | .tokMagic => Sys2Proof.Machine.execTokMagic s
  | .tokI => Sys2Proof.Machine.execTokI s
  | .tokL v => Sys2Proof.Machine.execTokL v s
  | .tokC v => Sys2Proof.Machine.execTokC v s
  | .tokPad p => Sys2Proof.Machine.execTokPad p s
  -- sequencer phases
  | .phaseIdle => Sys2Proof.Machine.execPhaseIdle s
  | .phaseCount => Sys2Proof.Machine.execPhaseCount s
  | .phaseBuildInit => Sys2Proof.Machine.execPhaseBuildInit s
  | .phaseBuildMerge => Sys2Proof.Machine.execPhaseBuildMerge s
  | .phaseDerive => Sys2Proof.Machine.execPhaseDerive s
  | .phaseWrMagic => Sys2Proof.Machine.execPhaseWrMagic s
  | .phaseWrTree => Sys2Proof.Machine.execPhaseWrTree s
  | .phaseRewind => Sys2Proof.Machine.execPhaseRewind s
  | .phaseEncode => Sys2Proof.Machine.execPhaseEncode s
  | .phaseWrEof => Sys2Proof.Machine.execPhaseWrEof s
  | .phaseClose => Sys2Proof.Machine.execPhaseClose s
  | .phaseRdMagic => Sys2Proof.Machine.execPhaseRdMagic s
  | .phaseRdTree => Sys2Proof.Machine.execPhaseRdTree s
  | .phaseDecode => Sys2Proof.Machine.execPhaseDecode s
  | .phaseDone => Sys2Proof.Machine.execPhaseDone s
  | .phaseFault => Sys2Proof.Machine.execPhaseFault s
  -- channel transactions
  | .inRead n => Sys2Proof.Machine.execInRead n s
  | .inReset => Sys2Proof.Machine.execInReset s
  | .outWrite n v => Sys2Proof.Machine.execOutWrite n v s
  | .outClose => Sys2Proof.Machine.execOutClose s

end Sys2Proof.Machine
end

