-- ==== Sys2Proof/Machine/Host.lean ====
section
/-! DEFINITION. What the host and the environment do to the machine (`46_host_interface.md`, `70_reset_and_hazards.md`),
other than the commands. -/

namespace Sys2Proof.Machine

/-- A fresh pair of channels: the launch state of R265. -/
def State.launch (bytes : List Byte) (s : State) : State :=
  { s with
    inp := { bits := bytesToBits bytes, pos := 0, eod := false }
    out := { bits := [], closed := false } }

/-- The input collaborator returns other bytes from now on (breaks R80, log 18); the cursor stays inside `IN`. -/
def State.swapIn (bytes : List Byte) (s : State) : State :=
  { s with inp := { s.inp with bits := bytesToBits bytes, pos := min s.inp.pos (bytesToBits bytes).length } }

/-- A channel transaction applied to a state; anything else is none. -/
def State.transact (i : Instr) (s : State) : State :=
  match i with
  | .inRead n => s.afterRead n.toNat
  | .inReset => s.resetIn
  | .outWrite n v => s.writeBits n.toNat v
  | .outClose => s.closeOut
  | .nop | .compress | .decompress | .clear | .tokMagic | .tokI | .tokL _ | .tokC _ | .tokPad _
  | .phaseIdle | .phaseCount | .phaseBuildInit | .phaseBuildMerge | .phaseDerive | .phaseWrMagic | .phaseWrTree
  | .phaseRewind | .phaseEncode | .phaseWrEof | .phaseClose | .phaseRdMagic | .phaseRdTree | .phaseDecode
  | .phaseDone | .phaseFault => s

/-- The transactions of a list of request words, in order. -/
def State.replay : List ChanReq → State → State
  | [], s => s
  | w :: ws, s =>
    match decodeChan w with
    | .ok i => State.replay ws (s.transact i)
    | .error _ => State.replay ws s

/-- The request words a step issued, in order: `s` before it, `t` after it (R77). -/
def State.issued (s t : State) : List ChanReq :=
  ((t.chanLog.take (t.chanLog.length - s.chanLog.length)).reverse).map (·.1)

/-- A reset that arrives during a step of which `r` is the outcome (R260): the step's effects on core state are
discarded, the first `k` transactions it issued stand, and the reset takes effect (log 17). -/
def cutByReset (k : Nat) (s : State) (r : Result) : Result :=
  match r with
  | .next t => .next (State.replay ((s.issued t).take k) s).resetEvent
  | .fault f => .fault f
  | .refused q => .refused q

end Sys2Proof.Machine
end

