-- ==== Sys2Proof/Machine/Fetch.lean ====
section
/-! DEFINITION. What the next step runs, and how an instruction is put where the next step takes it. -/

namespace Sys2Proof.Machine

/-- The step of a phase, as an instruction (R106). "Which step runs is decided by `PHASE` alone" (R22). -/
def phaseInstr : Phase → Instr
  | .idle => .phaseIdle
  | .count => .phaseCount
  | .buildInit => .phaseBuildInit
  | .buildMerge => .phaseBuildMerge
  | .derive => .phaseDerive
  | .wrMagic => .phaseWrMagic
  | .wrTree => .phaseWrTree
  | .rewind => .phaseRewind
  | .encode => .phaseEncode
  | .wrEof => .phaseWrEof
  | .close => .phaseClose
  | .rdMagic => .phaseRdMagic
  | .rdTree => .phaseRdTree
  | .decode => .phaseDecode
  | .done => .phaseDone
  | .fault => .phaseFault

/-- What the next step is. -/
inductive Fetched where
  /-- Run this instruction in this state (the host's list already advanced). -/
  | run (i : Instr) (s : State)
  /-- Run it and let a reset cut it after `k` transactions (R260). -/
  | cut (k : Nat) (i : Instr) (s : State)
  /-- An act of the host or the environment that is no instruction, and its outcome. -/
  | act (r : Result)

/-- What one entry of the host's list does, `s` having the list already advanced. -/
def hostSlot (e : HostEvent) (s : State) : Fetched :=
  match e with
  | .seq => .run (phaseInstr s.phase) s
  | .regWrite k v => if k = 0 then .run (decodeCmd v) s else .act (.next s)
  | .regRead k => .act (.next (s.hostRead k))
  | .reset => .act (.next s.resetEvent)
  | .resetDuring k => .cut k (phaseInstr s.phase) s
  | .launch bytes => .act (.next (s.launch bytes))
  | .swapIn bytes => .act (.next (s.swapIn bytes))
  | .chan w =>
    match decodeChan w with
    | .ok i => .run i s
    | .error _ => .act (.refused .undefinedTransaction)

/-- The next step: the first entry of the host's list, or the sequencer's step when the list is empty (log 6). A host
access falls between two steps (R22, R215). -/
def fetch (s : State) : Fetched :=
  match s.pending with
  | [] => .run (phaseInstr s.phase) s
  | e :: rest => hostSlot e { s with pending := rest }

/-! ### Placing an instruction (log 8) -/

/-- Leave the next slot to the sequencer. -/
def State.seqNext (s : State) : State :=
  { s with pending := match s.pending with
      | [] => []
      | e :: rest => .seq :: e :: rest }

/-- Put the sequencer before a phase. `DECODE` and `BUILD_MERGE` have entry states (R201, R135) without which they have
no step; where the state is none of them, the least is set that makes it one (log 8). -/
def State.atPhase (p : Phase) (s : State) : State :=
  match p with
  | .decode =>
    if s.cur < s.cfg.nodeCap then { s.seqNext with phase := .decode }
    else { s.seqNext with phase := .decode, root := 0, cur := 0 }
  | .buildMerge =>
    if s.popcount = 0 then { s.seqNext.setLive 0 true with phase := .buildMerge }
    else { s.seqNext with phase := .buildMerge }
  | p => { s.seqNext with phase := p }

/-- Put these bits at the start of `IN` and the sequencer before the phase that reads them. -/
def State.atToken (p : Phase) (bits : List Bool) (s : State) : State :=
  { s.seqNext with phase := p, inp := { bits := bits, pos := 0, eod := false } }

/-- Put an entry at the head of the host's list. -/
def State.hostNext (e : HostEvent) (s : State) : State := { s with pending := e :: s.pending }

/-- Put the instruction of an opcode-table word where the next step takes it (log 8). -/
def placeFetch (nbits w : Nat) (s : State) : State :=
  match decodeTableWord nbits w with
  | some .tokMagic => s.atToken .rdMagic (bitsMsb 32 w)
  | some .tokI => s.atToken .rdTree [false]
  | some (.tokL v) => s.atToken .rdTree (true :: bitsMsb 9 v.toNat)
  | some .phaseIdle => s.atPhase .idle
  | some .phaseCount => s.atPhase .count
  | some .phaseBuildInit => s.atPhase .buildInit
  | some .phaseBuildMerge => s.atPhase .buildMerge
  | some .phaseDerive => s.atPhase .derive
  | some .phaseWrMagic => s.atPhase .wrMagic
  | some .phaseWrTree => s.atPhase .wrTree
  | some .phaseRewind => s.atPhase .rewind
  | some .phaseEncode => s.atPhase .encode
  | some .phaseWrEof => s.atPhase .wrEof
  | some .phaseClose => s.atPhase .close
  | some .phaseRdMagic => s.atPhase .rdMagic
  | some .phaseRdTree => s.atPhase .rdTree
  | some .phaseDecode => s.atPhase .decode
  | some .phaseDone => s.atPhase .done
  | some .phaseFault => s.atPhase .fault
  | some .nop | some .compress | some .decompress | some .clear => s.hostNext (.regWrite 0 (BitVec.ofNat 32 w))
  | some (.inRead _) | some .inReset | some (.outWrite _ _) | some .outClose =>
    s.hostNext (.chan (BitVec.ofNat 41 w))
  | some (.tokC _) | some (.tokPad _) => s
  | none => if nbits = 41 ∨ nbits = 48 then s.hostNext (.chan (BitVec.ofNat 41 w)) else s

end Sys2Proof.Machine
end

