-- ==== Sys2Proof/Machine/Step.lean ====
section
/-! DEFINITION. One step of the machine: an act of the host, or the step of the sequencer (`10_state.md` R22). -/

namespace Sys2Proof.Machine

/-- One step (R22, R216, R260). -/
def step (s : State) : Host.Outcome State Fault Refusal :=
  match fetch s with
  | .run i t => exec i t
  | .cut k i t => cutByReset k t (exec i t)
  | .act r => r

/-- `s` with the instruction of an opcode-table word put where `step` takes its next instruction (log 8). -/
def State.withFetchWord (s : State) (nbits w : Nat) : State := placeFetch nbits w s

end Sys2Proof.Machine
end

