-- ==== Sys2Proof/Machine/Contract.lean ====
section
/-! DEFINITION. The functions the phases realise, as the source states them: `count` (R120), `build` (R130), `derive`
(R145), `writeHeader` (R155), `readHeader` (R156), `compress` (R175), `decompress` (R195), and the abstract tree a node
memory holds (R34). They read and write no machine state. -/

namespace Sys2Proof.Machine.Contract

/-! ### count -/

/-- `count(S)`: the table entry of symbol `s` (R120). -/
def count (input : List Byte) (s : Nat) : Nat :=
  if s = eofSym.toNat then 1 else if s < 256 then input.countP (fun b => decide (b.toNat = s)) else 0

/-! ### build -/

/-- A member of the priority structure: its node index, its weight, its tree, and what the node holds (`State.content`). -/
structure Item where
  index : Nat
  weight : Nat
  tree : Tree
  content : List NodeEntry
  deriving DecidableEq, Repr

/-- The place of an item among the items of its weight. -/
def Item.tieKey (c : Config) (a : Item) : Nat := Machine.tieKey c a.index a.content

/-- `TIE_ORDER` (R131). -/
def Item.before (c : Config) (a b : Item) : Bool :=
  decide (a.weight < b.weight) ||
    (decide (a.weight = b.weight) && (decide (a.tieKey c < b.tieKey c) ||
      (decide (a.tieKey c = b.tieKey c) && decide (a.index < b.index))))

/-- Remove the minimum: the item and what is left. -/
def removeMin (c : Config) : List Item → Option (Item × List Item)
  | [] => none
  | a :: items =>
    match removeMin c items with
    | none => some (a, [])
    | some (m, rest) => if a.before c m then some (a, m :: rest) else some (m, a :: rest)

/-- The leaf of symbol `s`, inserted as node `j` (R132). -/
def leafItem (c : Config) (freq : Nat → Nat) (j s : Nat) : Item :=
  { index := j, weight := freq s, tree := .leaf (BitVec.ofNat 9 s)
    content := [{ leaf := true, sym := BitVec.ofNat 9 s, weight := freq s, left := c.nil, right := c.nil }] }

/-- The leaves in order of insertion: the symbols of non-zero count, ascending (R130, R132). -/
def leafItems (c : Config) (freq : Nat → Nat) : Nat → List Nat → List Item
  | _, [] => []
  | j, s :: symbols =>
    if freq s = 0 then leafItems c freq j symbols else leafItem c freq j s :: leafItems c freq (j + 1) symbols

/-- The node that a merge makes of the first and the second item removed, inserted as node `i` (R130, R136). -/
def mergedItem (i : Nat) (a b : Item) : Item :=
  { index := i, weight := a.weight + b.weight, tree := .node a.tree b.tree
    content := { leaf := false, sym := 0, weight := a.weight + b.weight, left := a.index, right := b.index } ::
      (a.content ++ b.content) }

/-- Merge the two minima, first removed left, until one node remains (R130); `next` is the index of the next node. -/
def mergeAll (c : Config) : Nat → Nat → List Item → Option Tree
  | 0, _, _ => none
  | fuel + 1, next, items =>
    match removeMin c items with
    | none => none
    | some (a, rest) =>
      match removeMin c rest with
      | none => some a.tree
      | some (b, rest') => mergeAll c fuel (next + 1) (rest' ++ [mergedItem next a b])

/-- `build(F)` (R130); none only for a table without a non-zero entry. -/
def build (c : Config) (freq : Nat → Nat) : Option Tree :=
  let items := leafItems c freq 0 (List.range Config.nsyms)
  mergeAll c (items.length + 1) items.length items

/-! ### derive -/

/-- `derive(T, p)`: every leaf with its path (R145). -/
def deriveFrom : Tree → List Bool → List (Sym × List Bool)
  | .leaf s, p => [(s, p)]
  | .node l r, p => deriveFrom l (p ++ [false]) ++ deriveFrom r (p ++ [true])

/-- `derive(T)` (R145). -/
def derive (t : Tree) : List (Sym × List Bool) := deriveFrom t []

/-! ### The header -/

/-- `writeHeader(T)` (R155). -/
def writeHeader : Tree → List Bool
  | .leaf s => true :: bitsMsb 9 s.toNat
  | .node l r => false :: (writeHeader l ++ writeHeader r)

/-- `readHeader(bits)` (R156) with room for `room` more nodes (R168): the tree, the bits left, the room left. The first
argument bounds the depth; a depth beyond the room is a want of room. -/
def readHeaderIn : Nat → Nat → List Bool → Except ErrCode (Tree × List Bool × Nat)
  | 0, _, _ => .error .treeOvf
  | _ + 1, 0, _ => .error .treeOvf
  | _ + 1, _ + 1, [] => .error .header
  | depth + 1, room + 1, false :: bits =>
    match readHeaderIn depth room bits with
    | .error e => .error e
    | .ok (l, bits', room') =>
      match readHeaderIn depth room' bits' with
      | .error e => .error e
      | .ok (r, bits'', room'') => .ok (.node l r, bits'', room'')
  | _ + 1, room + 1, true :: bits =>
    match splitBits 9 bits with
    | none => .error .header
    | some (f, bits') => .ok (.leaf (BitVec.ofNat 9 (valMsb f)), bits', room)

/-- `readHeader(bits)` on a node memory of `NODE_CAP` entries (R156, R168). -/
def readHeader (c : Config) (bits : List Bool) : Except ErrCode (Tree × List Bool) :=
  match readHeaderIn (c.nodeCap + 1) c.nodeCap bits with
  | .error e => .error e
  | .ok (t, rest, _) => .ok (t, rest)

/-! ### compress -/

/-- The code of a symbol in a tree (R96, R146); empty for a symbol that has no leaf. -/
def code (t : Tree) (s : Sym) : List Bool := (t.path? s).getD []

/-- `C(b_1) ... C(b_N) C(256)` (R97). -/
def payload (t : Tree) (input : List Byte) : List Bool :=
  (input.flatMap fun b => code t (b.setWidth 9)) ++ code t eofSym

/-- A stream before its padding: magic, header, payload (R90, R175). -/
def unpadded (c : Config) (t : Tree) (input : List Byte) : List Bool :=
  bitsMsb 32 c.magic.toNat ++ writeHeader t ++ payload t input

/-- `bits` with the padding of `close()` (R66). -/
def padded (c : Config) (bits : List Bool) : List Bool := bits ++ List.replicate (padLen bits.length) c.padBit

/-- `compress(S)` (R175). -/
def compress (c : Config) (input : List Byte) : Option (List Bool) :=
  (build c (count input)).map fun t => padded c (unpadded c t input)

/-! ### decompress -/

/-- The walk of R195 (4) from node `cur` of tree `t`: the outcome and the bytes. -/
def walk (t : Tree) : Tree → List Bool → ErrCode × List Byte
  | _, [] => (.trunc, [])
  | .leaf _, _ :: _ => (.leafRoot, [])
  | .node l r, b :: bits =>
    match if b then r else l with
    | .node l' r' => walk t (.node l' r') bits
    | .leaf s =>
      if s = eofSym then (.none, [])
      else if 256 < s.toNat then (.symRange, [])
      else
        let out := walk t t bits
        (out.1, s.setWidth 8 :: out.2)

/-- `decompress(bits)` (R195): the outcome (`none` for `DONE`) and the output bytes. -/
def decompress (c : Config) (bits : List Bool) : ErrCode × List Byte :=
  match splitBits 32 bits with
  | none => (.format, [])
  | some (m, rest) =>
    if BitVec.ofNat 32 (valMsb m) = c.magic then
      match readHeader c rest with
      | .error e => (e, [])
      | .ok (.leaf s, _) => if s = eofSym then (.none, []) else (.leafRoot, [])
      | .ok (.node l r, rest') => walk (.node l r) (.node l r) rest'
    else (.format, [])

end Sys2Proof.Machine.Contract

namespace Sys2Proof.Machine.State

/-- `Tree(i)` (R34), to a depth of `fuel` edges; none where the structure is deeper or leaves the allocated nodes. -/
def treeAt (s : State) : Nat → Nat → Option Tree
  | 0, _ => none
  | fuel + 1, i =>
    if i < s.nnodes then
      if (s.nodeAt i).leaf then some (.leaf (s.nodeAt i).sym)
      else
        match s.treeAt fuel (s.nodeAt i).left, s.treeAt fuel (s.nodeAt i).right with
        | some l, some r => some (.node l r)
        | _, _ => none
    else none

end Sys2Proof.Machine.State
end

