-- ==== Sys2Proof/Safety.lean ====
section
/-! DEFINITION. The invariants of the machine: what the spec says of every state a run reaches. -/

namespace Sys2Proof.Machine

/-- The five memories are in canonical form and list no index they do not have (R30 to R35). -/
structure State.MemoriesOk (s : State) : Prop where
  freqWf : Memory.wf 0 s.freq = true
  nodeWf : Memory.wf NodeEntry.zero s.node = true
  liveWf : Memory.wf false s.live = true
  codeWf : Memory.wf CodeEntry.zero s.code = true
  stkWf : Memory.wf StkEntry.zero s.stk = true
  freqBelow : Memory.below Config.nsyms s.freq = true
  nodeBelow : Memory.below s.cfg.nodeCap s.node = true
  liveBelow : Memory.below s.cfg.nodeCap s.live = true
  codeBelow : Memory.below Config.nsyms s.code = true
  stkBelow : Memory.below s.cfg.stackCap s.stk = true

/-- Every value fits the width R26, R30, R31 and R35 give it. -/
structure State.WidthsOk (s : State) : Prop where
  nsym : s.nsym ≤ s.cfg.maxInput
  nnodes : s.nnodes ≤ s.cfg.nodeCap
  root : s.root < 2 ^ s.cfg.idxW
  cur : s.cur < 2 ^ s.cfg.idxW
  sp : s.sp ≤ s.cfg.stackCap
  scan : s.scan.toNat ≤ 256
  freq : ∀ i, s.freqAt i < 2 ^ s.cfg.cntW
  weight : ∀ i, (s.nodeAt i).weight < 2 ^ s.cfg.cntW
  left : ∀ i, (s.nodeAt i).left < 2 ^ s.cfg.idxW
  right : ∀ i, (s.nodeAt i).right < 2 ^ s.cfg.idxW
  stkNode : ∀ i, (s.stkAt i).node < 2 ^ s.cfg.idxW

/-- The invariant of every state: configuration, memories, widths, the error code (R43), the mode (R224), the cursor
(R61). -/
structure State.Inv (s : State) : Prop where
  config : s.cfg.wf = true
  memories : s.MemoriesOk
  widths : s.WidthsOk
  errcode : s.errcode ≠ .none ↔ s.phase = .fault
  compressing : s.phase.ofCompress = true → s.mode = .compress
  decompressing : s.phase.ofDecompress = true → s.mode = .decompress
  cursor : s.inp.pos ≤ s.inp.bits.length

/-- Every live node is allocated. -/
def State.LiveAllocated (s : State) : Prop := ∀ i, s.liveAt i = true → i < s.nnodes

/-- The allocated nodes are the builder's: a leaf holds a symbol, the children of an internal node have smaller indices
(R139). -/
def State.Built (s : State) : Prop :=
  ∀ i, i < s.nnodes →
    ((s.nodeAt i).leaf = true → (s.nodeAt i).sym.toNat ≤ 256) ∧
    ((s.nodeAt i).leaf = false → (s.nodeAt i).left < i ∧ (s.nodeAt i).right < i)

/-- The traversal of a built tree fits the stack (R163). -/
def State.StackFits (s : State) : Prop := ∀ j, j < s.sp → (s.stkAt j).node + j ≤ s.root

/-- An internal node has both children (R169). -/
def State.Complete (s : State) (i : Nat) : Prop :=
  (s.nodeAt i).leaf = false → (s.nodeAt i).left < s.nnodes ∧ (s.nodeAt i).right < s.nnodes

/-- While the tree field is read: a waiting node is allocated, has its left child when it waits for the right one, and
every other node is complete (R165). -/
def State.Reading (s : State) : Prop :=
  s.sp ≤ s.nnodes ∧
  (∀ j, j < s.sp → (s.stkAt j).node < s.nnodes ∧
    ((s.stkAt j).side = true → (s.nodeAt (s.stkAt j).node).left < s.nnodes)) ∧
  ∀ i, i < s.nnodes → (∃ j, j < s.sp ∧ (s.stkAt j).node = i) ∨ s.Complete i

/-- A phase of a compress after `COUNT` (R106). -/
def Phase.counted (p : Phase) : Bool := decide (2 ≤ p.toCode) && decide (p.toCode ≤ 10)

/-- A busy phase in which the priority structure is not in use (R32). -/
def Phase.unqueued (p : Phase) : Bool := p.busy && decide (p ≠ .buildInit) && decide (p ≠ .buildMerge)

/-- The invariant of a state in which an operation may be running: `Inv`, only defined transactions on the host's list,
and what each phase finds (the entry states of the family files). It rules out every stop of the model. -/
structure State.Sound (s : State) : Prop where
  inv : s.Inv
  transactions : ∀ w, HostEvent.chan w ∈ s.pending → ∃ i, decodeChan w = .ok i ∧ i.wf = true
  /-- R32: `LIVE` is all 0 outside the builder's phases. -/
  unqueued : s.phase.unqueued = true → s.live = []
  /-- R124: the pseudo-EOF invariant. -/
  pseudoEof : s.phase.counted = true → s.freqAt 256 = 1
  /-- R123: `FREQ[r] <= NSYM`. -/
  counting : s.phase = .count → s.nnodes = 0 ∧ ∀ i, s.freqAt i ≤ s.nsym
  inserting : s.phase = .buildInit → s.nnodes ≤ s.scan.toNat ∧ s.popcount = s.nnodes ∧ s.LiveAllocated ∧ s.Built
  merging : s.phase = .buildMerge → 1 ≤ s.popcount ∧ s.nnodes + s.popcount ≤ 514 ∧ s.LiveAllocated ∧ s.Built
  traversing : s.phase = .derive ∨ s.phase = .wrMagic ∨ s.phase = .wrTree → s.root < s.nnodes ∧ s.Built
  stacked : s.phase = .derive ∨ s.phase = .wrTree → s.StackFits
  starting : s.phase = .rdMagic → s.nnodes = 0 ∧ s.sp = 0
  reading : s.phase = .rdTree → s.Reading
  walking : s.phase = .decode → s.cur < s.nnodes ∧ s.root < s.nnodes ∧ ∀ i, i < s.nnodes → s.Complete i

/-- A value of `n` bits as a stream carries it: bit `n - 1` first, bit 0 last (R11, R68). -/
def msbFirst {n : Nat} (v : BitVec n) : List Bool := List.ofFn fun k : Fin n => v.getLsbD (n - 1 - k)

/-- The code of an entry of `CODE`: `val[len-1], val[len-2], ..., val[0]` (R33). -/
def CodeEntry.stream (c : CodeEntry) : List Bool :=
  List.ofFn fun k : Fin c.len.toNat => c.val.getLsbD (c.len.toNat - 1 - k)

/-- No end-of-data is pending and the next `n` bits of `IN` are those of `v`: `readBits(n)` returns `v` (R62). -/
def State.Offers (s : State) {n : Nat} (v : BitVec n) : Prop :=
  s.inp.eod = false ∧ msbFirst v <+: s.inp.bits.drop s.inp.pos

/-- `readBits(n)` returns `EndOfData` (R62). -/
def State.Exhausted (s : State) (n : Nat) : Prop := s.inp.eod = true ∨ s.inp.bits.length < s.inp.pos + n

/-- `IN` after `n` bits have been consumed (R62). -/
def InChan.advanced (c : InChan) (n : Nat) : InChan := { c with pos := c.pos + n }

/-- `IN` after an `EndOfData` (R62). -/
def InChan.drained (c : InChan) : InChan := { c with pos := c.bits.length, eod := true }

/-- `OUT` after `close()`: padded to a byte boundary with `PAD_BIT`, and closed (R66). -/
def State.closedOut (s : State) : OutChan :=
  { bits := s.out.bits ++ List.replicate ((8 - s.out.bits.length % 8) % 8) s.cfg.padBit, closed := true }

/-- `t` is `s` after the start-of-operation initialisation of R219, apart from what the command itself writes. -/
structure State.Initialised (s t : State) : Prop where
  freq : ∀ i, t.freqAt i = 0
  live : ∀ i, t.liveAt i = false
  code : ∀ i, t.codeAt i = { s.codeAt i with valid := false }
  nsym : t.nsym = 0
  nnodes : t.nnodes = 0
  sp : t.sp = 0
  scan : t.scan = 0
  root : t.root = s.cfg.nil
  cur : t.cur = s.cfg.nil
  errcode : t.errcode = .none

/-- The registers after reset (R50, R260). -/
structure State.RegistersReset (t : State) : Prop where
  phase : t.phase = .idle
  mode : t.mode = .compress
  errcode : t.errcode = .none
  nsym : t.nsym = 0
  nnodes : t.nnodes = 0
  root : t.root = t.cfg.nil
  cur : t.cur = t.cfg.nil
  sp : t.sp = 0
  scan : t.scan = 0

/-- Where `PHASE` may go from a phase by its own step, `FAULT` aside (R23). -/
def Phase.after : Phase → List Phase
  | .idle => [.idle]
  | .count => [.count, .buildInit]
  | .buildInit => [.buildInit, .buildMerge]
  | .buildMerge => [.buildMerge, .derive]
  | .derive => [.derive, .wrMagic]
  | .wrMagic => [.wrTree]
  | .wrTree => [.wrTree, .rewind]
  | .rewind => [.encode]
  | .encode => [.encode, .wrEof]
  | .wrEof => [.close]
  | .close => [.done]
  | .rdMagic => [.rdTree]
  | .rdTree => [.rdTree, .decode]
  | .decode => [.decode, .done]
  | .done => [.done]
  | .fault => [.fault]

/-- The errors the step of a phase can raise (R231). -/
def Phase.errors : Phase → List ErrCode
  | .count => [.countOvf]
  | .encode => [.noCode]
  | .rdMagic => [.format]
  | .rdTree => [.treeOvf, .header]
  | .decode => [.leafRoot, .trunc, .symRange]
  | .idle | .buildInit | .buildMerge | .derive | .wrMagic | .wrTree | .rewind | .wrEof | .close | .done | .fault => []

/-- The transaction words of R108 that R73 gives a phase's step, in the order issued. -/
def Phase.issues (c : Config) (p : Phase) (ws : List ChanReq) : Prop :=
  match p with
  | .count => ws = [encodeChan (.inRead 8)]
  | .wrMagic => ws = [encodeChan (.outWrite 32 c.magic)]
  | .wrTree =>
    ws = [] ∨ ws = [encodeChan (.outWrite 1 0)] ∨
      ∃ v : Sym, ws = [encodeChan (.outWrite 1 1), encodeChan (.outWrite 9 (v.setWidth 32))]
  | .rewind => ws = [encodeChan .inReset]
  | .encode => ∃ bits : List Bool,
    ws = encodeChan (.inRead 8) :: bits.map fun b => encodeChan (.outWrite 1 (if b then 1 else 0))
  | .wrEof => ∃ bits : List Bool, ws = bits.map fun b => encodeChan (.outWrite 1 (if b then 1 else 0))
  | .close => ws = [encodeChan .outClose]
  | .rdMagic => ws = [encodeChan (.inRead 32)]
  | .rdTree => ws = [] ∨ ws = [encodeChan (.inRead 1)] ∨ ws = [encodeChan (.inRead 1), encodeChan (.inRead 9)]
  | .decode =>
    ws = [] ∨ ws = [encodeChan .outClose] ∨ ws = [encodeChan (.inRead 1)] ∨
      ws = [encodeChan (.inRead 1), encodeChan .outClose] ∨
      ∃ v : Byte, ws = [encodeChan (.inRead 1), encodeChan (.outWrite 8 (v.setWidth 32))]
  | .idle | .buildInit | .buildMerge | .derive | .done | .fault => ws = []

/-- A run of `k` steps, stopping at the first fault or refusal. -/
def runSteps : Nat → State → Result
  | 0, s => .next s
  | k + 1, s =>
    match step s with
    | .next t => runSteps k t
    | .fault f => .fault f
    | .refused r => .refused r

end Sys2Proof.Machine
end

