-- ==== Sys2Proof/Certificates/Slice0/Obligations.lean ====
section
/-! DEFINITION. The statements for the provers. "`{ t with f := s.f } = s`" says that nothing but the field `f` differs
between `s` and `t`: it is the frame of a statement. -/

section
open Sys2Proof Sys2Proof.Machine

/-! ### Encodings -/

/-- O1. Words written out from the encodings of the opcode table decode to the instructions they stand for. That the width
of a word selects its code space is the model's choice (log 11); that `0xFACE8201` is `MAGIC`, and so no command word, rests
on the value log 23 presumes. -/
def Obligations.TableWordsDecode : Prop :=
  decodeTableWord 32 0x00000000 = some .nop ∧
  decodeTableWord 32 0xFFFFFFFD = some .compress ∧
  decodeTableWord 32 0x00000002 = some .decompress ∧
  decodeTableWord 32 0x00000003 = some .clear ∧
  decodeTableWord 32 0xFACE8201 = some .tokMagic ∧
  decodeTableWord 1 0x0 = some .tokI ∧
  decodeTableWord 16 0x242 = some (.tokL 66) ∧
  decodeTableWord 8 0x1 = some .phaseCount ∧
  decodeTableWord 8 0xF = some .phaseFault ∧
  decodeTableWord 48 0x00800000000 = some (.inRead 8) ∧
  decodeTableWord 48 0x08000000000 = some .inReset ∧
  decodeTableWord 48 0x1490000012C = some (.outWrite 9 300) ∧
  decodeTableWord 48 0x1C000000000 = some .outClose

/-- O2. Decoding the encoding of a well-formed instruction, at its place and with any bits after it, gives the
instruction back. A codeword names a symbol of the stream's tree; a padding token has the length of its place. -/
def Obligations.DecodeEncodeAgree : Prop :=
  ∀ (c : Config) (t : Sys2Proof.Tree) (len : Nat) (i : Instr) (rest : List Bool), i.wf = true →
    (∀ s, i = .tokC s → s ∈ t.leaves) → (∀ p, i = .tokPad p → p.toNat = padLen len) →
    decode c (placeOf t len i) (encode c t i ++ rest) = .ok (i, rest)

/-- O3. A channel word that decodes is the word of one instruction, a channel transaction, in every one of its 41 bits. -/
def Obligations.ChannelWordHasOneMeaning : Prop :=
  ∀ (w : ChanReq) (i : Instr), decodeChan w = .ok i → encodeChan i = w ∧ ∀ t len, placeOf t len i = .chan

/-- O4. The fields of the channel request and response words. -/
def Obligations.ChannelWordLayout : Prop :=
  (∀ (n : BitVec 6), (encodeChan (.inRead n)).getLsbD 40 = false ∧ (encodeChan (.inRead n)).extractLsb' 38 2 = 0 ∧
    (encodeChan (.inRead n)).extractLsb' 32 6 = n ∧ (encodeChan (.inRead n)).extractLsb' 0 32 = 0) ∧
  ((encodeChan .inReset).getLsbD 40 = false ∧ (encodeChan .inReset).extractLsb' 38 2 = 2 ∧
    (encodeChan .inReset).extractLsb' 32 6 = 0 ∧ (encodeChan .inReset).extractLsb' 0 32 = 0) ∧
  (∀ (n : BitVec 6) (v : Word), (encodeChan (.outWrite n v)).getLsbD 40 = true ∧
    (encodeChan (.outWrite n v)).extractLsb' 38 2 = 1 ∧ (encodeChan (.outWrite n v)).extractLsb' 32 6 = n ∧
    (encodeChan (.outWrite n v)).extractLsb' 0 32 = v) ∧
  ((encodeChan .outClose).getLsbD 40 = true ∧ (encodeChan .outClose).extractLsb' 38 2 = 3 ∧
    (encodeChan .outClose).extractLsb' 32 6 = 0 ∧ (encodeChan .outClose).extractLsb' 0 32 = 0) ∧
  (∀ (e : Bool) (v : Word), (chanResponse e v).getLsbD 32 = e ∧ (chanResponse e v).extractLsb' 0 32 = v)

/-- O5. `readHeader` gives back a tree that `writeHeader` wrote, and the bits after it, if the node memory holds it. -/
def Obligations.HeaderRoundTrip : Prop :=
  ∀ (c : Config) (t : Sys2Proof.Tree) (rest : List Bool), t.nodes ≤ c.nodeCap →
    Contract.readHeader c (Contract.writeHeader t ++ rest) = .ok (t, rest)

/-- O6. A tree with `L` leaves has `L - 1` internal nodes and a header of `11 L - 1` bits. -/
def Obligations.HeaderLength : Prop :=
  ∀ t : Sys2Proof.Tree, t.nodes = t.leaves.length + (t.leaves.length - 1) ∧
    (Contract.writeHeader t).length = 11 * t.leaves.length - 1 ∧
    (t.leaves.length = 1 → (Contract.writeHeader t).length = 10) ∧
    (t.leaves.length ≤ 257 → (Contract.writeHeader t).length ≤ 2826)

/-- O7. Bit `k` of a stream is bit `7 - (k mod 8)` of byte `k / 8`, in both directions. -/
def Obligations.StreamPacking : Prop :=
  (∀ bytes : List Byte, (bytesToBits bytes).length = 8 * bytes.length ∧ bitsToBytes (bytesToBits bytes) = bytes ∧
    ∀ j i, i < 8 → (bytesToBits bytes)[8 * j + i]? = (bytes[j]?).map fun b => b.getLsbD (7 - i)) ∧
  ∀ bits : List Bool, bits.length % 8 = 0 → bytesToBits (bitsToBytes bits) = bits

/-- O8. The codes of two different symbols: neither is a prefix of the other. -/
def Obligations.CodesArePrefixFree : Prop :=
  ∀ (t : Sys2Proof.Tree) (s s' : Sym) (p p' : List Bool), t.path? s = some p → t.path? s' = some p' → s ≠ s' → ¬ p <+: p'

/-- O9. Whatever follows the payload in the place of the padding, decompressing a compressed stream gives the input
back. -/
def Obligations.StreamRoundTrip : Prop :=
  ∀ (c : Config) (input : List Byte), c.wf = true →
    ∃ t, Contract.build c (Contract.count input) = some t ∧
      Contract.compress c input = some (Contract.padded c (Contract.unpadded c t input)) ∧
      ∀ tail : List Bool, Contract.decompress c (Contract.unpadded c t input ++ tail) = (.none, input)

/-! ### The step and the host -/

/-- O10. What a step runs: with no host access waiting, the step that `PHASE` names by its code; else the entry at the
head of the host's list: the sequencer's own slot, a command word, a channel word. The list and its slots (log 6), the
slot of a resting phase (log 9) and a channel word of the host as an entry of it (log 19) are the model's choices. -/
def Obligations.StepRunsTheDecodedInstruction : Prop :=
  (∀ p : Phase, decodePhase (BitVec.ofNat 4 p.toCode) = phaseInstr p) ∧
  (∀ s : State, s.pending = [] → step s = exec (decodePhase (BitVec.ofNat 4 s.phase.toCode)) s) ∧
  (∀ (s : State) (rest : List HostEvent), s.pending = .seq :: rest →
    step s = exec (decodePhase (BitVec.ofNat 4 s.phase.toCode)) { s with pending := rest }) ∧
  (∀ (s : State) (v : Word) (rest : List HostEvent), s.pending = .regWrite 0 v :: rest →
    step s = exec (decodeCmd v) { s with pending := rest }) ∧
  (∀ (s : State) (w : ChanReq) (i : Instr) (rest : List HostEvent), s.pending = .chan w :: rest → decodeChan w = .ok i →
    step s = exec i { s with pending := rest })

/-- O11. The table of the command register: what a write of `v` to register 0 does, by `v[1:0]` and the class of
`PHASE`. -/
def Obligations.CommandTable : Prop :=
  ∀ (s : State) (v : Word) (rest : List HostEvent), Memory.wf CodeEntry.zero s.code = true →
    s.pending = .regWrite 0 v :: rest →
    let u : State := { s with pending := rest }
    (v.extractLsb' 0 2 = 0 → step s = .next u) ∧
    (v.extractLsb' 0 2 = 1 → s.phase = .idle ∨ s.phase = .done →
      ∃ t, step s = .next t ∧ u.Initialised t ∧ t.mode = .compress ∧ t.phase = .count) ∧
    (v.extractLsb' 0 2 = 2 → s.phase = .idle ∨ s.phase = .done →
      ∃ t, step s = .next t ∧ u.Initialised t ∧ t.mode = .decompress ∧ t.phase = .rdMagic) ∧
    (v.extractLsb' 0 2 = 1 ∨ v.extractLsb' 0 2 = 2 → s.phase = .fault ∨ s.busy = true → step s = .next u) ∧
    (v.extractLsb' 0 2 = 3 → s.phase = .done ∨ s.phase = .fault →
      step s = .next { u with phase := .idle, errcode := .none }) ∧
    (v.extractLsb' 0 2 = 3 → s.phase = .idle ∨ s.busy = true → step s = .next u)

/-- O12. `COMPRESS` accepted: the initialisation, `MODE` 0, `PHASE` `COUNT`; `STATUS` reads `0x11`; the channels, the
node memory and the stack are not touched. -/
def Obligations.CompressAccepted : Prop :=
  ∀ s : State, Memory.wf CodeEntry.zero s.code = true → s.phase = .idle ∨ s.phase = .done →
    ∃ t, exec .compress s = .next t ∧ s.Initialised t ∧ t.mode = .compress ∧ t.phase = .count ∧
      t.busy = true ∧ t.done = false ∧ t.error = false ∧ t.regValue 1 = 0x00000011 ∧
      { t with phase := s.phase, mode := s.mode, errcode := s.errcode, nsym := s.nsym, nnodes := s.nnodes, root := s.root,
               cur := s.cur, sp := s.sp, scan := s.scan, freq := s.freq, live := s.live, code := s.code } = s

/-- O13. `DECOMPRESS` accepted: the initialisation, `MODE` 1, `PHASE` `RD_MAGIC`; `STATUS` reads `0xB9`; the channels,
the node memory and the stack are not touched. -/
def Obligations.DecompressAccepted : Prop :=
  ∀ s : State, Memory.wf CodeEntry.zero s.code = true → s.phase = .idle ∨ s.phase = .done →
    ∃ t, exec .decompress s = .next t ∧ s.Initialised t ∧ t.mode = .decompress ∧ t.phase = .rdMagic ∧
      t.busy = true ∧ t.done = false ∧ t.error = false ∧ t.regValue 1 = 0x000000B9 ∧
      { t with phase := s.phase, mode := s.mode, errcode := s.errcode, nsym := s.nsym, nnodes := s.nnodes, root := s.root,
               cur := s.cur, sp := s.sp, scan := s.scan, freq := s.freq, live := s.live, code := s.code } = s

/-- O14. `NOP` has no effect in any phase. `CLEAR` in `DONE` and `FAULT`: `PHASE` becomes `IDLE`, `ERRCODE` 0, nothing
else changes; elsewhere nothing changes. -/
def Obligations.NopAndClear : Prop :=
  ∀ s : State, exec .nop s = .next s ∧
    (s.phase = .done ∨ s.phase = .fault → ∃ t, exec .clear s = .next t ∧ t.phase = .idle ∧ t.errcode = .none ∧
      { t with phase := s.phase, errcode := s.errcode } = s) ∧
    (s.phase ≠ .done → s.phase ≠ .fault → exec .clear s = .next s)

/-- O15. `FAULT` is left by a `CLEAR` written to register 0 or by a reset, and by nothing else; either way to `IDLE`. -/
def Obligations.FaultIsLeftOnlyByClearOrReset : Prop :=
  ∀ s t : State, s.phase = .fault → step s = .next t → t.phase ≠ .fault →
    t.phase = .idle ∧ t.errcode = .none ∧ ∃ e rest, s.pending = e :: rest ∧
      (e = .reset ∨ (∃ k, e = .resetDuring k) ∨ ∃ v : Word, e = .regWrite 0 v ∧ v.extractLsb' 0 2 = 3)

/-- O16. The bits of `STATUS`; a read changes no state but the host's own record of it, a write changes nothing. -/
def Obligations.StatusRegister : Prop :=
  ∀ s : State,
    (s.regValue 1).getLsbD 0 = s.busy ∧ (s.regValue 1).getLsbD 1 = s.done ∧ (s.regValue 1).getLsbD 2 = s.error ∧
    (s.regValue 1).getLsbD 3 = decide (s.mode = .decompress) ∧
    (s.regValue 1).extractLsb' 4 4 = BitVec.ofNat 4 s.phase.toCode ∧ (s.regValue 1).extractLsb' 8 24 = 0 ∧
    (∀ rest, s.pending = .regRead 1 :: rest →
      step s = .next { s with pending := rest, hostReads := (1, s.regValue 1) :: s.hostReads }) ∧
    (∀ v rest, s.pending = .regWrite 1 v :: rest → step s = .next { s with pending := rest })

/-- O17. The flags as functions of `PHASE`. -/
def Obligations.FlagsFollowPhase : Prop :=
  ∀ s : State,
    (s.busy = true ↔ 1 ≤ s.phase.toCode ∧ s.phase.toCode ≤ 13) ∧ (s.done = true ↔ s.phase = .done) ∧
    (s.error = true ↔ s.phase = .fault) ∧
    ¬ (s.busy = true ∧ s.done = true) ∧ ¬ (s.busy = true ∧ s.error = true) ∧ ¬ (s.done = true ∧ s.error = true) ∧
    ((s.busy = false ∧ s.done = false ∧ s.error = false) ↔ s.phase = .idle)

/-- O18. `ERR` holds `ERRCODE` in bits [3:0] and 0 above; the code is non-zero exactly in `FAULT`. A read changes no
state but the host's own record, a write nothing. -/
def Obligations.ErrRegister : Prop :=
  ∀ s : State, s.Inv →
    (s.regValue 2).extractLsb' 0 4 = BitVec.ofNat 4 s.errcode.toCode ∧ (s.regValue 2).extractLsb' 4 28 = 0 ∧
    ((s.regValue 2).extractLsb' 0 4 ≠ 0 ↔ s.phase = .fault) ∧
    (∀ rest, s.pending = .regRead 2 :: rest →
      step s = .next { s with pending := rest, hostReads := (2, s.regValue 2) :: s.hostReads }) ∧
    (∀ v rest, s.pending = .regWrite 2 v :: rest → step s = .next { s with pending := rest })

/-- O19. A read of register `k` returns 0 for `CMD`, `MAGIC` for 3, the low 32 bits of `NSYM` and `NNODES` for 4 and 5,
and 0 for a number above 5; it changes nothing but the host's own record. A write to a number other than 0 changes
nothing. -/
def Obligations.RegisterAccesses : Prop :=
  ∀ s : State,
    s.regValue 0 = 0 ∧ s.regValue 3 = s.cfg.magic ∧ (s.regValue 4).toNat = s.nsym % 2 ^ 32 ∧
    (s.regValue 5).toNat = s.nnodes % 2 ^ 32 ∧ (∀ k, 5 < k → s.regValue k = 0) ∧
    (∀ k rest, s.pending = .regRead k :: rest →
      step s = .next { s with pending := rest, hostReads := (k, s.regValue k) :: s.hostReads }) ∧
    (∀ k v rest, k ≠ 0 → s.pending = .regWrite k v :: rest → step s = .next { s with pending := rest })

/-! ### Reset -/

/-- O20. The machine right after reset: the registers, the flags and the host registers. -/
def Obligations.ResetState : Prop :=
  State.reset.RegistersReset ∧ State.reset.root = 1023 ∧
  State.reset.busy = false ∧ State.reset.done = false ∧ State.reset.error = false ∧
  State.reset.regValue 0 = 0 ∧ State.reset.regValue 1 = 0 ∧ State.reset.regValue 2 = 0 ∧
  State.reset.regValue 3 = State.reset.cfg.magic ∧ State.reset.regValue 4 = 0 ∧ State.reset.regValue 5 = 0

/-- O21. A reset between two steps, in any phase: every register takes its reset value; the channels, the log of their
transactions and the configuration are not touched. -/
def Obligations.ResetBetweenSteps : Prop :=
  ∀ (s : State) (rest : List HostEvent), s.pending = .reset :: rest →
    ∃ t, step s = .next t ∧ t.RegistersReset ∧ t.busy = false ∧ t.done = false ∧ t.error = false ∧
      t.inp = s.inp ∧ t.out = s.out ∧ t.chanLog = s.chanLog ∧ t.cfg = s.cfg ∧ t.pending = rest ∧ t.hostReads = s.hostReads

/-- O22. A reset during a step that issues `n` transactions, after the first `k` of them: the registers take their reset
values; the log holds the first `k` entries of the step and no later one (all `n` if `k` is larger); the channels are as
those transactions leave them, so with `k` = 0 as before the step, and with every transaction issued as the whole step leaves
them. That `k` comes from the host's list is the model's choice (log 17). -/
def Obligations.ResetDuringAStep : Prop :=
  ∀ (s u : State) (k : Nat) (rest : List HostEvent), s.pending = .resetDuring k :: rest →
    exec (phaseInstr s.phase) { s with pending := rest } = .next u →
    let n := u.chanLog.length - s.chanLog.length
    ∃ t, step s = .next t ∧ t.RegistersReset ∧ t.inp.bits = s.inp.bits ∧ t.cfg = s.cfg ∧ t.pending = rest ∧
      t.hostReads = s.hostReads ∧ t.chanLog = u.chanLog.drop (n - k) ∧
      t.inp = (State.replay ((s.issued u).take k) s).inp ∧ t.out = (State.replay ((s.issued u).take k) s).out ∧
      (k = 0 → t.inp = s.inp ∧ t.out = s.out ∧ t.chanLog = s.chanLog) ∧
      (n ≤ k → t.inp = u.inp ∧ t.out = u.out ∧ t.chanLog = u.chanLog)

/-! ### Channel transactions -/

/-- O23. `IN.readBits(n)`, every defined width: the `n` bits at the cursor, first bit most significant, and the cursor
moves past them; or `EndOfData`, the cursor at the end and the mark set. Nothing else of the machine changes. -/
def Obligations.InReadReturnsTheNextBits : Prop :=
  ∀ (s : State) (n : BitVec 6), 1 ≤ n.toNat → n.toNat ≤ 32 →
    (∀ v : BitVec n.toNat, s.Offers v →
      exec (.inRead n) s = .next { s with
        inp := { s.inp with pos := s.inp.pos + n.toNat }
        chanLog := (encodeChan (.inRead n), chanResponse false (v.setWidth 32)) :: s.chanLog }) ∧
    (s.Exhausted n.toNat →
      exec (.inRead n) s = .next { s with
        inp := { s.inp with pos := s.inp.bits.length, eod := true }
        chanLog := (encodeChan (.inRead n), chanResponse true 0) :: s.chanLog }) ∧
    (s.inp.eod = false → s.inp.pos + n.toNat ≤ s.inp.bits.length → ∃ v : BitVec n.toNat, s.Offers v)

/-- O24. `IN.reset()`: cursor and mark 0, the bits unchanged, nothing else of the machine changed. -/
def Obligations.InResetRewinds : Prop :=
  ∀ s : State, ∃ t, exec .inReset s = .next t ∧ t.inp.pos = 0 ∧ t.inp.eod = false ∧ t.inp.bits = s.inp.bits ∧
    t.chanLog = (encodeChan .inReset, chanResponse false 0) :: s.chanLog ∧
    { t with inp := s.inp, chanLog := s.chanLog } = s

/-- O25. `OUT.writeBits(n, v)` on an open `OUT`, every defined width: the `n` low bits of `v`, most significant first,
are appended; nothing else of the machine changes. On a closed `OUT` the transaction completes too, and only the bits of
`OUT`, which are then a free value (log 12), may differ. -/
def Obligations.OutWriteAppends : Prop :=
  ∀ (s : State) (n : BitVec 6) (v : Word), 1 ≤ n.toNat → n.toNat ≤ 32 →
    ∃ t, exec (.outWrite n v) s = .next t ∧ t.out.closed = s.out.closed ∧
      (s.out.closed = false → t.out.bits = s.out.bits ++ msbFirst (v.setWidth n.toNat) ∧ t.freeCtr = s.freeCtr) ∧
      t.chanLog = (encodeChan (.outWrite n v), chanResponse false 0) :: s.chanLog ∧
      { t with out := s.out, chanLog := s.chanLog, freeCtr := s.freeCtr } = s

/-- O26. `OUT.close()` on an open `OUT`: padding to a byte boundary with `PAD_BIT`, and the mark. On a closed `OUT` it
completes too, and only the bits of `OUT`, which are then a free value (log 12), may differ. -/
def Obligations.OutClosePads : Prop :=
  ∀ s : State, ∃ t, exec .outClose s = .next t ∧ t.out.closed = true ∧
    (s.out.closed = false → t.out = s.closedOut ∧ t.out.bits.length % 8 = 0 ∧
      t.out.bits.length < s.out.bits.length + 8 ∧ t.freeCtr = s.freeCtr) ∧
    t.chanLog = (encodeChan .outClose, chanResponse false 0) :: s.chanLog ∧
    { t with out := s.out, chanLog := s.chanLog, freeCtr := s.freeCtr } = s

/-- O27. A read or write of a width of 0 or above 32 is refused (the model's choice where R67 leaves it open, log 13),
and so are a word that is none of the four transactions and a word of one of the four whose `n` or `value` field is not 0
where R108 has 0 (log 13). -/
def Obligations.UndefinedTransactionsAreRefused : Prop :=
  (∀ (s : State) (n : BitVec 6) (v : Word), n.toNat = 0 ∨ 32 < n.toNat →
    exec (.inRead n) s = .refused .undefinedTransaction ∧ exec (.outWrite n v) s = .refused .undefinedTransaction) ∧
  (∀ (s : State) (n : BitVec 6) (v : Word) (w : ChanReq) (rest : List HostEvent), n.toNat = 0 ∨ 32 < n.toNat →
    w = encodeChan (.inRead n) ∨ w = encodeChan (.outWrite n v) → s.pending = .chan w :: rest →
    step s = .refused .undefinedTransaction) ∧
  (∀ (s : State) (w : ChanReq) (rest : List HostEvent), s.pending = .chan w :: rest →
    (w.extractLsb' 38 3 = 1 ∨ w.extractLsb' 38 3 = 3 ∨ w.extractLsb' 38 3 = 4 ∨ w.extractLsb' 38 3 = 6) →
    step s = .refused .undefinedTransaction) ∧
  (∀ (s : State) (w : ChanReq) (rest : List HostEvent), s.pending = .chan w :: rest →
    (w.extractLsb' 38 3 = 0 ∧ w.extractLsb' 0 32 ≠ 0) ∨
      ((w.extractLsb' 38 3 = 2 ∨ w.extractLsb' 38 3 = 7) ∧ (w.extractLsb' 32 6 ≠ 0 ∨ w.extractLsb' 0 32 ≠ 0)) →
    step s = .refused .undefinedTransaction)

/-- O28. Mixed widths: a write of `n` bits leaves the bits that `n` one-bit writes leave; a read of `n` bits that
succeeds returns the bits that `n` one-bit reads return, and leaves the same cursor. -/
def Obligations.OnlyTheBitSequenceMatters : Prop :=
  (∀ (s : State) (n : Nat) (v : Word), n ≤ 32 → s.out.closed = false →
    (s.writeBits n v).out = ((msbFirst (v.setWidth n)).foldl State.writeBit s).out) ∧
  (∀ (s : State) (n : Nat), n ≤ 32 → s.canRead n = true →
    (s.afterRead n).inp = ((fun u => State.afterRead u 1)^[n] s).inp ∧
    ∀ (v : Word) (k : Nat), k < n → s.peek n = some v →
      ((fun u => State.afterRead u 1)^[k] s).peek 1 = some (if v.getLsbD (n - 1 - k) then 1 else 0))

/-! ### Stream tokens -/

/-- O29. The five tokens where the compressor writes them (the meaning of a token by its place is the model's, log 10):
each appends its bits to `OUT` and changes nothing else but the log of transactions. A codeword in `ENCODE` is that of any
symbol with a code, in `WR_EOF` the table entry of any symbol, the model's choice (log 26); that `WR_TREE` writes `I`, and `L(v)` of any nine-bit
`v`, whatever is on the stack, is its choice too (log 27). -/
def Obligations.TokensAreWritten : Prop :=
  ∀ s : State, s.out.closed = false →
    (s.phase = .wrMagic → ∃ t, exec .tokMagic s = .next t ∧ t.out.bits = s.out.bits ++ msbFirst s.cfg.magic ∧
      t.out.closed = false ∧ { t with out := s.out, chanLog := s.chanLog } = s) ∧
    (s.phase = .wrTree → ∃ t, exec .tokI s = .next t ∧ t.out.bits = s.out.bits ++ [false] ∧
      t.out.closed = false ∧ { t with out := s.out, chanLog := s.chanLog } = s) ∧
    (∀ v : Sym, s.phase = .wrTree → ∃ t, exec (.tokL v) s = .next t ∧ t.out.bits = s.out.bits ++ true :: msbFirst v ∧
      t.out.closed = false ∧ { t with out := s.out, chanLog := s.chanLog } = s) ∧
    (∀ v : Sym, v.toNat ≤ 256 → (s.phase = .encode ∧ (s.codeAt v.toNat).valid = true) ∨ s.phase = .wrEof →
      ∃ t, exec (.tokC v) s = .next t ∧ t.out.bits = s.out.bits ++ (s.codeAt v.toNat).stream ∧
      t.out.closed = false ∧ { t with out := s.out, chanLog := s.chanLog } = s) ∧
    (∀ p : BitVec 3, s.phase = .close → p.toNat = (8 - s.out.bits.length % 8) % 8 →
      ∃ t, exec (.tokPad p) s = .next t ∧ t.out.bits = s.out.bits ++ List.replicate p.toNat s.cfg.padBit ∧
      t.out.closed = false ∧ { t with out := s.out } = s)

/-- O30. A magic or tree token that stands at the cursor of `IN` in its reading phase has the effect of that phase's
step; one that does not stand there, or a phase that neither reads nor writes it, moves nothing. The same of a codeword in
`DECODE`, which is read from the root (`CodewordIsRead` says how; at a leaf root by one `DECODE` step); in `ENCODE` one
without a code is `E_NO_CODE`; an ill-formed one, of a symbol above 256, stops. A padding token moves nothing but in `CLOSE`
with its own length and an open `OUT`. All of this is the model's reading (log 10; the stop: log 14). -/
def Obligations.TokensAreRead : Prop :=
  ∀ s : State,
    (s.phase = .rdMagic → s.Offers s.cfg.magic → exec .tokMagic s = exec .phaseRdMagic s) ∧
    (s.phase = .rdTree → s.Offers 0#1 → exec .tokI s = exec .phaseRdTree s) ∧
    (∀ v : Sym, s.phase = .rdTree → s.Offers (1#1 ++ v) → exec (.tokL v) s = exec .phaseRdTree s) ∧
    (s.phase ≠ .wrMagic → ¬ (s.phase = .rdMagic ∧ s.Offers s.cfg.magic) → exec .tokMagic s = .next s) ∧
    (s.phase ≠ .wrTree → ¬ (s.phase = .rdTree ∧ s.Offers 0#1) → exec .tokI s = .next s) ∧
    (∀ v : Sym, s.phase ≠ .wrTree → ¬ (s.phase = .rdTree ∧ s.Offers (1#1 ++ v)) → exec (.tokL v) s = .next s) ∧
    (∀ v : Sym, v.toNat ≤ 256 →
      (s.phase ≠ .encode → s.phase ≠ .wrEof → s.phase ≠ .decode → exec (.tokC v) s = .next s) ∧
      (s.phase = .encode → (s.codeAt v.toNat).valid = false →
        exec (.tokC v) s = .next { s with errcode := .noCode, phase := .fault }) ∧
      (s.phase = .decode → s.cur ≠ s.root → exec (.tokC v) s = .next s) ∧
      (∀ (fuel : Nat) (t : Sys2Proof.Tree), s.phase = .decode → s.treeAt fuel s.root = some t →
        (∀ rest, t.walk? s.unread ≠ some (v, rest)) → exec (.tokC v) s = .next s) ∧
      (s.phase = .decode → s.cur = s.root → (s.nodeAt s.root).leaf = true → (s.nodeAt s.root).sym = v →
        exec (.tokC v) s = exec .phaseDecode s)) ∧
    (∀ v : Sym, 256 < v.toNat → exec (.tokC v) s = .fault (.codeIndex v.toNat)) ∧
    (∀ p : BitVec 3, s.phase ≠ .close ∨ s.out.closed = true ∨ p.toNat ≠ (8 - s.out.bits.length % 8) % 8 →
      exec (.tokPad p) s = .next s)

/-- O31. A codeword at the cursor of `IN`, the walk at the root of a tree that is no leaf: its bits are consumed; a
literal symbol's byte is appended to `OUT` and the walk is at the root again; the pseudo-EOF closes `OUT` and ends the
operation. That a codeword as an instruction runs the `DECODE` steps of its bits is the model's inference (log 10). -/
def Obligations.CodewordIsRead : Prop :=
  ∀ (s : State) (l r : Sys2Proof.Tree) (fuel : Nat) (v : Sym) (rest : List Bool),
    s.phase = .decode → s.cur = s.root → s.nnodes ≤ s.cfg.nodeCap → s.out.closed = false →
    s.treeAt fuel s.root = some (.node l r) → s.inp.eod = false →
    (Sys2Proof.Tree.node l r).walk? (s.inp.bits.drop s.inp.pos) = some (v, rest) → v.toNat ≤ 256 →
    ∃ t, exec (.tokC v) s = .next t ∧ t.inp.bits.drop t.inp.pos = rest ∧
      (v.toNat < 256 → t.phase = .decode ∧ t.cur = t.root ∧ t.out.closed = false ∧
        t.out.bits = s.out.bits ++ msbFirst (v.setWidth 8)) ∧
      (v.toNat = 256 → t.phase = .done ∧ t.out = s.closedOut) ∧
      { t with inp := s.inp, out := s.out, cur := s.cur, phase := s.phase, chanLog := s.chanLog } = s

/-! ### The sequencer, phase by phase -/

/-- O32. `COUNT`: one byte counted; the input too long; the end of the input. The premise `FREQ[i] <= NSYM` is R123's;
`SoundStateNeverStops` states that it holds in every run. -/
def Obligations.CountStep : Prop :=
  ∀ s : State, s.Inv → (∀ i, s.freqAt i ≤ s.nsym) →
    (∀ r : Byte, s.Offers r → s.nsym ≠ s.cfg.maxInput →
      ∃ t, exec .phaseCount s = .next t ∧ t.freqAt r.toNat = s.freqAt r.toNat + 1 ∧
        (∀ i, i ≠ r.toNat → t.freqAt i = s.freqAt i) ∧ t.nsym = s.nsym + 1 ∧ t.inp = s.inp.advanced 8 ∧
        { t with freq := s.freq, nsym := s.nsym, inp := s.inp, chanLog := s.chanLog } = s) ∧
    (∀ r : Byte, s.Offers r → s.nsym = s.cfg.maxInput →
      ∃ t, exec .phaseCount s = .next t ∧ t.errcode = .countOvf ∧ t.phase = .fault ∧ t.inp = s.inp.advanced 8 ∧
        { t with errcode := s.errcode, phase := s.phase, inp := s.inp, chanLog := s.chanLog } = s) ∧
    (s.Exhausted 8 →
      ∃ t, exec .phaseCount s = .next t ∧ t.freqAt 256 = 1 ∧ (∀ i, i ≠ 256 → t.freqAt i = s.freqAt i) ∧ t.scan = 0 ∧
        t.phase = .buildInit ∧ t.inp = s.inp.drained ∧
        { t with freq := s.freq, scan := s.scan, phase := s.phase, inp := s.inp, chanLog := s.chanLog } = s)

/-- O33. `BUILD_INIT`: symbol `SCAN` gets a leaf if its count is not 0; then the next symbol, or `BUILD_MERGE`. -/
def Obligations.BuildInitStep : Prop :=
  ∀ s : State, s.Inv →
    (s.freqAt s.scan.toNat = 0 → s.scan ≠ eofSym → exec .phaseBuildInit s = .next { s with scan := s.scan + 1 }) ∧
    (s.freqAt s.scan.toNat = 0 → s.scan = eofSym → exec .phaseBuildInit s = .next { s with phase := .buildMerge }) ∧
    (s.freqAt s.scan.toNat ≠ 0 → s.nnodes < s.cfg.nodeCap →
      ∃ t, exec .phaseBuildInit s = .next t ∧
        t.nodeAt s.nnodes = { leaf := true, sym := s.scan, weight := s.freqAt s.scan.toNat, left := s.cfg.nil,
                              right := s.cfg.nil } ∧
        (∀ i, i ≠ s.nnodes → t.nodeAt i = s.nodeAt i) ∧
        t.liveAt s.nnodes = true ∧ (∀ i, i ≠ s.nnodes → t.liveAt i = s.liveAt i) ∧ t.nnodes = s.nnodes + 1 ∧
        t.scan = (if s.scan = eofSym then eofSym else s.scan + 1) ∧
        t.phase = (if s.scan = eofSym then .buildMerge else s.phase) ∧
        { t with node := s.node, live := s.live, nnodes := s.nnodes, scan := s.scan, phase := s.phase } = s)

/-- O34. `minlive()` is the live node least in `TIE_ORDER`, and exists when a node is live. Every `TIE_ORDER` is a total
order that refines ascending weight (R131); the default, number 0 (log 1), is least weight first and least index among equal
weights. -/
def Obligations.MinliveIsTheLeastLiveNode : Prop :=
  ∀ s : State, Memory.wf false s.live = true →
    (∀ i, s.minlive = some i ↔ s.liveAt i = true ∧ ∀ j, s.liveAt j = true → j ≠ i → s.before i j = true) ∧
    (s.minlive = none ↔ ∀ i, s.liveAt i = false) ∧
    (∀ i, s.before i i = false) ∧ (∀ i j, i ≠ j → (s.before i j = true ↔ s.before j i = false)) ∧
    (∀ i j k, s.before i j = true → s.before j k = true → s.before i k = true) ∧
    (∀ i j, (s.nodeAt i).weight < (s.nodeAt j).weight → s.before i j = true) ∧
    (s.cfg.tieOrder = 0 → ∀ i j, s.before i j = true ↔
      (s.nodeAt i).weight < (s.nodeAt j).weight ∨ ((s.nodeAt i).weight = (s.nodeAt j).weight ∧ i < j))

/-- O35. `BUILD_MERGE`: with one live node `r`, the tree is finished; with the two least live nodes `a`, then `b`, they
become the left and the right child of a new node. The premise on the weights is R138's. -/
def Obligations.BuildMergeStep : Prop :=
  ∀ s : State, s.Inv →
    (∀ r, s.liveAt r = true → (∀ i, i ≠ r → s.liveAt i = false) →
      ∃ t, exec .phaseBuildMerge s = .next t ∧ t.root = r ∧ (∀ i, t.liveAt i = false) ∧
        t.stkAt 0 = { node := r, side := false, len := 0, val := 0 } ∧ (∀ i, i ≠ 0 → t.stkAt i = s.stkAt i) ∧
        t.sp = 1 ∧ t.phase = .derive ∧
        { t with root := s.root, live := s.live, stk := s.stk, sp := s.sp, phase := s.phase } = s) ∧
    (∀ a b, s.liveAt a = true → s.liveAt b = true → a ≠ b →
      (∀ j, s.liveAt j = true → j ≠ a → s.before a j = true) →
      (∀ j, s.liveAt j = true → j ≠ a → j ≠ b → s.before b j = true) →
      (s.nodeAt a).weight + (s.nodeAt b).weight < 2 ^ s.cfg.cntW → s.nnodes < s.cfg.nodeCap →
      ∃ t, exec .phaseBuildMerge s = .next t ∧
        t.nodeAt s.nnodes = { leaf := false, sym := 0, weight := (s.nodeAt a).weight + (s.nodeAt b).weight, left := a,
                              right := b } ∧
        (∀ i, i ≠ s.nnodes → t.nodeAt i = s.nodeAt i) ∧
        t.liveAt s.nnodes = true ∧ (a ≠ s.nnodes → t.liveAt a = false) ∧ (b ≠ s.nnodes → t.liveAt b = false) ∧
        (∀ i, i ≠ s.nnodes → i ≠ a → i ≠ b → t.liveAt i = s.liveAt i) ∧ t.nnodes = s.nnodes + 1 ∧
        { t with node := s.node, live := s.live, nnodes := s.nnodes } = s)

/-- O36. `DERIVE`: the stack is empty; the node on top is a leaf, whose code is its path; it is an internal node, whose
children are pushed, the left one on top, each one edge further. -/
def Obligations.DeriveStep : Prop :=
  ∀ s : State, s.Inv →
    (s.sp = 0 → exec .phaseDerive s = .next { s with phase := .wrMagic }) ∧
    (∀ k, s.sp = k + 1 → (s.stkAt k).node < s.cfg.nodeCap → (s.nodeAt (s.stkAt k).node).leaf = true →
      (s.nodeAt (s.stkAt k).node).sym.toNat ≤ 256 →
      ∃ t, exec .phaseDerive s = .next t ∧ t.sp = k ∧
        t.codeAt (s.nodeAt (s.stkAt k).node).sym.toNat
          = { valid := true, len := (s.stkAt k).len, val := (s.stkAt k).val } ∧
        (∀ i, i ≠ (s.nodeAt (s.stkAt k).node).sym.toNat → t.codeAt i = s.codeAt i) ∧
        { t with code := s.code, sp := s.sp } = s) ∧
    (∀ k, s.sp = k + 1 → (s.stkAt k).node < s.cfg.nodeCap → (s.nodeAt (s.stkAt k).node).leaf = false →
      k + 1 < s.cfg.stackCap →
      ∃ t, exec .phaseDerive s = .next t ∧ t.sp = k + 2 ∧
        t.stkAt k = { node := (s.nodeAt (s.stkAt k).node).right, side := false, len := (s.stkAt k).len + 1,
                      val := 2 * (s.stkAt k).val + 1 } ∧
        t.stkAt (k + 1) = { node := (s.nodeAt (s.stkAt k).node).left, side := false, len := (s.stkAt k).len + 1,
                            val := 2 * (s.stkAt k).val } ∧
        (∀ i, i ≠ k → i ≠ k + 1 → t.stkAt i = s.stkAt i) ∧ { t with stk := s.stk, sp := s.sp } = s)

/-- O37. `WR_MAGIC`: the 32 bits of `MAGIC` are appended and the traversal starts at the root. -/
def Obligations.WrMagicStep : Prop :=
  ∀ s : State, s.Inv → s.out.closed = false →
    ∃ t, exec .phaseWrMagic s = .next t ∧ t.out.bits = s.out.bits ++ msbFirst s.cfg.magic ∧ t.out.closed = false ∧
      t.stkAt 0 = { node := s.root, side := false, len := 0, val := 0 } ∧ (∀ i, i ≠ 0 → t.stkAt i = s.stkAt i) ∧
      t.sp = 1 ∧ t.phase = .wrTree ∧
      { t with out := s.out, chanLog := s.chanLog, stk := s.stk, sp := s.sp, phase := s.phase } = s

/-- O38. `WR_TREE`: the stack is empty; the node on top is a leaf, whose token is written; it is an internal node, whose
token is written and whose children are pushed, the left one on top. -/
def Obligations.WrTreeStep : Prop :=
  ∀ s : State, s.Inv → s.out.closed = false →
    (s.sp = 0 → exec .phaseWrTree s = .next { s with phase := .rewind }) ∧
    (∀ k, s.sp = k + 1 → (s.stkAt k).node < s.cfg.nodeCap → (s.nodeAt (s.stkAt k).node).leaf = true →
      ∃ t, exec .phaseWrTree s = .next t ∧ t.sp = k ∧ t.out.closed = false ∧
        t.out.bits = s.out.bits ++ true :: msbFirst (s.nodeAt (s.stkAt k).node).sym ∧
        { t with out := s.out, chanLog := s.chanLog, sp := s.sp } = s) ∧
    (∀ k, s.sp = k + 1 → (s.stkAt k).node < s.cfg.nodeCap → (s.nodeAt (s.stkAt k).node).leaf = false →
      k + 1 < s.cfg.stackCap →
      ∃ t, exec .phaseWrTree s = .next t ∧ t.sp = k + 2 ∧ t.out.closed = false ∧ t.out.bits = s.out.bits ++ [false] ∧
        t.stkAt k = { s.stkAt k with node := (s.nodeAt (s.stkAt k).node).right } ∧
        t.stkAt (k + 1) = { s.stkAt (k + 1) with node := (s.nodeAt (s.stkAt k).node).left } ∧
        (∀ i, i ≠ k → i ≠ k + 1 → t.stkAt i = s.stkAt i) ∧
        { t with out := s.out, chanLog := s.chanLog, stk := s.stk, sp := s.sp } = s)

/-- O39. `REWIND`: `IN` is at its start again, and `ENCODE` follows. -/
def Obligations.RewindStep : Prop :=
  ∀ s : State, ∃ t, exec .phaseRewind s = .next t ∧ t.inp = { bits := s.inp.bits, pos := 0, eod := false } ∧
    t.phase = .encode ∧ { t with inp := s.inp, phase := s.phase, chanLog := s.chanLog } = s

/-- O40. `ENCODE`: the code of the byte read is appended; the byte has no code; the end of the input. -/
def Obligations.EncodeStep : Prop :=
  ∀ s : State, s.out.closed = false →
    (∀ r : Byte, s.Offers r → (s.codeAt r.toNat).valid = true →
      ∃ t, exec .phaseEncode s = .next t ∧ t.out.bits = s.out.bits ++ (s.codeAt r.toNat).stream ∧
        t.out.closed = false ∧ t.inp = s.inp.advanced 8 ∧
        { t with out := s.out, inp := s.inp, chanLog := s.chanLog } = s) ∧
    (∀ r : Byte, s.Offers r → (s.codeAt r.toNat).valid = false →
      ∃ t, exec .phaseEncode s = .next t ∧ t.errcode = .noCode ∧ t.phase = .fault ∧ t.inp = s.inp.advanced 8 ∧
        { t with errcode := s.errcode, phase := s.phase, inp := s.inp, chanLog := s.chanLog } = s) ∧
    (s.Exhausted 8 →
      ∃ t, exec .phaseEncode s = .next t ∧ t.phase = .wrEof ∧ t.inp = s.inp.drained ∧
        { t with phase := s.phase, inp := s.inp, chanLog := s.chanLog } = s)

/-- O41. `emit(c)`: the bits of the code, root edge first, one transaction each; none for an empty code. -/
def Obligations.EmitWritesOneBitPerTransaction : Prop :=
  ∀ (s : State) (c : CodeEntry), s.out.closed = false →
    (s.emit c).out = { s.out with bits := s.out.bits ++ c.stream } ∧
    (s.emit c).chanLog = (c.stream.map fun b =>
      (encodeChan (.outWrite 1 (if b then 1 else 0)), chanResponse false 0)).reverse ++ s.chanLog ∧
    (c.len = 0 → s.emit c = s) ∧ { s.emit c with out := s.out, chanLog := s.chanLog } = s

/-- O42. `WR_EOF`: the code of the pseudo-EOF symbol is appended, and `CLOSE` follows. -/
def Obligations.WrEofStep : Prop :=
  ∀ s : State, s.out.closed = false →
    ∃ t, exec .phaseWrEof s = .next t ∧ t.out.bits = s.out.bits ++ (s.codeAt 256).stream ∧ t.out.closed = false ∧
      t.phase = .close ∧ { t with out := s.out, phase := s.phase, chanLog := s.chanLog } = s

/-- O43. `CLOSE`: `OUT` is padded and closed; `BUSY` falls and `DONE` rises. -/
def Obligations.CloseStep : Prop :=
  ∀ s : State, s.out.closed = false →
    ∃ t, exec .phaseClose s = .next t ∧ t.out = s.closedOut ∧ t.phase = .done ∧ t.busy = false ∧ t.done = true ∧
      { t with out := s.out, phase := s.phase, chanLog := s.chanLog } = s

/-- O44. `RD_MAGIC`: the magic is there; other 32 bits are there; fewer than 32 bits are there. -/
def Obligations.RdMagicStep : Prop :=
  ∀ s : State,
    (s.Offers s.cfg.magic →
      ∃ t, exec .phaseRdMagic s = .next t ∧ t.sp = 0 ∧ t.phase = .rdTree ∧ t.inp = s.inp.advanced 32 ∧
        { t with sp := s.sp, phase := s.phase, inp := s.inp, chanLog := s.chanLog } = s) ∧
    (∀ v : Word, s.Offers v → v ≠ s.cfg.magic →
      ∃ t, exec .phaseRdMagic s = .next t ∧ t.errcode = .format ∧ t.phase = .fault ∧ t.inp = s.inp.advanced 32 ∧
        { t with errcode := s.errcode, phase := s.phase, inp := s.inp, chanLog := s.chanLog } = s) ∧
    (s.Exhausted 32 →
      ∃ t, exec .phaseRdMagic s = .next t ∧ t.errcode = .format ∧ t.phase = .fault ∧ t.inp = s.inp.drained ∧
        { t with errcode := s.errcode, phase := s.phase, inp := s.inp, chanLog := s.chanLog } = s)

/-- O45. `RD_TREE` on a full memory, on a stream that ends, and on a token `I`. The premise `SP <= NNODES` is R168's. -/
def Obligations.RdTreeStep : Prop :=
  ∀ s : State, s.Inv → s.sp ≤ s.nnodes →
    (s.nnodes = s.cfg.nodeCap → exec .phaseRdTree s = .next { s with errcode := .treeOvf, phase := .fault }) ∧
    (s.nnodes ≠ s.cfg.nodeCap → s.Exhausted 1 ∨ (s.Offers 1#1 ∧ s.Exhausted 10) →
      ∃ t, exec .phaseRdTree s = .next t ∧ t.errcode = .header ∧ t.phase = .fault ∧ t.inp = s.inp.drained ∧
        { t with errcode := s.errcode, phase := s.phase, inp := s.inp, chanLog := s.chanLog } = s) ∧
    (s.nnodes ≠ s.cfg.nodeCap → s.Offers 0#1 →
      ∃ t, exec .phaseRdTree s = .next t ∧
        t.nodeAt s.nnodes = { leaf := false, sym := 0, weight := 0, left := s.cfg.nil, right := s.cfg.nil } ∧
        (∀ i, i ≠ s.nnodes → t.nodeAt i = s.nodeAt i) ∧
        t.stkAt s.sp = { node := s.nnodes, side := false, len := 0, val := 0 } ∧
        (∀ i, i ≠ s.sp → t.stkAt i = s.stkAt i) ∧ t.sp = s.sp + 1 ∧ t.nnodes = s.nnodes + 1 ∧
        t.inp = s.inp.advanced 1 ∧
        { t with node := s.node, stk := s.stk, sp := s.sp, nnodes := s.nnodes, inp := s.inp, chanLog := s.chanLog } = s)

/-- O46. `RD_TREE` on a token `L(v)`. The `m` topmost waiting nodes wait for their right child: each gets it and is
popped, the first of them the new leaf, every other the node popped before. Then the node on top, which waits for its
left child, gets it; or the stack is empty and the tree is done. The premises on the stack are R165's and R168's. -/
def Obligations.RdTreeLeafStep : Prop :=
  ∀ (s : State) (v : Sym) (m : Nat), s.Inv → s.nnodes ≠ s.cfg.nodeCap → s.Offers (1#1 ++ v) →
    (∀ j, j < s.sp → (s.stkAt j).node < s.nnodes) →
    (∀ j j', j < s.sp → j' < s.sp → (s.stkAt j).node = (s.stkAt j').node → j = j') → m ≤ s.sp →
    (∀ i, i < m → (s.stkAt (s.sp - 1 - i)).side = true) → (m < s.sp → (s.stkAt (s.sp - 1 - m)).side = false) →
    let linked : Nat → Nat := fun i => if i = 0 then s.nnodes else (s.stkAt (s.sp - i)).node
    ∃ t, exec .phaseRdTree s = .next t ∧ t.nnodes = s.nnodes + 1 ∧ t.inp = s.inp.advanced 10 ∧
      t.nodeAt s.nnodes = { leaf := true, sym := v, weight := 0, left := s.cfg.nil, right := s.cfg.nil } ∧
      (∀ i, i < m → t.nodeAt (s.stkAt (s.sp - 1 - i)).node
        = { s.nodeAt (s.stkAt (s.sp - 1 - i)).node with right := linked i }) ∧
      (∀ n, n ≠ s.nnodes → (∀ i, i ≤ m → i < s.sp → n ≠ (s.stkAt (s.sp - 1 - i)).node) → t.nodeAt n = s.nodeAt n) ∧
      (m < s.sp → t.nodeAt (s.stkAt (s.sp - 1 - m)).node
          = { s.nodeAt (s.stkAt (s.sp - 1 - m)).node with left := linked m } ∧
        t.stkAt (s.sp - 1 - m) = { s.stkAt (s.sp - 1 - m) with side := true } ∧
        (∀ j, j ≠ s.sp - 1 - m → t.stkAt j = s.stkAt j) ∧ t.sp = s.sp - m ∧
        t.root = s.root ∧ t.cur = s.cur ∧ t.phase = s.phase) ∧
      (m = s.sp → t.sp = 0 ∧ t.stk = s.stk ∧ t.root = linked m ∧ t.cur = linked m ∧ t.phase = .decode) ∧
      { t with node := s.node, nnodes := s.nnodes, stk := s.stk, sp := s.sp, root := s.root, cur := s.cur,
               phase := s.phase, inp := s.inp, chanLog := s.chanLog } = s

/-- O47. `DECODE` on a leaf, which no later step of an operation meets: the pseudo-EOF ends the operation, any other
symbol is an error; no bit is consumed. -/
def Obligations.DecodeLeafRootStep : Prop :=
  ∀ s : State, s.cur < s.cfg.nodeCap → (s.nodeAt s.cur).leaf = true → s.out.closed = false →
    ((s.nodeAt s.cur).sym = eofSym →
      ∃ t, exec .phaseDecode s = .next t ∧ t.out = s.closedOut ∧ t.phase = .done ∧
        { t with out := s.out, phase := s.phase, chanLog := s.chanLog } = s) ∧
    ((s.nodeAt s.cur).sym ≠ eofSym → exec .phaseDecode s = .next { s with errcode := .leafRoot, phase := .fault })

/-- O48. `DECODE` on an internal node: the stream ends; a bit moves the walk to a child, 0 left and 1 right; on a leaf a
literal byte is written and the walk returns to the root, the pseudo-EOF ends the operation, a reserved symbol is an
error. -/
def Obligations.DecodeStep : Prop :=
  ∀ s : State, s.cur < s.cfg.nodeCap → (s.nodeAt s.cur).leaf = false → s.out.closed = false →
    (s.Exhausted 1 →
      ∃ t, exec .phaseDecode s = .next t ∧ t.errcode = .trunc ∧ t.phase = .fault ∧ t.inp = s.inp.drained ∧
        { t with errcode := s.errcode, phase := s.phase, inp := s.inp, chanLog := s.chanLog } = s) ∧
    (∀ (b : BitVec 1) (c : Nat), s.Offers b →
      c = (if b = 0 then (s.nodeAt s.cur).left else (s.nodeAt s.cur).right) → c < s.cfg.nodeCap →
      ∃ t, exec .phaseDecode s = .next t ∧ t.inp = s.inp.advanced 1 ∧
        ((s.nodeAt c).leaf = false → t.cur = c ∧ { t with cur := s.cur, inp := s.inp, chanLog := s.chanLog } = s) ∧
        ((s.nodeAt c).leaf = true → (s.nodeAt c).sym.toNat < 256 → t.cur = s.root ∧
          t.out = { s.out with bits := s.out.bits ++ msbFirst ((s.nodeAt c).sym.setWidth 8) } ∧
          { t with cur := s.cur, out := s.out, inp := s.inp, chanLog := s.chanLog } = s) ∧
        ((s.nodeAt c).leaf = true → (s.nodeAt c).sym = eofSym → t.cur = c ∧ t.out = s.closedOut ∧ t.phase = .done ∧
          { t with cur := s.cur, out := s.out, phase := s.phase, inp := s.inp, chanLog := s.chanLog } = s) ∧
        ((s.nodeAt c).leaf = true → 256 < (s.nodeAt c).sym.toNat → t.cur = c ∧ t.errcode = .symRange ∧
          t.phase = .fault ∧
          { t with cur := s.cur, errcode := s.errcode, phase := s.phase, inp := s.inp, chanLog := s.chanLog } = s))

/-- O49. In `IDLE`, `DONE` and `FAULT` the sequencer changes nothing and issues no transaction (that its slot then
leaves the state as it is, is the model's reading, log 9). -/
def Obligations.RestingPhases : Prop :=
  ∀ s : State, exec .phaseIdle s = .next s ∧ exec .phaseDone s = .next s ∧ exec .phaseFault s = .next s ∧
    (s.pending = [] → s.phase = .idle ∨ s.phase = .done ∨ s.phase = .fault → step s = .next s)

/-! ### Rules of the whole machine -/

/-- O50. An error: the step of a phase that enters `FAULT` records one of the errors of that phase; it writes nothing to
`OUT`; and nothing but the code, `PHASE`, the input it read and the walk's position changes. -/
def Obligations.ErrorsByPhase : Prop :=
  ∀ s t : State, s.phase ≠ .fault → exec (phaseInstr s.phase) s = .next t → t.phase = .fault →
    t.errcode ∈ s.phase.errors ∧
    { t with errcode := s.errcode, phase := s.phase, inp := s.inp, cur := s.cur, chanLog := s.chanLog } = s

/-- O51. The phase order: by its own step a phase goes to itself or to the next phase of its operation, or from a busy
phase to `FAULT`. -/
def Obligations.PhaseOrder : Prop :=
  ∀ s t : State, exec (phaseInstr s.phase) s = .next t →
    t.phase ∈ s.phase.after ∨ (s.busy = true ∧ t.phase = .fault)

/-- O52. Every transaction a phase's step issues is one that the table of R73 gives the phase; and no other. -/
def Obligations.TransactionsByPhase : Prop :=
  ∀ s t : State, exec (phaseInstr s.phase) s = .next t →
    ∃ ws : List ChanReq, s.phase.issues s.cfg ws ∧ t.chanLog.map (·.1) = ws.reverse ++ s.chanLog.map (·.1)

/-- O53. The sequencer never writes the contents of `IN`, never takes a written bit of an open `OUT` back, and never
moves the cursor back but in `REWIND`. -/
def Obligations.StreamsKeepTheirBits : Prop :=
  ∀ s t : State, s.inp.pos ≤ s.inp.bits.length → exec (phaseInstr s.phase) s = .next t →
    t.inp.bits = s.inp.bits ∧ (s.out.closed = false → s.out.bits <+: t.out.bits) ∧
    (s.phase ≠ .rewind → s.inp.pos ≤ t.inp.pos)

/-- O54. Which phases write which register and which memory (the `written by` columns). `MODE`, the configuration and
the host's own lists are written by none. -/
def Obligations.WrittenByPhase : Prop :=
  ∀ s t : State, exec (phaseInstr s.phase) s = .next t →
    (t.nsym ≠ s.nsym → s.phase = .count) ∧
    (t.nnodes ≠ s.nnodes → s.phase ∈ [Phase.buildInit, .buildMerge, .rdTree]) ∧
    (t.root ≠ s.root → s.phase ∈ [Phase.buildMerge, .rdTree]) ∧
    (t.cur ≠ s.cur → s.phase ∈ [Phase.rdTree, .decode]) ∧
    (t.sp ≠ s.sp → s.phase ∈ [Phase.buildMerge, .derive, .wrMagic, .wrTree, .rdMagic, .rdTree]) ∧
    (t.scan ≠ s.scan → s.phase ∈ [Phase.count, .buildInit]) ∧
    (t.freq ≠ s.freq → s.phase = .count) ∧
    (t.node ≠ s.node → s.phase ∈ [Phase.buildInit, .buildMerge, .rdTree]) ∧
    (t.live ≠ s.live → s.phase ∈ [Phase.buildInit, .buildMerge]) ∧
    (t.code ≠ s.code → s.phase = .derive) ∧
    (t.stk ≠ s.stk → s.phase ∈ [Phase.buildMerge, .derive, .wrMagic, .wrTree, .rdTree]) ∧
    t.mode = s.mode ∧ t.cfg = s.cfg ∧ t.pending = s.pending ∧ t.hostReads = s.hostReads

/-! ### Invariants -/

/-- O55. Every step, the host's acts and resets among them, keeps the invariant: memories in canonical form and inside
their bounds, registers inside their widths, the error code non-zero exactly in `FAULT`, `MODE` that of the running
operation, the cursor inside `IN`. -/
def Obligations.StepKeepsInvariant : Prop := ∀ s t : State, s.Inv → step s = .next t → t.Inv

/-- O56. The state after reset meets both invariants. -/
def Obligations.ResetMeetsInvariants : Prop := State.reset.Inv ∧ State.reset.Sound

/-- O57. A state in which an operation may be running never stops: the step answers a next state, and that state is again
such a state. No busy phase is stuck, and no model fault is reached. -/
def Obligations.SoundStateNeverStops : Prop := ∀ s : State, s.Sound → ∃ t, step s = .next t ∧ t.Sound

/-! ### Whole operations -/

/-- O58. `COUNT` refines `count(S)` in exactly `N + 1` steps: after `N` steps `PHASE` is still `COUNT`, and the next one
leaves it with the table of `count(S)`. -/
def Obligations.CountPhaseRefines : Prop :=
  ∀ (s : State) (input : List Byte), s.Inv → s.pending = [] → s.phase = .count → (∀ i, s.freqAt i = 0) → s.nsym = 0 →
    s.inp = { bits := bytesToBits input, pos := 0, eod := false } → input.length ≤ s.cfg.maxInput →
    ∃ u t, runSteps input.length s = .next u ∧ u.phase = .count ∧ step u = .next t ∧
      runSteps (input.length + 1) s = .next t ∧ (∀ i, t.freqAt i = Contract.count input i) ∧
      t.nsym = input.length ∧ t.scan = 0 ∧ t.phase = .buildInit

/-- O59. A compress of `S` reaches `DONE` in `2 N + 5 L + 263` steps and not before, with the stream of `compress(S)` in
a closed `OUT`. -/
def Obligations.CompressRefines : Prop :=
  ∀ (s : State) (input : List Byte) (leaves : Nat), s.Inv → s.pending = [] → s.phase = .idle ∨ s.phase = .done →
    s.inp = { bits := bytesToBits input, pos := 0, eod := false } → s.out = { bits := [], closed := false } →
    input.length ≤ s.cfg.maxInput →
    leaves = ((List.range 257).filter fun i => decide (Contract.count input i ≠ 0)).length →
    ∃ u v t, exec .compress s = .next u ∧ runSteps (2 * input.length + 5 * leaves + 262) u = .next v ∧ v.phase = .close ∧
      step v = .next t ∧ t.phase = .done ∧ t.errcode = .none ∧ t.nsym = input.length ∧ t.nnodes = 2 * leaves - 1 ∧
      t.out.closed = true ∧ some t.out.bits = Contract.compress s.cfg input

/-- O60. A decompress ends within `len(bits) + 2` steps with the outcome and the output bytes of `decompress(bits)`;
`OUT` is closed exactly when the outcome is `DONE`. -/
def Obligations.DecompressRefines : Prop :=
  ∀ (s : State) (bits : List Bool), s.Inv → s.pending = [] → s.phase = .idle ∨ s.phase = .done →
    s.inp = { bits := bits, pos := 0, eod := false } → s.out = { bits := [], closed := false } →
    ∃ u t k, exec .decompress s = .next u ∧ k ≤ bits.length + 2 ∧ runSteps k u = .next t ∧
      t.errcode = (Contract.decompress s.cfg bits).1 ∧
      t.phase = (if (Contract.decompress s.cfg bits).1 = .none then .done else .fault) ∧
      t.out.closed = decide (t.phase = .done) ∧ t.out.bits = bytesToBits (Contract.decompress s.cfg bits).2

end
end

