-- ==== Sys2Proof/Laws/Memory.lean ====
section
/-! SUPPORT. The laws of indexed memories: a read after a write, and that every operation keeps the canonical form. -/

namespace Sys2Proof.Machine.Memory

variable {α : Type} (d : α)

@[simp] theorem read_nil (i : Nat) : read d [] i = d := rfl

theorem read_cons (j : Nat) (u : α) (m : List (Nat × α)) (i : Nat) :
    read d ((j, u) :: m) i = if i = j then u else read d m i := rfl

/-- A write leaves every other entry alone. -/
theorem read_write_other [DecidableEq α] (m : List (Nat × α)) {i j : Nat} (v : α) (h : j ≠ i) :
    read d (write d m i v) j = read d m j := by
  induction m with
  | nil => by_cases hv : v = d <;> simp [write, read, hv, h]
  | cons e m ih =>
    obtain ⟨k, u⟩ := e
    simp only [write]
    split
    · by_cases hv : v = d <;> simp [hv, read, h]
    · split
      · rename_i _ hik
        subst hik
        by_cases hv : v = d <;> simp [hv, read, h]
      · simp [read, ih]

/-- The tail of a memory in canonical form is in canonical form. -/
theorem wf_tail [DecidableEq α] {e : Nat × α} {m : List (Nat × α)} (h : wf d (e :: m) = true) : wf d m = true := by
  cases m with
  | nil => rfl
  | cons f m =>
    obtain ⟨i, v⟩ := e
    obtain ⟨j, u⟩ := f
    simp [wf] at h
    exact h.2

/-- No index at or below a bound under all listed indices is listed. -/
theorem read_eq_default [DecidableEq α] {m : List (Nat × α)} {i : Nat} (h : ∀ e ∈ m, i ≠ e.1) : read d m i = d := by
  induction m with
  | nil => rfl
  | cons e m ih =>
    obtain ⟨j, u⟩ := e
    rw [read_cons, if_neg (h (j, u) (by simp))]
    exact ih fun e he => h e (by simp [he])

/-- In canonical form the first index is the least. -/
theorem wf_head_lt [DecidableEq α] {j : Nat} {u : α} {m : List (Nat × α)} (h : wf d ((j, u) :: m) = true) :
    ∀ e ∈ m, j < e.1 := by
  induction m generalizing j u with
  | nil => simp
  | cons f m ih =>
    obtain ⟨k, w⟩ := f
    simp [wf] at h
    intro e he
    rcases List.mem_cons.mp he with rfl | he
    · exact h.1.2
    · exact Nat.lt_trans h.1.2 (ih h.2 e he)

/-- In canonical form no entry is the default. -/
theorem wf_ne_default [DecidableEq α] {m : List (Nat × α)} (h : wf d m = true) : ∀ e ∈ m, e.2 ≠ d := by
  induction m with
  | nil => simp
  | cons f m ih =>
    intro e he
    rcases List.mem_cons.mp he with rfl | he
    · cases m with
      | nil => simpa [wf] using h
      | cons g m => obtain ⟨i, v⟩ := e; obtain ⟨j, u⟩ := g; simp [wf] at h; exact h.1.1
    · exact ih (wf_tail d h) e he

/-- Building a canonical memory from its head and its tail. -/
theorem wf_cons [DecidableEq α] {i : Nat} {v : α} {m : List (Nat × α)} (hv : v ≠ d) (hm : wf d m = true)
    (hlt : ∀ e ∈ m, i < e.1) : wf d ((i, v) :: m) = true := by
  cases m with
  | nil => simp [wf, hv]
  | cons e m => obtain ⟨j, u⟩ := e; simp [wf, hv, hm, hlt (j, u) (by simp)]

/-- A read after a write of the same entry gives the value written. -/
theorem read_write_same [DecidableEq α] {m : List (Nat × α)} (h : wf d m = true) (i : Nat) (v : α) :
    read d (write d m i v) i = v := by
  induction m with
  | nil => by_cases hv : v = d <;> simp [write, read, hv]
  | cons e m ih =>
    obtain ⟨k, u⟩ := e
    simp only [write]
    have hlt := wf_head_lt d h
    split
    · rename_i hik
      by_cases hv : v = d
      · simp only [hv, if_true]
        apply read_eq_default
        intro e he
        rcases List.mem_cons.mp he with rfl | he
        · exact Nat.ne_of_lt hik
        · exact Nat.ne_of_lt (Nat.lt_trans hik (hlt e he))
      · simp [hv, read]
    · split
      · rename_i _ hik
        subst hik
        by_cases hv : v = d
        · simp only [hv, if_true]
          exact read_eq_default d fun e he => Nat.ne_of_lt (hlt e he)
        · simp [hv, read]
      · rename_i _ hik
        rw [read_cons, if_neg hik]
        exact ih (wf_tail d h)

/-- A read after a write, in one law. -/
theorem read_write [DecidableEq α] {m : List (Nat × α)} (h : wf d m = true) (i j : Nat) (v : α) :
    read d (write d m i v) j = if j = i then v else read d m j := by
  by_cases hj : j = i
  · subst hj; simp [read_write_same d h]
  · simp [hj, read_write_other d m v hj]

/-- The indices of a write are the old ones and the one written. -/
theorem mem_write [DecidableEq α] {m : List (Nat × α)} {i : Nat} {v : α} {e : Nat × α} (h : e ∈ write d m i v) :
    e ∈ m ∨ e = (i, v) := by
  induction m with
  | nil =>
    by_cases hv : v = d <;> simp [write, hv] at h
    exact .inr h
  | cons f m ih =>
    obtain ⟨k, u⟩ := f
    simp only [write] at h
    split at h
    · by_cases hv : v = d <;> simp [hv] at h ⊢ <;> tauto
    · split at h
      · by_cases hv : v = d <;> simp [hv] at h ⊢ <;> tauto
      · rcases List.mem_cons.mp h with rfl | h
        · exact .inl (by simp)
        · rcases ih h with h | h
          · exact .inl (by simp [h])
          · exact .inr h

/-- A write keeps the canonical form. -/
theorem wf_write [DecidableEq α] {m : List (Nat × α)} (h : wf d m = true) (i : Nat) (v : α) :
    wf d (write d m i v) = true := by
  induction m with
  | nil => by_cases hv : v = d <;> simp [write, wf, hv]
  | cons e m ih =>
    obtain ⟨k, u⟩ := e
    have hlt := wf_head_lt d h
    have hne := wf_ne_default d h (k, u) (by simp)
    simp only [write]
    split
    · rename_i hik
      by_cases hv : v = d
      · simpa [hv] using h
      · simp only [hv, if_false]
        refine wf_cons d hv h fun e he => ?_
        rcases List.mem_cons.mp he with rfl | he
        · exact hik
        · exact Nat.lt_trans hik (hlt e he)
    · split
      · rename_i _ hik
        by_cases hv : v = d
        · simpa [hv] using wf_tail d h
        · simp only [hv, if_false]
          exact wf_cons d hv (wf_tail d h) fun e he => hik ▸ hlt e he
      · refine wf_cons d hne (ih (wf_tail d h)) fun e he => ?_
        rcases mem_write d he with he | rfl
        · exact hlt e he
        · simp only; omega

/-- A write below a bound keeps all indices below it. -/
theorem below_write [DecidableEq α] {m : List (Nat × α)} {n i : Nat} (h : below n m = true) (hi : i < n) (v : α) :
    below n (write d m i v) = true := by
  simp only [below, List.all_eq_true, decide_eq_true_eq] at h ⊢
  intro e he
  rcases mem_write d he with he | rfl
  · exact h e he
  · exact hi

/-- An entry that is not the default is below the bound. -/
theorem lt_of_read_ne {m : List (Nat × α)} {n i : Nat} (h : below n m = true) (hi : read d m i ≠ d) : i < n := by
  induction m with
  | nil => exact absurd rfl hi
  | cons e m ih =>
    obtain ⟨k, u⟩ := e
    simp only [below, List.all_cons, Bool.and_eq_true, decide_eq_true_eq] at h
    by_cases hk : i = k
    · exact hk ▸ h.1
    · rw [read_cons, if_neg hk] at hi
      exact ih h.2 hi

/-- What is listed in a canonical memory is what is read. -/
theorem read_of_mem [DecidableEq α] {m : List (Nat × α)} (h : wf d m = true) {e : Nat × α} (he : e ∈ m) :
    read d m e.1 = e.2 := by
  induction m with
  | nil => simp at he
  | cons f m ih =>
    obtain ⟨k, u⟩ := f
    rcases List.mem_cons.mp he with rfl | he
    · simp [read]
    · rw [read_cons, if_neg (Nat.ne_of_gt (wf_head_lt d h e he))]
      exact ih (wf_tail d h) he

/-- What is read and is not the default is listed. -/
theorem mem_of_read {m : List (Nat × α)} {i : Nat} (hi : read d m i ≠ d) : (i, read d m i) ∈ m := by
  induction m with
  | nil => exact absurd rfl hi
  | cons e m ih =>
    obtain ⟨k, u⟩ := e
    by_cases hk : i = k
    · subst hk; simp [read]
    · simp only [read_cons, if_neg hk] at hi ⊢
      exact List.mem_cons_of_mem _ (ih hi)

/-- The memory of a function is in canonical form. -/
theorem wf_ofFn [DecidableEq α] (n : Nat) (f : Nat → α) : wf d (ofFn d n f) = true := by
  unfold ofFn
  have key : ∀ l : List Nat, l.Pairwise (· < ·) →
      wf d ((l.map fun i => (i, f i)).filter fun e => decide (e.2 ≠ d)) = true := by
    intro l hl
    induction l with
    | nil => rfl
    | cons a l ih =>
      rw [List.pairwise_cons] at hl
      simp only [List.map_cons, List.filter_cons]
      split
      · rename_i ha
        refine wf_cons d (by simpa using ha) (ih hl.2) fun e he => ?_
        simp only [List.mem_filter, List.mem_map] at he
        obtain ⟨⟨b, hb, rfl⟩, _⟩ := he
        exact hl.1 b hb
      · exact ih hl.2
  exact key _ (List.pairwise_lt_range)

/-- The memory of a function of `n` entries lists indices below `n`. -/
theorem below_ofFn [DecidableEq α] (n : Nat) (f : Nat → α) : below n (ofFn d n f) = true := by
  simp only [below, ofFn, List.all_eq_true, List.mem_filter, List.mem_map, List.mem_range, decide_eq_true_eq]
  rintro e ⟨⟨i, hi, rfl⟩, _⟩
  exact hi

/-- Every entry of the memory of a function has a property that all its values and the default have. -/
theorem read_ofFn_prop [DecidableEq α] (p : α → Prop) (hd : p d) (n : Nat) (f : Nat → α) (hf : ∀ i, p (f i)) (i : Nat) :
    p (read d (ofFn d n f) i) := by
  by_cases h : read d (ofFn d n f) i = d
  · rw [h]; exact hd
  · have := mem_of_read d h
    generalize read d (ofFn d n f) i = u at this
    simp only [ofFn, List.mem_filter, List.mem_map, List.mem_range] at this
    obtain ⟨⟨j, _, hj⟩, _⟩ := this
    obtain ⟨_, rfl⟩ := Prod.mk.injEq .. ▸ hj
    exact hf j

/-- Removing the listed `true` at `i`, or listing it, changes the number of listed `true`s by one. -/
theorem count_write_true {m : List (Nat × Bool)} (h : wf false m = true) {i : Nat} (hi : read false m i = false) :
    ((write false m i true).filter (·.2)).length = (m.filter (·.2)).length + 1 := by
  induction m with
  | nil => simp [write]
  | cons e m ih =>
    obtain ⟨k, u⟩ := e
    have hu : u = true := by simpa using wf_ne_default false h (k, u) (by simp)
    subst hu
    simp only [write]
    split
    · simp
    · split
      · rename_i _ hik; subst hik; simp [read] at hi
      · rename_i _ hik
        rw [read_cons, if_neg hik] at hi
        simp [ih (wf_tail false h) hi]

theorem count_write_false {m : List (Nat × Bool)} (h : wf false m = true) {i : Nat} (hi : read false m i = true) :
    ((write false m i false).filter (·.2)).length + 1 = (m.filter (·.2)).length := by
  induction m with
  | nil => simp at hi
  | cons e m ih =>
    obtain ⟨k, u⟩ := e
    have hu : u = true := by simpa using wf_ne_default false h (k, u) (by simp)
    subst hu
    simp only [write]
    split
    · rename_i hik
      have : read false ((k, true) :: m) i = false := by
        apply read_eq_default
        intro e he
        rcases List.mem_cons.mp he with rfl | he
        · exact Nat.ne_of_lt hik
        · exact Nat.ne_of_lt (Nat.lt_trans hik (wf_head_lt false h e he))
      simp [this] at hi
    · split
      · simp
      · rename_i _ hik
        rw [read_cons, if_neg hik] at hi
        have := ih (wf_tail false h) hi
        simp; omega

end Sys2Proof.Machine.Memory
end

