-- ==== Sys2Proof/Laws/State.lean ====
section
/-! SUPPORT. The laws of the state updates: one per field per named update, all true by definition, so that no later
proof unfolds a record update. -/

namespace Sys2Proof.Machine.State

/-! ### `FREQ[i] <- v` -/

@[simp] theorem setFreq_cfg (s : State) (i v : Nat) : (s.setFreq i v).cfg = s.cfg := rfl
@[simp] theorem setFreq_phase (s : State) (i v : Nat) : (s.setFreq i v).phase = s.phase := rfl
@[simp] theorem setFreq_mode (s : State) (i v : Nat) : (s.setFreq i v).mode = s.mode := rfl
@[simp] theorem setFreq_errcode (s : State) (i v : Nat) : (s.setFreq i v).errcode = s.errcode := rfl
@[simp] theorem setFreq_nsym (s : State) (i v : Nat) : (s.setFreq i v).nsym = s.nsym := rfl
@[simp] theorem setFreq_nnodes (s : State) (i v : Nat) : (s.setFreq i v).nnodes = s.nnodes := rfl
@[simp] theorem setFreq_root (s : State) (i v : Nat) : (s.setFreq i v).root = s.root := rfl
@[simp] theorem setFreq_cur (s : State) (i v : Nat) : (s.setFreq i v).cur = s.cur := rfl
@[simp] theorem setFreq_sp (s : State) (i v : Nat) : (s.setFreq i v).sp = s.sp := rfl
@[simp] theorem setFreq_scan (s : State) (i v : Nat) : (s.setFreq i v).scan = s.scan := rfl
@[simp] theorem setFreq_freq (s : State) (i v : Nat) : (s.setFreq i v).freq = Memory.write 0 s.freq i v := rfl
@[simp] theorem setFreq_node (s : State) (i v : Nat) : (s.setFreq i v).node = s.node := rfl
@[simp] theorem setFreq_live (s : State) (i v : Nat) : (s.setFreq i v).live = s.live := rfl
@[simp] theorem setFreq_code (s : State) (i v : Nat) : (s.setFreq i v).code = s.code := rfl
@[simp] theorem setFreq_stk (s : State) (i v : Nat) : (s.setFreq i v).stk = s.stk := rfl
@[simp] theorem setFreq_inp (s : State) (i v : Nat) : (s.setFreq i v).inp = s.inp := rfl
@[simp] theorem setFreq_out (s : State) (i v : Nat) : (s.setFreq i v).out = s.out := rfl
@[simp] theorem setFreq_chanLog (s : State) (i v : Nat) : (s.setFreq i v).chanLog = s.chanLog := rfl
@[simp] theorem setFreq_hostReads (s : State) (i v : Nat) : (s.setFreq i v).hostReads = s.hostReads := rfl
@[simp] theorem setFreq_pending (s : State) (i v : Nat) : (s.setFreq i v).pending = s.pending := rfl
@[simp] theorem setFreq_freeCtr (s : State) (i v : Nat) : (s.setFreq i v).freeCtr = s.freeCtr := rfl

/-! ### `NODE[i] <- v` -/

@[simp] theorem setNode_cfg (s : State) (i : Nat) (v : NodeEntry) : (s.setNode i v).cfg = s.cfg := rfl
@[simp] theorem setNode_phase (s : State) (i : Nat) (v : NodeEntry) : (s.setNode i v).phase = s.phase := rfl
@[simp] theorem setNode_mode (s : State) (i : Nat) (v : NodeEntry) : (s.setNode i v).mode = s.mode := rfl
@[simp] theorem setNode_errcode (s : State) (i : Nat) (v : NodeEntry) : (s.setNode i v).errcode = s.errcode := rfl
@[simp] theorem setNode_nsym (s : State) (i : Nat) (v : NodeEntry) : (s.setNode i v).nsym = s.nsym := rfl
@[simp] theorem setNode_nnodes (s : State) (i : Nat) (v : NodeEntry) : (s.setNode i v).nnodes = s.nnodes := rfl
@[simp] theorem setNode_root (s : State) (i : Nat) (v : NodeEntry) : (s.setNode i v).root = s.root := rfl
@[simp] theorem setNode_cur (s : State) (i : Nat) (v : NodeEntry) : (s.setNode i v).cur = s.cur := rfl
@[simp] theorem setNode_sp (s : State) (i : Nat) (v : NodeEntry) : (s.setNode i v).sp = s.sp := rfl
@[simp] theorem setNode_scan (s : State) (i : Nat) (v : NodeEntry) : (s.setNode i v).scan = s.scan := rfl
@[simp] theorem setNode_freq (s : State) (i : Nat) (v : NodeEntry) : (s.setNode i v).freq = s.freq := rfl
@[simp] theorem setNode_node (s : State) (i : Nat) (v : NodeEntry) :
    (s.setNode i v).node = Memory.write NodeEntry.zero s.node i v := rfl
@[simp] theorem setNode_live (s : State) (i : Nat) (v : NodeEntry) : (s.setNode i v).live = s.live := rfl
@[simp] theorem setNode_code (s : State) (i : Nat) (v : NodeEntry) : (s.setNode i v).code = s.code := rfl
@[simp] theorem setNode_stk (s : State) (i : Nat) (v : NodeEntry) : (s.setNode i v).stk = s.stk := rfl
@[simp] theorem setNode_inp (s : State) (i : Nat) (v : NodeEntry) : (s.setNode i v).inp = s.inp := rfl
@[simp] theorem setNode_out (s : State) (i : Nat) (v : NodeEntry) : (s.setNode i v).out = s.out := rfl
@[simp] theorem setNode_chanLog (s : State) (i : Nat) (v : NodeEntry) : (s.setNode i v).chanLog = s.chanLog := rfl
@[simp] theorem setNode_hostReads (s : State) (i : Nat) (v : NodeEntry) :
    (s.setNode i v).hostReads = s.hostReads := rfl
@[simp] theorem setNode_pending (s : State) (i : Nat) (v : NodeEntry) : (s.setNode i v).pending = s.pending := rfl
@[simp] theorem setNode_freeCtr (s : State) (i : Nat) (v : NodeEntry) : (s.setNode i v).freeCtr = s.freeCtr := rfl

/-! ### `LIVE[i] <- v` -/

@[simp] theorem setLive_cfg (s : State) (i : Nat) (v : Bool) : (s.setLive i v).cfg = s.cfg := rfl
@[simp] theorem setLive_phase (s : State) (i : Nat) (v : Bool) : (s.setLive i v).phase = s.phase := rfl
@[simp] theorem setLive_mode (s : State) (i : Nat) (v : Bool) : (s.setLive i v).mode = s.mode := rfl
@[simp] theorem setLive_errcode (s : State) (i : Nat) (v : Bool) : (s.setLive i v).errcode = s.errcode := rfl
@[simp] theorem setLive_nsym (s : State) (i : Nat) (v : Bool) : (s.setLive i v).nsym = s.nsym := rfl
@[simp] theorem setLive_nnodes (s : State) (i : Nat) (v : Bool) : (s.setLive i v).nnodes = s.nnodes := rfl
@[simp] theorem setLive_root (s : State) (i : Nat) (v : Bool) : (s.setLive i v).root = s.root := rfl
@[simp] theorem setLive_cur (s : State) (i : Nat) (v : Bool) : (s.setLive i v).cur = s.cur := rfl
@[simp] theorem setLive_sp (s : State) (i : Nat) (v : Bool) : (s.setLive i v).sp = s.sp := rfl
@[simp] theorem setLive_scan (s : State) (i : Nat) (v : Bool) : (s.setLive i v).scan = s.scan := rfl
@[simp] theorem setLive_freq (s : State) (i : Nat) (v : Bool) : (s.setLive i v).freq = s.freq := rfl
@[simp] theorem setLive_node (s : State) (i : Nat) (v : Bool) : (s.setLive i v).node = s.node := rfl
@[simp] theorem setLive_live (s : State) (i : Nat) (v : Bool) :
    (s.setLive i v).live = Memory.write false s.live i v := rfl
@[simp] theorem setLive_code (s : State) (i : Nat) (v : Bool) : (s.setLive i v).code = s.code := rfl
@[simp] theorem setLive_stk (s : State) (i : Nat) (v : Bool) : (s.setLive i v).stk = s.stk := rfl
@[simp] theorem setLive_inp (s : State) (i : Nat) (v : Bool) : (s.setLive i v).inp = s.inp := rfl
@[simp] theorem setLive_out (s : State) (i : Nat) (v : Bool) : (s.setLive i v).out = s.out := rfl
@[simp] theorem setLive_chanLog (s : State) (i : Nat) (v : Bool) : (s.setLive i v).chanLog = s.chanLog := rfl
@[simp] theorem setLive_hostReads (s : State) (i : Nat) (v : Bool) : (s.setLive i v).hostReads = s.hostReads := rfl
@[simp] theorem setLive_pending (s : State) (i : Nat) (v : Bool) : (s.setLive i v).pending = s.pending := rfl
@[simp] theorem setLive_freeCtr (s : State) (i : Nat) (v : Bool) : (s.setLive i v).freeCtr = s.freeCtr := rfl

/-! ### `CODE[i] <- v` -/

@[simp] theorem setCode_cfg (s : State) (i : Nat) (v : CodeEntry) : (s.setCode i v).cfg = s.cfg := rfl
@[simp] theorem setCode_phase (s : State) (i : Nat) (v : CodeEntry) : (s.setCode i v).phase = s.phase := rfl
@[simp] theorem setCode_mode (s : State) (i : Nat) (v : CodeEntry) : (s.setCode i v).mode = s.mode := rfl
@[simp] theorem setCode_errcode (s : State) (i : Nat) (v : CodeEntry) : (s.setCode i v).errcode = s.errcode := rfl
@[simp] theorem setCode_nsym (s : State) (i : Nat) (v : CodeEntry) : (s.setCode i v).nsym = s.nsym := rfl
@[simp] theorem setCode_nnodes (s : State) (i : Nat) (v : CodeEntry) : (s.setCode i v).nnodes = s.nnodes := rfl
@[simp] theorem setCode_root (s : State) (i : Nat) (v : CodeEntry) : (s.setCode i v).root = s.root := rfl
@[simp] theorem setCode_cur (s : State) (i : Nat) (v : CodeEntry) : (s.setCode i v).cur = s.cur := rfl
@[simp] theorem setCode_sp (s : State) (i : Nat) (v : CodeEntry) : (s.setCode i v).sp = s.sp := rfl
@[simp] theorem setCode_scan (s : State) (i : Nat) (v : CodeEntry) : (s.setCode i v).scan = s.scan := rfl
@[simp] theorem setCode_freq (s : State) (i : Nat) (v : CodeEntry) : (s.setCode i v).freq = s.freq := rfl
@[simp] theorem setCode_node (s : State) (i : Nat) (v : CodeEntry) : (s.setCode i v).node = s.node := rfl
@[simp] theorem setCode_live (s : State) (i : Nat) (v : CodeEntry) : (s.setCode i v).live = s.live := rfl
@[simp] theorem setCode_code (s : State) (i : Nat) (v : CodeEntry) :
    (s.setCode i v).code = Memory.write CodeEntry.zero s.code i v := rfl
@[simp] theorem setCode_stk (s : State) (i : Nat) (v : CodeEntry) : (s.setCode i v).stk = s.stk := rfl
@[simp] theorem setCode_inp (s : State) (i : Nat) (v : CodeEntry) : (s.setCode i v).inp = s.inp := rfl
@[simp] theorem setCode_out (s : State) (i : Nat) (v : CodeEntry) : (s.setCode i v).out = s.out := rfl
@[simp] theorem setCode_chanLog (s : State) (i : Nat) (v : CodeEntry) : (s.setCode i v).chanLog = s.chanLog := rfl
@[simp] theorem setCode_hostReads (s : State) (i : Nat) (v : CodeEntry) :
    (s.setCode i v).hostReads = s.hostReads := rfl
@[simp] theorem setCode_pending (s : State) (i : Nat) (v : CodeEntry) : (s.setCode i v).pending = s.pending := rfl
@[simp] theorem setCode_freeCtr (s : State) (i : Nat) (v : CodeEntry) : (s.setCode i v).freeCtr = s.freeCtr := rfl

/-! ### `STK[i] <- v` -/

@[simp] theorem setStk_cfg (s : State) (i : Nat) (v : StkEntry) : (s.setStk i v).cfg = s.cfg := rfl
@[simp] theorem setStk_phase (s : State) (i : Nat) (v : StkEntry) : (s.setStk i v).phase = s.phase := rfl
@[simp] theorem setStk_mode (s : State) (i : Nat) (v : StkEntry) : (s.setStk i v).mode = s.mode := rfl
@[simp] theorem setStk_errcode (s : State) (i : Nat) (v : StkEntry) : (s.setStk i v).errcode = s.errcode := rfl
@[simp] theorem setStk_nsym (s : State) (i : Nat) (v : StkEntry) : (s.setStk i v).nsym = s.nsym := rfl
@[simp] theorem setStk_nnodes (s : State) (i : Nat) (v : StkEntry) : (s.setStk i v).nnodes = s.nnodes := rfl
@[simp] theorem setStk_root (s : State) (i : Nat) (v : StkEntry) : (s.setStk i v).root = s.root := rfl
@[simp] theorem setStk_cur (s : State) (i : Nat) (v : StkEntry) : (s.setStk i v).cur = s.cur := rfl
@[simp] theorem setStk_sp (s : State) (i : Nat) (v : StkEntry) : (s.setStk i v).sp = s.sp := rfl
@[simp] theorem setStk_scan (s : State) (i : Nat) (v : StkEntry) : (s.setStk i v).scan = s.scan := rfl
@[simp] theorem setStk_freq (s : State) (i : Nat) (v : StkEntry) : (s.setStk i v).freq = s.freq := rfl
@[simp] theorem setStk_node (s : State) (i : Nat) (v : StkEntry) : (s.setStk i v).node = s.node := rfl
@[simp] theorem setStk_live (s : State) (i : Nat) (v : StkEntry) : (s.setStk i v).live = s.live := rfl
@[simp] theorem setStk_code (s : State) (i : Nat) (v : StkEntry) : (s.setStk i v).code = s.code := rfl
@[simp] theorem setStk_stk (s : State) (i : Nat) (v : StkEntry) :
    (s.setStk i v).stk = Memory.write StkEntry.zero s.stk i v := rfl
@[simp] theorem setStk_inp (s : State) (i : Nat) (v : StkEntry) : (s.setStk i v).inp = s.inp := rfl
@[simp] theorem setStk_out (s : State) (i : Nat) (v : StkEntry) : (s.setStk i v).out = s.out := rfl
@[simp] theorem setStk_chanLog (s : State) (i : Nat) (v : StkEntry) : (s.setStk i v).chanLog = s.chanLog := rfl
@[simp] theorem setStk_hostReads (s : State) (i : Nat) (v : StkEntry) : (s.setStk i v).hostReads = s.hostReads := rfl
@[simp] theorem setStk_pending (s : State) (i : Nat) (v : StkEntry) : (s.setStk i v).pending = s.pending := rfl
@[simp] theorem setStk_freeCtr (s : State) (i : Nat) (v : StkEntry) : (s.setStk i v).freeCtr = s.freeCtr := rfl

/-! ### `fault(c)` (R240) -/

@[simp] theorem raise_cfg (s : State) (c : ErrCode) : (s.raise c).cfg = s.cfg := rfl
@[simp] theorem raise_phase (s : State) (c : ErrCode) : (s.raise c).phase = .fault := rfl
@[simp] theorem raise_mode (s : State) (c : ErrCode) : (s.raise c).mode = s.mode := rfl
@[simp] theorem raise_errcode (s : State) (c : ErrCode) : (s.raise c).errcode = c := rfl
@[simp] theorem raise_nsym (s : State) (c : ErrCode) : (s.raise c).nsym = s.nsym := rfl
@[simp] theorem raise_nnodes (s : State) (c : ErrCode) : (s.raise c).nnodes = s.nnodes := rfl
@[simp] theorem raise_root (s : State) (c : ErrCode) : (s.raise c).root = s.root := rfl
@[simp] theorem raise_cur (s : State) (c : ErrCode) : (s.raise c).cur = s.cur := rfl
@[simp] theorem raise_sp (s : State) (c : ErrCode) : (s.raise c).sp = s.sp := rfl
@[simp] theorem raise_scan (s : State) (c : ErrCode) : (s.raise c).scan = s.scan := rfl
@[simp] theorem raise_freq (s : State) (c : ErrCode) : (s.raise c).freq = s.freq := rfl
@[simp] theorem raise_node (s : State) (c : ErrCode) : (s.raise c).node = s.node := rfl
@[simp] theorem raise_live (s : State) (c : ErrCode) : (s.raise c).live = s.live := rfl
@[simp] theorem raise_code (s : State) (c : ErrCode) : (s.raise c).code = s.code := rfl
@[simp] theorem raise_stk (s : State) (c : ErrCode) : (s.raise c).stk = s.stk := rfl
@[simp] theorem raise_inp (s : State) (c : ErrCode) : (s.raise c).inp = s.inp := rfl
@[simp] theorem raise_out (s : State) (c : ErrCode) : (s.raise c).out = s.out := rfl
@[simp] theorem raise_chanLog (s : State) (c : ErrCode) : (s.raise c).chanLog = s.chanLog := rfl
@[simp] theorem raise_hostReads (s : State) (c : ErrCode) : (s.raise c).hostReads = s.hostReads := rfl
@[simp] theorem raise_pending (s : State) (c : ErrCode) : (s.raise c).pending = s.pending := rfl
@[simp] theorem raise_freeCtr (s : State) (c : ErrCode) : (s.raise c).freeCtr = s.freeCtr := rfl

/-! ### `CLEAR` where effective (R221) -/

@[simp] theorem acknowledge_cfg (s : State) : (s.acknowledge).cfg = s.cfg := rfl
@[simp] theorem acknowledge_phase (s : State) : (s.acknowledge).phase = .idle := rfl
@[simp] theorem acknowledge_mode (s : State) : (s.acknowledge).mode = s.mode := rfl
@[simp] theorem acknowledge_errcode (s : State) : (s.acknowledge).errcode = .none := rfl
@[simp] theorem acknowledge_nsym (s : State) : (s.acknowledge).nsym = s.nsym := rfl
@[simp] theorem acknowledge_nnodes (s : State) : (s.acknowledge).nnodes = s.nnodes := rfl
@[simp] theorem acknowledge_root (s : State) : (s.acknowledge).root = s.root := rfl
@[simp] theorem acknowledge_cur (s : State) : (s.acknowledge).cur = s.cur := rfl
@[simp] theorem acknowledge_sp (s : State) : (s.acknowledge).sp = s.sp := rfl
@[simp] theorem acknowledge_scan (s : State) : (s.acknowledge).scan = s.scan := rfl
@[simp] theorem acknowledge_freq (s : State) : (s.acknowledge).freq = s.freq := rfl
@[simp] theorem acknowledge_node (s : State) : (s.acknowledge).node = s.node := rfl
@[simp] theorem acknowledge_live (s : State) : (s.acknowledge).live = s.live := rfl
@[simp] theorem acknowledge_code (s : State) : (s.acknowledge).code = s.code := rfl
@[simp] theorem acknowledge_stk (s : State) : (s.acknowledge).stk = s.stk := rfl
@[simp] theorem acknowledge_inp (s : State) : (s.acknowledge).inp = s.inp := rfl
@[simp] theorem acknowledge_out (s : State) : (s.acknowledge).out = s.out := rfl
@[simp] theorem acknowledge_chanLog (s : State) : (s.acknowledge).chanLog = s.chanLog := rfl
@[simp] theorem acknowledge_hostReads (s : State) : (s.acknowledge).hostReads = s.hostReads := rfl
@[simp] theorem acknowledge_pending (s : State) : (s.acknowledge).pending = s.pending := rfl
@[simp] theorem acknowledge_freeCtr (s : State) : (s.acknowledge).freeCtr = s.freeCtr := rfl

/-! ### `init()` (R219) -/

@[simp] theorem init_cfg (s : State) : (s.init).cfg = s.cfg := rfl
@[simp] theorem init_phase (s : State) : (s.init).phase = s.phase := rfl
@[simp] theorem init_mode (s : State) : (s.init).mode = s.mode := rfl
@[simp] theorem init_errcode (s : State) : (s.init).errcode = .none := rfl
@[simp] theorem init_nsym (s : State) : (s.init).nsym = 0 := rfl
@[simp] theorem init_nnodes (s : State) : (s.init).nnodes = 0 := rfl
@[simp] theorem init_root (s : State) : (s.init).root = s.cfg.nil := rfl
@[simp] theorem init_cur (s : State) : (s.init).cur = s.cfg.nil := rfl
@[simp] theorem init_sp (s : State) : (s.init).sp = 0 := rfl
@[simp] theorem init_scan (s : State) : (s.init).scan = 0 := rfl
@[simp] theorem init_freq (s : State) : (s.init).freq = [] := rfl
@[simp] theorem init_node (s : State) : (s.init).node = s.node := rfl
@[simp] theorem init_live (s : State) : (s.init).live = [] := rfl
@[simp] theorem init_code (s : State) : (s.init).code = State.invalidate s.code := rfl
@[simp] theorem init_stk (s : State) : (s.init).stk = s.stk := rfl
@[simp] theorem init_inp (s : State) : (s.init).inp = s.inp := rfl
@[simp] theorem init_out (s : State) : (s.init).out = s.out := rfl
@[simp] theorem init_chanLog (s : State) : (s.init).chanLog = s.chanLog := rfl
@[simp] theorem init_hostReads (s : State) : (s.init).hostReads = s.hostReads := rfl
@[simp] theorem init_pending (s : State) : (s.init).pending = s.pending := rfl
@[simp] theorem init_freeCtr (s : State) : (s.init).freeCtr = s.freeCtr := rfl

/-! ### Acceptance of an operation (R217, R218) -/

@[simp] theorem accept_cfg (s : State) (m : Mode) (p : Phase) : (s.accept m p).cfg = s.cfg := rfl
@[simp] theorem accept_phase (s : State) (m : Mode) (p : Phase) : (s.accept m p).phase = p := rfl
@[simp] theorem accept_mode (s : State) (m : Mode) (p : Phase) : (s.accept m p).mode = m := rfl
@[simp] theorem accept_errcode (s : State) (m : Mode) (p : Phase) : (s.accept m p).errcode = .none := rfl
@[simp] theorem accept_nsym (s : State) (m : Mode) (p : Phase) : (s.accept m p).nsym = 0 := rfl
@[simp] theorem accept_nnodes (s : State) (m : Mode) (p : Phase) : (s.accept m p).nnodes = 0 := rfl
@[simp] theorem accept_root (s : State) (m : Mode) (p : Phase) : (s.accept m p).root = s.cfg.nil := rfl
@[simp] theorem accept_cur (s : State) (m : Mode) (p : Phase) : (s.accept m p).cur = s.cfg.nil := rfl
@[simp] theorem accept_sp (s : State) (m : Mode) (p : Phase) : (s.accept m p).sp = 0 := rfl
@[simp] theorem accept_scan (s : State) (m : Mode) (p : Phase) : (s.accept m p).scan = 0 := rfl
@[simp] theorem accept_freq (s : State) (m : Mode) (p : Phase) : (s.accept m p).freq = [] := rfl
@[simp] theorem accept_node (s : State) (m : Mode) (p : Phase) : (s.accept m p).node = s.node := rfl
@[simp] theorem accept_live (s : State) (m : Mode) (p : Phase) : (s.accept m p).live = [] := rfl
@[simp] theorem accept_code (s : State) (m : Mode) (p : Phase) : (s.accept m p).code = State.invalidate s.code := rfl
@[simp] theorem accept_stk (s : State) (m : Mode) (p : Phase) : (s.accept m p).stk = s.stk := rfl
@[simp] theorem accept_inp (s : State) (m : Mode) (p : Phase) : (s.accept m p).inp = s.inp := rfl
@[simp] theorem accept_out (s : State) (m : Mode) (p : Phase) : (s.accept m p).out = s.out := rfl
@[simp] theorem accept_chanLog (s : State) (m : Mode) (p : Phase) : (s.accept m p).chanLog = s.chanLog := rfl
@[simp] theorem accept_hostReads (s : State) (m : Mode) (p : Phase) : (s.accept m p).hostReads = s.hostReads := rfl
@[simp] theorem accept_pending (s : State) (m : Mode) (p : Phase) : (s.accept m p).pending = s.pending := rfl
@[simp] theorem accept_freeCtr (s : State) (m : Mode) (p : Phase) : (s.accept m p).freeCtr = s.freeCtr := rfl

/-! ### Reset (R260) -/

@[simp] theorem resetEvent_cfg (s : State) : (s.resetEvent).cfg = s.cfg := rfl
@[simp] theorem resetEvent_phase (s : State) : (s.resetEvent).phase = .idle := rfl
@[simp] theorem resetEvent_mode (s : State) : (s.resetEvent).mode = .compress := rfl
@[simp] theorem resetEvent_errcode (s : State) : (s.resetEvent).errcode = .none := rfl
@[simp] theorem resetEvent_nsym (s : State) : (s.resetEvent).nsym = 0 := rfl
@[simp] theorem resetEvent_nnodes (s : State) : (s.resetEvent).nnodes = 0 := rfl
@[simp] theorem resetEvent_root (s : State) : (s.resetEvent).root = s.cfg.nil := rfl
@[simp] theorem resetEvent_cur (s : State) : (s.resetEvent).cur = s.cfg.nil := rfl
@[simp] theorem resetEvent_sp (s : State) : (s.resetEvent).sp = 0 := rfl
@[simp] theorem resetEvent_scan (s : State) : (s.resetEvent).scan = 0 := rfl
@[simp] theorem resetEvent_freq (s : State) : (s.resetEvent).freq = s.freeFreq := rfl
@[simp] theorem resetEvent_node (s : State) : (s.resetEvent).node = s.freeNode := rfl
@[simp] theorem resetEvent_live (s : State) : (s.resetEvent).live = s.freeLive := rfl
@[simp] theorem resetEvent_code (s : State) : (s.resetEvent).code = s.freeCode := rfl
@[simp] theorem resetEvent_stk (s : State) : (s.resetEvent).stk = s.freeStk := rfl
@[simp] theorem resetEvent_inp (s : State) : (s.resetEvent).inp = s.inp := rfl
@[simp] theorem resetEvent_out (s : State) : (s.resetEvent).out = s.out := rfl
@[simp] theorem resetEvent_chanLog (s : State) : (s.resetEvent).chanLog = s.chanLog := rfl
@[simp] theorem resetEvent_hostReads (s : State) : (s.resetEvent).hostReads = s.hostReads := rfl
@[simp] theorem resetEvent_pending (s : State) : (s.resetEvent).pending = s.pending := rfl
@[simp] theorem resetEvent_freeCtr (s : State) : (s.resetEvent).freeCtr = s.freeCtr + 1 := rfl

/-! ### `IN.readBits(n)` (R62) -/

@[simp] theorem afterRead_cfg (s : State) (n : Nat) : (s.afterRead n).cfg = s.cfg := rfl
@[simp] theorem afterRead_phase (s : State) (n : Nat) : (s.afterRead n).phase = s.phase := rfl
@[simp] theorem afterRead_mode (s : State) (n : Nat) : (s.afterRead n).mode = s.mode := rfl
@[simp] theorem afterRead_errcode (s : State) (n : Nat) : (s.afterRead n).errcode = s.errcode := rfl
@[simp] theorem afterRead_nsym (s : State) (n : Nat) : (s.afterRead n).nsym = s.nsym := rfl
@[simp] theorem afterRead_nnodes (s : State) (n : Nat) : (s.afterRead n).nnodes = s.nnodes := rfl
@[simp] theorem afterRead_root (s : State) (n : Nat) : (s.afterRead n).root = s.root := rfl
@[simp] theorem afterRead_cur (s : State) (n : Nat) : (s.afterRead n).cur = s.cur := rfl
@[simp] theorem afterRead_sp (s : State) (n : Nat) : (s.afterRead n).sp = s.sp := rfl
@[simp] theorem afterRead_scan (s : State) (n : Nat) : (s.afterRead n).scan = s.scan := rfl
@[simp] theorem afterRead_freq (s : State) (n : Nat) : (s.afterRead n).freq = s.freq := rfl
@[simp] theorem afterRead_node (s : State) (n : Nat) : (s.afterRead n).node = s.node := rfl
@[simp] theorem afterRead_live (s : State) (n : Nat) : (s.afterRead n).live = s.live := rfl
@[simp] theorem afterRead_code (s : State) (n : Nat) : (s.afterRead n).code = s.code := rfl
@[simp] theorem afterRead_stk (s : State) (n : Nat) : (s.afterRead n).stk = s.stk := rfl
@[simp] theorem afterRead_inp (s : State) (n : Nat) : (s.afterRead n).inp = s.inAfter n := rfl
@[simp] theorem afterRead_out (s : State) (n : Nat) : (s.afterRead n).out = s.out := rfl
@[simp] theorem afterRead_chanLog (s : State) (n : Nat) :
    (s.afterRead n).chanLog = (encodeChan (.inRead (BitVec.ofNat 6 n)), s.readResponse n) :: s.chanLog := rfl
@[simp] theorem afterRead_hostReads (s : State) (n : Nat) : (s.afterRead n).hostReads = s.hostReads := rfl
@[simp] theorem afterRead_pending (s : State) (n : Nat) : (s.afterRead n).pending = s.pending := rfl
@[simp] theorem afterRead_freeCtr (s : State) (n : Nat) : (s.afterRead n).freeCtr = s.freeCtr := rfl

/-! ### `IN.reset()` (R64) -/

@[simp] theorem resetIn_cfg (s : State) : (s.resetIn).cfg = s.cfg := rfl
@[simp] theorem resetIn_phase (s : State) : (s.resetIn).phase = s.phase := rfl
@[simp] theorem resetIn_mode (s : State) : (s.resetIn).mode = s.mode := rfl
@[simp] theorem resetIn_errcode (s : State) : (s.resetIn).errcode = s.errcode := rfl
@[simp] theorem resetIn_nsym (s : State) : (s.resetIn).nsym = s.nsym := rfl
@[simp] theorem resetIn_nnodes (s : State) : (s.resetIn).nnodes = s.nnodes := rfl
@[simp] theorem resetIn_root (s : State) : (s.resetIn).root = s.root := rfl
@[simp] theorem resetIn_cur (s : State) : (s.resetIn).cur = s.cur := rfl
@[simp] theorem resetIn_sp (s : State) : (s.resetIn).sp = s.sp := rfl
@[simp] theorem resetIn_scan (s : State) : (s.resetIn).scan = s.scan := rfl
@[simp] theorem resetIn_freq (s : State) : (s.resetIn).freq = s.freq := rfl
@[simp] theorem resetIn_node (s : State) : (s.resetIn).node = s.node := rfl
@[simp] theorem resetIn_live (s : State) : (s.resetIn).live = s.live := rfl
@[simp] theorem resetIn_code (s : State) : (s.resetIn).code = s.code := rfl
@[simp] theorem resetIn_stk (s : State) : (s.resetIn).stk = s.stk := rfl
@[simp] theorem resetIn_inp (s : State) : (s.resetIn).inp = { s.inp with pos := 0, eod := false } := rfl
@[simp] theorem resetIn_out (s : State) : (s.resetIn).out = s.out := rfl
@[simp] theorem resetIn_chanLog (s : State) :
    (s.resetIn).chanLog = (encodeChan .inReset, chanResponse false 0) :: s.chanLog := rfl
@[simp] theorem resetIn_hostReads (s : State) : (s.resetIn).hostReads = s.hostReads := rfl
@[simp] theorem resetIn_pending (s : State) : (s.resetIn).pending = s.pending := rfl
@[simp] theorem resetIn_freeCtr (s : State) : (s.resetIn).freeCtr = s.freeCtr := rfl

/-! ### `OUT.writeBits(n, v)` (R65) -/

@[simp] theorem writeBits_cfg (s : State) (n : Nat) (v : Word) : (s.writeBits n v).cfg = s.cfg := rfl
@[simp] theorem writeBits_phase (s : State) (n : Nat) (v : Word) : (s.writeBits n v).phase = s.phase := rfl
@[simp] theorem writeBits_mode (s : State) (n : Nat) (v : Word) : (s.writeBits n v).mode = s.mode := rfl
@[simp] theorem writeBits_errcode (s : State) (n : Nat) (v : Word) : (s.writeBits n v).errcode = s.errcode := rfl
@[simp] theorem writeBits_nsym (s : State) (n : Nat) (v : Word) : (s.writeBits n v).nsym = s.nsym := rfl
@[simp] theorem writeBits_nnodes (s : State) (n : Nat) (v : Word) : (s.writeBits n v).nnodes = s.nnodes := rfl
@[simp] theorem writeBits_root (s : State) (n : Nat) (v : Word) : (s.writeBits n v).root = s.root := rfl
@[simp] theorem writeBits_cur (s : State) (n : Nat) (v : Word) : (s.writeBits n v).cur = s.cur := rfl
@[simp] theorem writeBits_sp (s : State) (n : Nat) (v : Word) : (s.writeBits n v).sp = s.sp := rfl
@[simp] theorem writeBits_scan (s : State) (n : Nat) (v : Word) : (s.writeBits n v).scan = s.scan := rfl
@[simp] theorem writeBits_freq (s : State) (n : Nat) (v : Word) : (s.writeBits n v).freq = s.freq := rfl
@[simp] theorem writeBits_node (s : State) (n : Nat) (v : Word) : (s.writeBits n v).node = s.node := rfl
@[simp] theorem writeBits_live (s : State) (n : Nat) (v : Word) : (s.writeBits n v).live = s.live := rfl
@[simp] theorem writeBits_code (s : State) (n : Nat) (v : Word) : (s.writeBits n v).code = s.code := rfl
@[simp] theorem writeBits_stk (s : State) (n : Nat) (v : Word) : (s.writeBits n v).stk = s.stk := rfl
@[simp] theorem writeBits_inp (s : State) (n : Nat) (v : Word) : (s.writeBits n v).inp = s.inp := rfl
@[simp] theorem writeBits_out (s : State) (n : Nat) (v : Word) :
    (s.writeBits n v).out = { s.out with bits := s.outAppend (bitsMsb n v.toNat) } := rfl
@[simp] theorem writeBits_chanLog (s : State) (n : Nat) (v : Word) :
    (s.writeBits n v).chanLog = (encodeChan (.outWrite (BitVec.ofNat 6 n) v), chanResponse false 0) :: s.chanLog := rfl
@[simp] theorem writeBits_hostReads (s : State) (n : Nat) (v : Word) :
    (s.writeBits n v).hostReads = s.hostReads := rfl
@[simp] theorem writeBits_pending (s : State) (n : Nat) (v : Word) : (s.writeBits n v).pending = s.pending := rfl
@[simp] theorem writeBits_freeCtr (s : State) (n : Nat) (v : Word) : (s.writeBits n v).freeCtr = s.outCtr := rfl

/-! ### `OUT.close()` (R66) -/

@[simp] theorem closeOut_cfg (s : State) : (s.closeOut).cfg = s.cfg := rfl
@[simp] theorem closeOut_phase (s : State) : (s.closeOut).phase = s.phase := rfl
@[simp] theorem closeOut_mode (s : State) : (s.closeOut).mode = s.mode := rfl
@[simp] theorem closeOut_errcode (s : State) : (s.closeOut).errcode = s.errcode := rfl
@[simp] theorem closeOut_nsym (s : State) : (s.closeOut).nsym = s.nsym := rfl
@[simp] theorem closeOut_nnodes (s : State) : (s.closeOut).nnodes = s.nnodes := rfl
@[simp] theorem closeOut_root (s : State) : (s.closeOut).root = s.root := rfl
@[simp] theorem closeOut_cur (s : State) : (s.closeOut).cur = s.cur := rfl
@[simp] theorem closeOut_sp (s : State) : (s.closeOut).sp = s.sp := rfl
@[simp] theorem closeOut_scan (s : State) : (s.closeOut).scan = s.scan := rfl
@[simp] theorem closeOut_freq (s : State) : (s.closeOut).freq = s.freq := rfl
@[simp] theorem closeOut_node (s : State) : (s.closeOut).node = s.node := rfl
@[simp] theorem closeOut_live (s : State) : (s.closeOut).live = s.live := rfl
@[simp] theorem closeOut_code (s : State) : (s.closeOut).code = s.code := rfl
@[simp] theorem closeOut_stk (s : State) : (s.closeOut).stk = s.stk := rfl
@[simp] theorem closeOut_inp (s : State) : (s.closeOut).inp = s.inp := rfl
@[simp] theorem closeOut_out (s : State) : (s.closeOut).out = { bits := s.outAppend s.padBits, closed := true } := rfl
@[simp] theorem closeOut_chanLog (s : State) :
    (s.closeOut).chanLog = (encodeChan .outClose, chanResponse false 0) :: s.chanLog := rfl
@[simp] theorem closeOut_hostReads (s : State) : (s.closeOut).hostReads = s.hostReads := rfl
@[simp] theorem closeOut_pending (s : State) : (s.closeOut).pending = s.pending := rfl
@[simp] theorem closeOut_freeCtr (s : State) : (s.closeOut).freeCtr = s.outCtr := rfl

/-! ### `RegRead(k)` (R223) -/

@[simp] theorem hostRead_cfg (s : State) (k : Nat) : (s.hostRead k).cfg = s.cfg := rfl
@[simp] theorem hostRead_phase (s : State) (k : Nat) : (s.hostRead k).phase = s.phase := rfl
@[simp] theorem hostRead_mode (s : State) (k : Nat) : (s.hostRead k).mode = s.mode := rfl
@[simp] theorem hostRead_errcode (s : State) (k : Nat) : (s.hostRead k).errcode = s.errcode := rfl
@[simp] theorem hostRead_nsym (s : State) (k : Nat) : (s.hostRead k).nsym = s.nsym := rfl
@[simp] theorem hostRead_nnodes (s : State) (k : Nat) : (s.hostRead k).nnodes = s.nnodes := rfl
@[simp] theorem hostRead_root (s : State) (k : Nat) : (s.hostRead k).root = s.root := rfl
@[simp] theorem hostRead_cur (s : State) (k : Nat) : (s.hostRead k).cur = s.cur := rfl
@[simp] theorem hostRead_sp (s : State) (k : Nat) : (s.hostRead k).sp = s.sp := rfl
@[simp] theorem hostRead_scan (s : State) (k : Nat) : (s.hostRead k).scan = s.scan := rfl
@[simp] theorem hostRead_freq (s : State) (k : Nat) : (s.hostRead k).freq = s.freq := rfl
@[simp] theorem hostRead_node (s : State) (k : Nat) : (s.hostRead k).node = s.node := rfl
@[simp] theorem hostRead_live (s : State) (k : Nat) : (s.hostRead k).live = s.live := rfl
@[simp] theorem hostRead_code (s : State) (k : Nat) : (s.hostRead k).code = s.code := rfl
@[simp] theorem hostRead_stk (s : State) (k : Nat) : (s.hostRead k).stk = s.stk := rfl
@[simp] theorem hostRead_inp (s : State) (k : Nat) : (s.hostRead k).inp = s.inp := rfl
@[simp] theorem hostRead_out (s : State) (k : Nat) : (s.hostRead k).out = s.out := rfl
@[simp] theorem hostRead_chanLog (s : State) (k : Nat) : (s.hostRead k).chanLog = s.chanLog := rfl
@[simp] theorem hostRead_hostReads (s : State) (k : Nat) :
    (s.hostRead k).hostReads = (k, s.regValue k) :: s.hostReads := rfl
@[simp] theorem hostRead_pending (s : State) (k : Nat) : (s.hostRead k).pending = s.pending := rfl
@[simp] theorem hostRead_freeCtr (s : State) (k : Nat) : (s.hostRead k).freeCtr = s.freeCtr := rfl

/-! ### A fresh pair of channels (R265) -/

@[simp] theorem launch_cfg (s : State) (b : List Byte) : (s.launch b).cfg = s.cfg := rfl
@[simp] theorem launch_phase (s : State) (b : List Byte) : (s.launch b).phase = s.phase := rfl
@[simp] theorem launch_mode (s : State) (b : List Byte) : (s.launch b).mode = s.mode := rfl
@[simp] theorem launch_errcode (s : State) (b : List Byte) : (s.launch b).errcode = s.errcode := rfl
@[simp] theorem launch_nsym (s : State) (b : List Byte) : (s.launch b).nsym = s.nsym := rfl
@[simp] theorem launch_nnodes (s : State) (b : List Byte) : (s.launch b).nnodes = s.nnodes := rfl
@[simp] theorem launch_root (s : State) (b : List Byte) : (s.launch b).root = s.root := rfl
@[simp] theorem launch_cur (s : State) (b : List Byte) : (s.launch b).cur = s.cur := rfl
@[simp] theorem launch_sp (s : State) (b : List Byte) : (s.launch b).sp = s.sp := rfl
@[simp] theorem launch_scan (s : State) (b : List Byte) : (s.launch b).scan = s.scan := rfl
@[simp] theorem launch_freq (s : State) (b : List Byte) : (s.launch b).freq = s.freq := rfl
@[simp] theorem launch_node (s : State) (b : List Byte) : (s.launch b).node = s.node := rfl
@[simp] theorem launch_live (s : State) (b : List Byte) : (s.launch b).live = s.live := rfl
@[simp] theorem launch_code (s : State) (b : List Byte) : (s.launch b).code = s.code := rfl
@[simp] theorem launch_stk (s : State) (b : List Byte) : (s.launch b).stk = s.stk := rfl
@[simp] theorem launch_inp (s : State) (b : List Byte) :
    (s.launch b).inp = { bits := bytesToBits b, pos := 0, eod := false } := rfl
@[simp] theorem launch_out (s : State) (b : List Byte) : (s.launch b).out = { bits := [], closed := false } := rfl
@[simp] theorem launch_chanLog (s : State) (b : List Byte) : (s.launch b).chanLog = s.chanLog := rfl
@[simp] theorem launch_hostReads (s : State) (b : List Byte) : (s.launch b).hostReads = s.hostReads := rfl
@[simp] theorem launch_pending (s : State) (b : List Byte) : (s.launch b).pending = s.pending := rfl
@[simp] theorem launch_freeCtr (s : State) (b : List Byte) : (s.launch b).freeCtr = s.freeCtr := rfl

/-! ### The end of `COUNT` (R122) -/

@[simp] theorem countEnd_cfg (s : State) : (s.countEnd).cfg = s.cfg := rfl
@[simp] theorem countEnd_phase (s : State) : (s.countEnd).phase = .buildInit := rfl
@[simp] theorem countEnd_mode (s : State) : (s.countEnd).mode = s.mode := rfl
@[simp] theorem countEnd_errcode (s : State) : (s.countEnd).errcode = s.errcode := rfl
@[simp] theorem countEnd_nsym (s : State) : (s.countEnd).nsym = s.nsym := rfl
@[simp] theorem countEnd_nnodes (s : State) : (s.countEnd).nnodes = s.nnodes := rfl
@[simp] theorem countEnd_root (s : State) : (s.countEnd).root = s.root := rfl
@[simp] theorem countEnd_cur (s : State) : (s.countEnd).cur = s.cur := rfl
@[simp] theorem countEnd_sp (s : State) : (s.countEnd).sp = s.sp := rfl
@[simp] theorem countEnd_scan (s : State) : (s.countEnd).scan = 0 := rfl
@[simp] theorem countEnd_freq (s : State) : (s.countEnd).freq = Memory.write 0 s.freq 256 1 := rfl
@[simp] theorem countEnd_node (s : State) : (s.countEnd).node = s.node := rfl
@[simp] theorem countEnd_live (s : State) : (s.countEnd).live = s.live := rfl
@[simp] theorem countEnd_code (s : State) : (s.countEnd).code = s.code := rfl
@[simp] theorem countEnd_stk (s : State) : (s.countEnd).stk = s.stk := rfl
@[simp] theorem countEnd_inp (s : State) : (s.countEnd).inp = s.inp := rfl
@[simp] theorem countEnd_out (s : State) : (s.countEnd).out = s.out := rfl
@[simp] theorem countEnd_chanLog (s : State) : (s.countEnd).chanLog = s.chanLog := rfl
@[simp] theorem countEnd_hostReads (s : State) : (s.countEnd).hostReads = s.hostReads := rfl
@[simp] theorem countEnd_pending (s : State) : (s.countEnd).pending = s.pending := rfl
@[simp] theorem countEnd_freeCtr (s : State) : (s.countEnd).freeCtr = s.freeCtr := rfl

/-! ### One byte of `COUNT` (R122) -/

@[simp] theorem countByte_cfg (s : State) (r : Nat) : (s.countByte r).cfg = s.cfg := rfl
@[simp] theorem countByte_phase (s : State) (r : Nat) : (s.countByte r).phase = s.phase := rfl
@[simp] theorem countByte_mode (s : State) (r : Nat) : (s.countByte r).mode = s.mode := rfl
@[simp] theorem countByte_errcode (s : State) (r : Nat) : (s.countByte r).errcode = s.errcode := rfl
@[simp] theorem countByte_nsym (s : State) (r : Nat) : (s.countByte r).nsym = s.cntAdd s.nsym 1 := rfl
@[simp] theorem countByte_nnodes (s : State) (r : Nat) : (s.countByte r).nnodes = s.nnodes := rfl
@[simp] theorem countByte_root (s : State) (r : Nat) : (s.countByte r).root = s.root := rfl
@[simp] theorem countByte_cur (s : State) (r : Nat) : (s.countByte r).cur = s.cur := rfl
@[simp] theorem countByte_sp (s : State) (r : Nat) : (s.countByte r).sp = s.sp := rfl
@[simp] theorem countByte_scan (s : State) (r : Nat) : (s.countByte r).scan = s.scan := rfl
@[simp] theorem countByte_freq (s : State) (r : Nat) :
    (s.countByte r).freq = Memory.write 0 s.freq r (s.cntAdd (s.freqAt r) 1) := rfl
@[simp] theorem countByte_node (s : State) (r : Nat) : (s.countByte r).node = s.node := rfl
@[simp] theorem countByte_live (s : State) (r : Nat) : (s.countByte r).live = s.live := rfl
@[simp] theorem countByte_code (s : State) (r : Nat) : (s.countByte r).code = s.code := rfl
@[simp] theorem countByte_stk (s : State) (r : Nat) : (s.countByte r).stk = s.stk := rfl
@[simp] theorem countByte_inp (s : State) (r : Nat) : (s.countByte r).inp = s.inp := rfl
@[simp] theorem countByte_out (s : State) (r : Nat) : (s.countByte r).out = s.out := rfl
@[simp] theorem countByte_chanLog (s : State) (r : Nat) : (s.countByte r).chanLog = s.chanLog := rfl
@[simp] theorem countByte_hostReads (s : State) (r : Nat) : (s.countByte r).hostReads = s.hostReads := rfl
@[simp] theorem countByte_pending (s : State) (r : Nat) : (s.countByte r).pending = s.pending := rfl
@[simp] theorem countByte_freeCtr (s : State) (r : Nat) : (s.countByte r).freeCtr = s.freeCtr := rfl

/-! ### The new node joins the priority structure (R133) -/

@[simp] theorem insertNode_cfg (s : State) : (s.insertNode).cfg = s.cfg := rfl
@[simp] theorem insertNode_phase (s : State) : (s.insertNode).phase = s.phase := rfl
@[simp] theorem insertNode_mode (s : State) : (s.insertNode).mode = s.mode := rfl
@[simp] theorem insertNode_errcode (s : State) : (s.insertNode).errcode = s.errcode := rfl
@[simp] theorem insertNode_nsym (s : State) : (s.insertNode).nsym = s.nsym := rfl
@[simp] theorem insertNode_nnodes (s : State) : (s.insertNode).nnodes = s.idxInc s.nnodes := rfl
@[simp] theorem insertNode_root (s : State) : (s.insertNode).root = s.root := rfl
@[simp] theorem insertNode_cur (s : State) : (s.insertNode).cur = s.cur := rfl
@[simp] theorem insertNode_sp (s : State) : (s.insertNode).sp = s.sp := rfl
@[simp] theorem insertNode_scan (s : State) : (s.insertNode).scan = s.scan := rfl
@[simp] theorem insertNode_freq (s : State) : (s.insertNode).freq = s.freq := rfl
@[simp] theorem insertNode_node (s : State) : (s.insertNode).node = s.node := rfl
@[simp] theorem insertNode_live (s : State) : (s.insertNode).live = Memory.write false s.live s.nnodes true := rfl
@[simp] theorem insertNode_code (s : State) : (s.insertNode).code = s.code := rfl
@[simp] theorem insertNode_stk (s : State) : (s.insertNode).stk = s.stk := rfl
@[simp] theorem insertNode_inp (s : State) : (s.insertNode).inp = s.inp := rfl
@[simp] theorem insertNode_out (s : State) : (s.insertNode).out = s.out := rfl
@[simp] theorem insertNode_chanLog (s : State) : (s.insertNode).chanLog = s.chanLog := rfl
@[simp] theorem insertNode_hostReads (s : State) : (s.insertNode).hostReads = s.hostReads := rfl
@[simp] theorem insertNode_pending (s : State) : (s.insertNode).pending = s.pending := rfl
@[simp] theorem insertNode_freeCtr (s : State) : (s.insertNode).freeCtr = s.freeCtr := rfl

/-! ### `tree_done(d)` (R167) -/

@[simp] theorem treeDone_cfg (s : State) (d : Nat) : (s.treeDone d).cfg = s.cfg := rfl
@[simp] theorem treeDone_phase (s : State) (d : Nat) : (s.treeDone d).phase = .decode := rfl
@[simp] theorem treeDone_mode (s : State) (d : Nat) : (s.treeDone d).mode = s.mode := rfl
@[simp] theorem treeDone_errcode (s : State) (d : Nat) : (s.treeDone d).errcode = s.errcode := rfl
@[simp] theorem treeDone_nsym (s : State) (d : Nat) : (s.treeDone d).nsym = s.nsym := rfl
@[simp] theorem treeDone_nnodes (s : State) (d : Nat) : (s.treeDone d).nnodes = s.nnodes := rfl
@[simp] theorem treeDone_root (s : State) (d : Nat) : (s.treeDone d).root = d := rfl
@[simp] theorem treeDone_cur (s : State) (d : Nat) : (s.treeDone d).cur = d := rfl
@[simp] theorem treeDone_sp (s : State) (d : Nat) : (s.treeDone d).sp = s.sp := rfl
@[simp] theorem treeDone_scan (s : State) (d : Nat) : (s.treeDone d).scan = s.scan := rfl
@[simp] theorem treeDone_freq (s : State) (d : Nat) : (s.treeDone d).freq = s.freq := rfl
@[simp] theorem treeDone_node (s : State) (d : Nat) : (s.treeDone d).node = s.node := rfl
@[simp] theorem treeDone_live (s : State) (d : Nat) : (s.treeDone d).live = s.live := rfl
@[simp] theorem treeDone_code (s : State) (d : Nat) : (s.treeDone d).code = s.code := rfl
@[simp] theorem treeDone_stk (s : State) (d : Nat) : (s.treeDone d).stk = s.stk := rfl
@[simp] theorem treeDone_inp (s : State) (d : Nat) : (s.treeDone d).inp = s.inp := rfl
@[simp] theorem treeDone_out (s : State) (d : Nat) : (s.treeDone d).out = s.out := rfl
@[simp] theorem treeDone_chanLog (s : State) (d : Nat) : (s.treeDone d).chanLog = s.chanLog := rfl
@[simp] theorem treeDone_hostReads (s : State) (d : Nat) : (s.treeDone d).hostReads = s.hostReads := rfl
@[simp] theorem treeDone_pending (s : State) (d : Nat) : (s.treeDone d).pending = s.pending := rfl
@[simp] theorem treeDone_freeCtr (s : State) (d : Nat) : (s.treeDone d).freeCtr = s.freeCtr := rfl

end Sys2Proof.Machine.State
end

