-- ==== Sys2Proof/Laws/Ops.lean ====
section
/-! SUPPORT. The laws of the shared operations: guarded accesses, the channel transactions, `emit(c)`, the link-upward
loop. -/

namespace Sys2Proof.Machine

namespace State

/-! ### Guarded accesses -/

theorem withNode_of_lt {s : State} {i : Nat} {k : NodeEntry → Result} (h : i < s.cfg.nodeCap) :
    s.withNode i k = k (s.nodeAt i) := if_pos h

theorem putNode_of_lt {s : State} {i : Nat} {v : NodeEntry} {k : State → Result} (h : i < s.cfg.nodeCap) :
    s.putNode i v k = k (s.setNode i v) := if_pos h

theorem withStk_of_lt {s : State} {i : Nat} {k : StkEntry → Result} (h : i < s.cfg.stackCap) :
    s.withStk i k = k (s.stkAt i) := if_pos h

theorem putStk_of_lt {s : State} {i : Nat} {v : StkEntry} {k : State → Result} (h : i < s.cfg.stackCap) :
    s.putStk i v k = k (s.setStk i v) := if_pos h

/-- All a guarded read of `NODE` can do when it answers a next state. -/
theorem withNode_next {s t : State} {i : Nat} {k : NodeEntry → Result} (h : s.withNode i k = .next t) :
    i < s.cfg.nodeCap ∧ k (s.nodeAt i) = .next t := by
  unfold withNode at h; split at h
  · exact ⟨‹_›, h⟩
  · cases h

/-- All a guarded write of `NODE` can do when it answers a next state. -/
theorem putNode_next {s t : State} {i : Nat} {v : NodeEntry} {k : State → Result} (h : s.putNode i v k = .next t) :
    i < s.cfg.nodeCap ∧ k (s.setNode i v) = .next t := by
  unfold putNode at h; split at h
  · exact ⟨‹_›, h⟩
  · cases h

/-- All a guarded read of `STK` can do when it answers a next state. -/
theorem withStk_next {s t : State} {i : Nat} {k : StkEntry → Result} (h : s.withStk i k = .next t) :
    i < s.cfg.stackCap ∧ k (s.stkAt i) = .next t := by
  unfold withStk at h; split at h
  · exact ⟨‹_›, h⟩
  · cases h

/-- All a guarded write of `STK` can do when it answers a next state. -/
theorem putStk_next {s t : State} {i : Nat} {v : StkEntry} {k : State → Result} (h : s.putStk i v k = .next t) :
    i < s.cfg.stackCap ∧ k (s.setStk i v) = .next t := by
  unfold putStk at h; split at h
  · exact ⟨‹_›, h⟩
  · cases h

/-! ### Reading after writing -/

theorem freqAt_setFreq {s : State} (h : Memory.wf 0 s.freq = true) (i j v : Nat) :
    (s.setFreq i v).freqAt j = if j = i then v else s.freqAt j := Memory.read_write 0 h i j v

theorem nodeAt_setNode {s : State} (h : Memory.wf NodeEntry.zero s.node = true) (i j : Nat) (v : NodeEntry) :
    (s.setNode i v).nodeAt j = if j = i then v else s.nodeAt j := Memory.read_write NodeEntry.zero h i j v

theorem liveAt_setLive {s : State} (h : Memory.wf false s.live = true) (i j : Nat) (v : Bool) :
    (s.setLive i v).liveAt j = if j = i then v else s.liveAt j := Memory.read_write false h i j v

theorem codeAt_setCode {s : State} (h : Memory.wf CodeEntry.zero s.code = true) (i j : Nat) (v : CodeEntry) :
    (s.setCode i v).codeAt j = if j = i then v else s.codeAt j := Memory.read_write CodeEntry.zero h i j v

theorem stkAt_setStk {s : State} (h : Memory.wf StkEntry.zero s.stk = true) (i j : Nat) (v : StkEntry) :
    (s.setStk i v).stkAt j = if j = i then v else s.stkAt j := Memory.read_write StkEntry.zero h i j v

/-- Setting a live bit adds one live node (R12). -/
theorem popcount_setLive_true {s : State} (h : Memory.wf false s.live = true) {i : Nat} (hi : s.liveAt i = false) :
    (s.setLive i true).popcount = s.popcount + 1 := Memory.count_write_true h hi

/-- Clearing a live bit removes one live node (R12, R276). -/
theorem popcount_setLive_false {s : State} (h : Memory.wf false s.live = true) {i : Nat} (hi : s.liveAt i = true) :
    (s.setLive i false).popcount + 1 = s.popcount := Memory.count_write_false h hi

/-! ### Register arithmetic -/

/-- `IDX_W` bits hold every number up to `NODE_CAP` (R27). -/
theorem nodeCap_lt_idx (c : Config) : c.nodeCap < 2 ^ c.idxW := Nat.lt_log2_self

/-- An index register below `NODE_CAP` does not wrap (R27). -/
theorem idxInc_of_lt {s : State} {a : Nat} (h : a < s.cfg.nodeCap) : s.idxInc a = a + 1 :=
  Nat.mod_eq_of_lt (Nat.lt_of_le_of_lt h (nodeCap_lt_idx _))

/-- A count below `MAX_INPUT` does not wrap (R123). -/
theorem cntAdd_one_of_lt {s : State} {a : Nat} (h : a < s.cfg.maxInput) : s.cntAdd a 1 = a + 1 :=
  Nat.mod_eq_of_lt (by unfold Config.maxInput at h; omega)

/-! ### IN -/

theorem canRead_iff {s : State} {n : Nat} : s.canRead n = true ↔ s.inp.eod = false ∧ s.inp.pos + n ≤ s.inp.bits.length := by
  simp [canRead]

theorem peek_eq_none {s : State} {n : Nat} : s.peek n = none ↔ s.canRead n = false := by
  unfold peek; split <;> simp_all

theorem peek_eq_some {s : State} {n : Nat} {v : Word} (h : s.peek n = some v) :
    s.canRead n = true ∧ v = BitVec.ofNat 32 (valMsb (s.inBits n)) := by
  unfold peek at h; split at h
  · exact ⟨‹_›, (Option.some.inj h).symm⟩
  · cases h

/-- No read changes the contents of `IN` (R62, R266). -/
@[simp] theorem inAfter_bits (s : State) (n : Nat) : (s.inAfter n).bits = s.inp.bits := by
  unfold inAfter; split <;> rfl

/-- No read moves the cursor past the end (R61). -/
theorem inAfter_pos_le (s : State) (n : Nat) : (s.inAfter n).pos ≤ s.inp.bits.length := by
  unfold inAfter; split
  · exact (canRead_iff.mp ‹_›).2
  · simp

/-! ### emit -/

@[simp] theorem emitBits_cfg (val : CodeVal) (k : Nat) (s : State) : (emitBits val k s).cfg = s.cfg := by
  induction k generalizing s with
  | zero => rfl
  | succ k ih => exact ih _

@[simp] theorem emitBits_phase (val : CodeVal) (k : Nat) (s : State) : (emitBits val k s).phase = s.phase := by
  induction k generalizing s with
  | zero => rfl
  | succ k ih => exact ih _

@[simp] theorem emitBits_mode (val : CodeVal) (k : Nat) (s : State) : (emitBits val k s).mode = s.mode := by
  induction k generalizing s with
  | zero => rfl
  | succ k ih => exact ih _

@[simp] theorem emitBits_errcode (val : CodeVal) (k : Nat) (s : State) : (emitBits val k s).errcode = s.errcode := by
  induction k generalizing s with
  | zero => rfl
  | succ k ih => exact ih _

@[simp] theorem emitBits_nsym (val : CodeVal) (k : Nat) (s : State) : (emitBits val k s).nsym = s.nsym := by
  induction k generalizing s with
  | zero => rfl
  | succ k ih => exact ih _

@[simp] theorem emitBits_nnodes (val : CodeVal) (k : Nat) (s : State) : (emitBits val k s).nnodes = s.nnodes := by
  induction k generalizing s with
  | zero => rfl
  | succ k ih => exact ih _

@[simp] theorem emitBits_root (val : CodeVal) (k : Nat) (s : State) : (emitBits val k s).root = s.root := by
  induction k generalizing s with
  | zero => rfl
  | succ k ih => exact ih _

@[simp] theorem emitBits_cur (val : CodeVal) (k : Nat) (s : State) : (emitBits val k s).cur = s.cur := by
  induction k generalizing s with
  | zero => rfl
  | succ k ih => exact ih _

@[simp] theorem emitBits_sp (val : CodeVal) (k : Nat) (s : State) : (emitBits val k s).sp = s.sp := by
  induction k generalizing s with
  | zero => rfl
  | succ k ih => exact ih _

@[simp] theorem emitBits_scan (val : CodeVal) (k : Nat) (s : State) : (emitBits val k s).scan = s.scan := by
  induction k generalizing s with
  | zero => rfl
  | succ k ih => exact ih _

@[simp] theorem emitBits_freq (val : CodeVal) (k : Nat) (s : State) : (emitBits val k s).freq = s.freq := by
  induction k generalizing s with
  | zero => rfl
  | succ k ih => exact ih _

@[simp] theorem emitBits_node (val : CodeVal) (k : Nat) (s : State) : (emitBits val k s).node = s.node := by
  induction k generalizing s with
  | zero => rfl
  | succ k ih => exact ih _

@[simp] theorem emitBits_live (val : CodeVal) (k : Nat) (s : State) : (emitBits val k s).live = s.live := by
  induction k generalizing s with
  | zero => rfl
  | succ k ih => exact ih _

@[simp] theorem emitBits_code (val : CodeVal) (k : Nat) (s : State) : (emitBits val k s).code = s.code := by
  induction k generalizing s with
  | zero => rfl
  | succ k ih => exact ih _

@[simp] theorem emitBits_stk (val : CodeVal) (k : Nat) (s : State) : (emitBits val k s).stk = s.stk := by
  induction k generalizing s with
  | zero => rfl
  | succ k ih => exact ih _

@[simp] theorem emitBits_inp (val : CodeVal) (k : Nat) (s : State) : (emitBits val k s).inp = s.inp := by
  induction k generalizing s with
  | zero => rfl
  | succ k ih => exact ih _

@[simp] theorem emitBits_hostReads (val : CodeVal) (k : Nat) (s : State) : (emitBits val k s).hostReads = s.hostReads := by
  induction k generalizing s with
  | zero => rfl
  | succ k ih => exact ih _

@[simp] theorem emitBits_pending (val : CodeVal) (k : Nat) (s : State) : (emitBits val k s).pending = s.pending := by
  induction k generalizing s with
  | zero => rfl
  | succ k ih => exact ih _

@[simp] theorem emit_cfg (s : State) (c : CodeEntry) : (s.emit c).cfg = s.cfg := emitBits_cfg ..

@[simp] theorem emit_phase (s : State) (c : CodeEntry) : (s.emit c).phase = s.phase := emitBits_phase ..

@[simp] theorem emit_mode (s : State) (c : CodeEntry) : (s.emit c).mode = s.mode := emitBits_mode ..

@[simp] theorem emit_errcode (s : State) (c : CodeEntry) : (s.emit c).errcode = s.errcode := emitBits_errcode ..

@[simp] theorem emit_nsym (s : State) (c : CodeEntry) : (s.emit c).nsym = s.nsym := emitBits_nsym ..

@[simp] theorem emit_nnodes (s : State) (c : CodeEntry) : (s.emit c).nnodes = s.nnodes := emitBits_nnodes ..

@[simp] theorem emit_root (s : State) (c : CodeEntry) : (s.emit c).root = s.root := emitBits_root ..

@[simp] theorem emit_cur (s : State) (c : CodeEntry) : (s.emit c).cur = s.cur := emitBits_cur ..

@[simp] theorem emit_sp (s : State) (c : CodeEntry) : (s.emit c).sp = s.sp := emitBits_sp ..

@[simp] theorem emit_scan (s : State) (c : CodeEntry) : (s.emit c).scan = s.scan := emitBits_scan ..

@[simp] theorem emit_freq (s : State) (c : CodeEntry) : (s.emit c).freq = s.freq := emitBits_freq ..

@[simp] theorem emit_node (s : State) (c : CodeEntry) : (s.emit c).node = s.node := emitBits_node ..

@[simp] theorem emit_live (s : State) (c : CodeEntry) : (s.emit c).live = s.live := emitBits_live ..

@[simp] theorem emit_code (s : State) (c : CodeEntry) : (s.emit c).code = s.code := emitBits_code ..

@[simp] theorem emit_stk (s : State) (c : CodeEntry) : (s.emit c).stk = s.stk := emitBits_stk ..

@[simp] theorem emit_inp (s : State) (c : CodeEntry) : (s.emit c).inp = s.inp := emitBits_inp ..

@[simp] theorem emit_hostReads (s : State) (c : CodeEntry) : (s.emit c).hostReads = s.hostReads := emitBits_hostReads ..

@[simp] theorem emit_pending (s : State) (c : CodeEntry) : (s.emit c).pending = s.pending := emitBits_pending ..

/-- Emitting keeps an open `OUT` open. -/
@[simp] theorem emitBits_closed (val : CodeVal) (k : Nat) (s : State) : (emitBits val k s).out.closed = s.out.closed := by
  induction k generalizing s with
  | zero => rfl
  | succ k ih => exact ih _

/-- One bit is appended to an open `OUT` (R65). -/
theorem writeBit_bits (s : State) (b : Bool) (h : s.out.closed = false) : (s.writeBit b).out.bits = s.out.bits ++ [b] := by
  cases b <;> simp [writeBit, outAppend, h, bitsMsb]

/-- Emitting appends the bits of the code, root edge first (R181). -/
theorem emitBits_bits (val : CodeVal) (k : Nat) (s : State) (h : s.out.closed = false) :
    (emitBits val k s).out.bits = s.out.bits ++ bitsMsb k val.toNat := by
  induction k generalizing s with
  | zero => simp [emitBits, bitsMsb]
  | succ k ih =>
    rw [emitBits, ih _ (by simpa [writeBit] using h), writeBit_bits s _ h]
    simp [bitsMsb, BitVec.getLsbD]

/-- `emit(c)` appends the code of the entry to an open `OUT` (R181). -/
theorem emit_bits (s : State) (c : CodeEntry) (h : s.out.closed = false) :
    (s.emit c).out.bits = s.out.bits ++ bitsMsb c.len.toNat c.val.toNat := emitBits_bits _ _ _ h

/-! ### The link-upward loop -/

theorem linkUp_zero {d : Nat} {s t : State} (h : linkUp 0 d s = .next t) : t = ({ s with sp := 0 } : State).treeDone d := by
  simpa [linkUp] using h.symm

/-- All one turn of the loop can do when it answers a next state: set the right child and go on upwards, or set the left
child and stop. -/
theorem linkUp_succ {k d : Nat} {s t : State} (h : linkUp (k + 1) d s = .next t) :
    k < s.cfg.stackCap ∧ (s.stkAt k).node < s.cfg.nodeCap ∧
    (((s.stkAt k).side = true ∧ linkUp k (s.stkAt k).node
        { s.setNode (s.stkAt k).node { s.nodeAt (s.stkAt k).node with right := d } with sp := k } = .next t) ∨
     ((s.stkAt k).side = false ∧ t = (({ s with sp := k + 1 } : State).setNode (s.stkAt k).node
        { s.nodeAt (s.stkAt k).node with left := d }).setStk k { s.stkAt k with side := true })) := by
  rw [linkUp] at h
  obtain ⟨h1, h⟩ := withStk_next h
  obtain ⟨h2, h⟩ := withNode_next h
  refine ⟨h1, h2, ?_⟩
  cases hs : (s.stkAt k).side with
  | true => rw [hs, if_pos rfl] at h; exact .inl ⟨rfl, h⟩
  | false => rw [hs] at h; exact .inr ⟨rfl, by simpa using h.symm⟩

/-- The loop changes `NODE`, `STK`, `SP`, `ROOT`, `CUR` and `PHASE` only (R166, R167). -/
theorem linkUp_frame {k d : Nat} {s t : State} (h : linkUp k d s = .next t) :
    { t with node := s.node, stk := s.stk, sp := s.sp, root := s.root, cur := s.cur, phase := s.phase } = s := by
  induction k generalizing d s with
  | zero => obtain rfl := linkUp_zero h; rfl
  | succ k ih =>
    obtain ⟨_, _, ⟨_, h⟩ | ⟨_, rfl⟩⟩ := linkUp_succ h
    · have e := ih h
      cases s; cases t; simp_all [setNode]
    · rfl

theorem linkUp_cfg {k d : Nat} {s t : State} (h : linkUp k d s = .next t) : t.cfg = s.cfg := by
  have e := congrArg State.cfg (linkUp_frame h); exact e

theorem linkUp_mode {k d : Nat} {s t : State} (h : linkUp k d s = .next t) : t.mode = s.mode := by
  have e := congrArg State.mode (linkUp_frame h); exact e

theorem linkUp_errcode {k d : Nat} {s t : State} (h : linkUp k d s = .next t) : t.errcode = s.errcode := by
  have e := congrArg State.errcode (linkUp_frame h); exact e

theorem linkUp_nsym {k d : Nat} {s t : State} (h : linkUp k d s = .next t) : t.nsym = s.nsym := by
  have e := congrArg State.nsym (linkUp_frame h); exact e

theorem linkUp_nnodes {k d : Nat} {s t : State} (h : linkUp k d s = .next t) : t.nnodes = s.nnodes := by
  have e := congrArg State.nnodes (linkUp_frame h); exact e

theorem linkUp_scan {k d : Nat} {s t : State} (h : linkUp k d s = .next t) : t.scan = s.scan := by
  have e := congrArg State.scan (linkUp_frame h); exact e

theorem linkUp_freq {k d : Nat} {s t : State} (h : linkUp k d s = .next t) : t.freq = s.freq := by
  have e := congrArg State.freq (linkUp_frame h); exact e

theorem linkUp_live {k d : Nat} {s t : State} (h : linkUp k d s = .next t) : t.live = s.live := by
  have e := congrArg State.live (linkUp_frame h); exact e

theorem linkUp_code {k d : Nat} {s t : State} (h : linkUp k d s = .next t) : t.code = s.code := by
  have e := congrArg State.code (linkUp_frame h); exact e

theorem linkUp_inp {k d : Nat} {s t : State} (h : linkUp k d s = .next t) : t.inp = s.inp := by
  have e := congrArg State.inp (linkUp_frame h); exact e

theorem linkUp_out {k d : Nat} {s t : State} (h : linkUp k d s = .next t) : t.out = s.out := by
  have e := congrArg State.out (linkUp_frame h); exact e

theorem linkUp_chanLog {k d : Nat} {s t : State} (h : linkUp k d s = .next t) : t.chanLog = s.chanLog := by
  have e := congrArg State.chanLog (linkUp_frame h); exact e

theorem linkUp_hostReads {k d : Nat} {s t : State} (h : linkUp k d s = .next t) : t.hostReads = s.hostReads := by
  have e := congrArg State.hostReads (linkUp_frame h); exact e

theorem linkUp_pending {k d : Nat} {s t : State} (h : linkUp k d s = .next t) : t.pending = s.pending := by
  have e := congrArg State.pending (linkUp_frame h); exact e

theorem linkUp_freeCtr {k d : Nat} {s t : State} (h : linkUp k d s = .next t) : t.freeCtr = s.freeCtr := by
  have e := congrArg State.freeCtr (linkUp_frame h); exact e

/-! ### The order of the builder -/

/-- At the default `TIE_ORDER` every node has the same place, so the index decides (R131). -/
@[simp] theorem tieKey_default {c : Config} (h : c.tieOrder = 0) (i : Nat) (l : List NodeEntry) : tieKey c i l = 0 :=
  if_pos h

/-- `TIE_ORDER` refines ascending weight, whatever the order (R131). -/
theorem weight_le_of_before {s : State} {i j : Nat} (h : s.before i j = true) :
    (s.nodeAt i).weight ≤ (s.nodeAt j).weight := by
  simp only [before, Bool.or_eq_true, Bool.and_eq_true, decide_eq_true_eq] at h
  omega

end State

end Sys2Proof.Machine
end

