-- ==== Sys2Proof/Laws/Bits.lean ====
section
/-! SUPPORT. The laws of bit sequences: `bitsMsb` and `valMsb` are inverse, and what a channel read returns in terms of the
bits at the cursor. -/

namespace Sys2Proof

@[simp] theorem bitsMsb_length (n v : Nat) : (bitsMsb n v).length = n := by
  induction n with
  | zero => rfl
  | succ n ih => simp [bitsMsb, ih]

theorem valMsb_cons (b : Bool) (l : List Bool) : valMsb (b :: l) = b.toNat * 2 ^ l.length + valMsb l := by
  have key : ∀ (l : List Bool) (a : Nat), l.foldl (fun a b => 2 * a + b.toNat) a = a * 2 ^ l.length + valMsb l := by
    intro l
    induction l with
    | nil => intro a; simp [valMsb]
    | cons c l ih =>
      intro a
      simp only [List.foldl_cons, List.length_cons, valMsb]
      rw [ih, ih (2 * 0 + c.toNat)]
      ring
  simpa [valMsb] using key l b.toNat

/-- A value of `n` bits is below `2 ^ n`. -/
theorem valMsb_lt (l : List Bool) : valMsb l < 2 ^ l.length := by
  induction l with
  | nil => simp [valMsb]
  | cons b l ih => rw [valMsb_cons, List.length_cons, pow_succ]; cases b <;> simp <;> omega

/-- The value of the `n` low bits. -/
theorem valMsb_bitsMsb (n v : Nat) : valMsb (bitsMsb n v) = v % 2 ^ n := by
  induction n with
  | zero => simp [bitsMsb, valMsb, Nat.mod_one]
  | succ n ih => 
    rw [bitsMsb, valMsb_cons, ih, bitsMsb_length, Nat.mod_pow_succ, Nat.testBit_eq_decide_div_mod_eq]
    rcases Nat.mod_two_eq_zero_or_one (v / 2 ^ n) with h | h
    · simp [h]
    · simp [h]; omega

/-- The bits of a bit vector have its value. -/
theorem valMsb_bitsMsb_toNat {n : Nat} (v : BitVec n) : valMsb (bitsMsb n v.toNat) = v.toNat := by
  rw [valMsb_bitsMsb, Nat.mod_eq_of_lt v.isLt]

theorem bitsMsb_getElem? (n v k : Nat) (h : k < n) : (bitsMsb n v)[k]? = some (v.testBit (n - 1 - k)) := by
  induction n generalizing k with
  | zero => omega
  | succ n ih =>
    cases k with
    | zero => simp [bitsMsb]
    | succ k => rw [bitsMsb, List.getElem?_cons_succ, ih k (by omega)]; congr 2; omega

theorem bitsMsb_valMsb (l : List Bool) : bitsMsb l.length (valMsb l) = l := by
  have key : ∀ (l : List Bool) (a : Nat), bitsMsb l.length (a * 2 ^ l.length + valMsb l) = l := by
    intro l
    induction l with
    | nil => intro a; rfl
    | cons b l ih =>
      intro a
      have e : a * 2 ^ (l.length + 1) + (b.toNat * 2 ^ l.length + valMsb l)
          = (2 * a + b.toNat) * 2 ^ l.length + valMsb l := by ring
      rw [List.length_cons, bitsMsb, valMsb_cons, e, ih]
      congr 1
      rw [Nat.testBit_eq_decide_div_mod_eq, Nat.add_comm, Nat.add_mul_div_right _ _ (by positivity),
        Nat.div_eq_of_lt (valMsb_lt l)]
      cases b <;> simp
  simpa using key l 0

theorem splitBits_append {n : Nat} {a : List Bool} (b : List Bool) (h : a.length = n) :
    splitBits n (a ++ b) = some (a, b) := by
  subst h; simp [splitBits]

end Sys2Proof

namespace Sys2Proof.Machine

/-- The two ways to write the bits of a value in transfer order. -/
theorem msbFirst_eq {n : Nat} (v : BitVec n) : msbFirst v = bitsMsb n v.toNat := by
  apply List.ext_getElem?
  intro k
  by_cases h : k < n
  · rw [bitsMsb_getElem? _ _ _ h]; simp [msbFirst, h, BitVec.getLsbD]
  · simp [msbFirst, h]

theorem stream_eq (c : CodeEntry) : c.stream = bitsMsb c.len.toNat c.val.toNat := by
  apply List.ext_getElem?
  intro k
  by_cases h : k < c.len.toNat
  · rw [bitsMsb_getElem? _ _ _ h]; simp [CodeEntry.stream, h, BitVec.getLsbD]
  · simp [CodeEntry.stream, h]

@[simp] theorem msbFirst_length {n : Nat} (v : BitVec n) : (msbFirst v).length = n := by simp [msbFirst]

namespace State

/-- The bits at the cursor are those of `v`: `readBits(n)` succeeds and returns `v` (R62). -/
theorem Offers.canRead {s : State} {n : Nat} {v : BitVec n} (h : s.Offers v) (hn : 0 < n) : s.canRead n = true := by
  have e := h.2.length_le
  simp only [msbFirst_length, List.length_drop] at e
  exact canRead_iff.mpr ⟨h.1, by omega⟩

theorem Offers.inBits {s : State} {n : Nat} {v : BitVec n} (h : s.Offers v) : s.inBits n = bitsMsb n v.toNat := by
  obtain ⟨r, hr⟩ := h.2
  rw [State.inBits, ← hr, msbFirst_eq]; simp

theorem Offers.peek {s : State} {n : Nat} {v : BitVec n} (h : s.Offers v) (hn : 0 < n) : s.peek n = some (v.setWidth 32) := by
  rw [State.peek, if_pos (h.canRead hn), h.inBits, valMsb_bitsMsb_toNat, BitVec.ofNat_toNat]

theorem Offers.inAfter {s : State} {n : Nat} {v : BitVec n} (h : s.Offers v) (hn : 0 < n) :
    s.inAfter n = s.inp.advanced n := if_pos (h.canRead hn)

/-- Fewer than `n` bits are left: `readBits(n)` returns `EndOfData` (R62). -/
theorem Exhausted.canRead {s : State} {n : Nat} (h : s.Exhausted n) : s.canRead n = false := by
  rcases h with h | h
  · simp [State.canRead, h]
  · simp [State.canRead, h]

theorem Exhausted.peek {s : State} {n : Nat} (h : s.Exhausted n) : s.peek n = none := peek_eq_none.mpr h.canRead

theorem Exhausted.inAfter {s : State} {n : Nat} (h : s.Exhausted n) : s.inAfter n = s.inp.drained := by
  rw [State.inAfter, h.canRead]; rfl

/-- Either a value of `n` bits is there, or the read finds the end of the data. -/
theorem offers_of_canRead {s : State} {n : Nat} (h : s.canRead n = true) :
    s.Offers (BitVec.ofNat n (valMsb (s.inBits n))) := by
  have hr := canRead_iff.mp h
  have hl : (s.inBits n).length = n := by simp [State.inBits]; omega
  refine ⟨hr.1, ?_⟩
  have hv : valMsb (s.inBits n) < 2 ^ n := by simpa [hl] using valMsb_lt (s.inBits n)
  rw [msbFirst_eq, BitVec.toNat_ofNat, Nat.mod_eq_of_lt hv]
  have e := bitsMsb_valMsb (s.inBits n)
  rw [hl] at e
  rw [e]
  exact List.take_prefix _ _

theorem exhausted_iff {s : State} {n : Nat} : s.Exhausted n ↔ s.canRead n = false := by
  constructor
  · exact Exhausted.canRead
  · intro h; unfold State.canRead at h; unfold State.Exhausted
    cases he : s.inp.eod <;> simp_all

end State

end Sys2Proof.Machine
end

