-- ==== Sys2Proof/Laws/Channel.lean ====
section
/-! SUPPORT. What the channel operations do to an open `OUT` and to `IN`, once. -/

namespace Sys2Proof.Machine

/-- The `n` low bits of a word, as `writeBits` takes them and as a value of `n` bits carries them (R65). -/
theorem bitsMsb_setWidth (n : Nat) (v : Word) : bitsMsb n v.toNat = msbFirst (v.setWidth n) := by
  rw [msbFirst_eq, BitVec.toNat_setWidth]
  have key : ∀ k w, k ≤ n → bitsMsb k (w % 2 ^ n) = bitsMsb k w := by
    intro k w
    induction k with
    | zero => intro; rfl
    | succ k ih =>
      intro hk
      simp only [bitsMsb, ih (by omega)]
      congr 1
      simp [Nat.testBit_mod_two_pow]; omega
  exact (key n _ (le_refl _)).symm

namespace State

theorem outCtr_of_open {s : State} (h : s.out.closed = false) : s.outCtr = s.freeCtr := by simp [outCtr, h]

theorem writeBits_open {s : State} (h : s.out.closed = false) (n : Nat) (v : Word) :
    (s.writeBits n v).out = { s.out with bits := s.out.bits ++ bitsMsb n v.toNat } := by
  simp [writeBits, outAppend, h]

theorem writeBits_frame {s : State} (h : s.out.closed = false) (n : Nat) (v : Word) :
    { s.writeBits n v with out := s.out, chanLog := s.chanLog } = s := by
  simp [writeBits, outCtr_of_open h]

theorem closeOut_open {s : State} (h : s.out.closed = false) : s.closeOut.out = s.closedOut := by
  simp [closeOut, outAppend, h, closedOut, padBits, padLen]

theorem closeOut_frame {s : State} (h : s.out.closed = false) :
    { s.closeOut with out := s.out, chanLog := s.chanLog } = s := by
  simp [closeOut, outCtr_of_open h]

/-- One-bit writes in a row append their bits. -/
theorem foldl_writeBit_out {s : State} (l : List Bool) (h : s.out.closed = false) :
    (l.foldl writeBit s).out = { s.out with bits := s.out.bits ++ l } := by
  induction l generalizing s with
  | nil => simp
  | cons b l ih =>
    rw [List.foldl_cons, ih (s := s.writeBit b) h, writeBit_bits s b h]
    simp [writeBit, writeBits]

/-- The transactions of emitted bits; they leave no free value. -/
theorem emitBits_log {s : State} (val : CodeVal) (k : Nat) (h : s.out.closed = false) :
    (emitBits val k s).chanLog = ((bitsMsb k val.toNat).map fun b =>
      (encodeChan (.outWrite 1 (if b then 1 else 0)), chanResponse false 0)).reverse ++ s.chanLog ∧
    (emitBits val k s).freeCtr = s.freeCtr := by
  induction k generalizing s with
  | zero => simp [emitBits, bitsMsb]
  | succ k ih =>
    obtain ⟨h1, h2⟩ := ih (s := s.writeBit (val.getLsbD k)) h
    rw [emitBits, h1, h2]
    constructor
    · simp [bitsMsb, writeBit, writeBits, BitVec.getLsbD]
    · simp [writeBit, writeBits, outCtr, h]

theorem emit_open {s : State} (c : CodeEntry) (h : s.out.closed = false) :
    (s.emit c).out = { s.out with bits := s.out.bits ++ c.stream } := by
  have h1 := emit_bits s c h
  have h2 : (s.emit c).out.closed = s.out.closed := emitBits_closed c.val c.len.toNat s
  rw [stream_eq]
  cases ho : (s.emit c).out
  simp_all

theorem emit_frame {s : State} (c : CodeEntry) (h : s.out.closed = false) :
    { s.emit c with out := s.out, chanLog := s.chanLog } = s := by
  have h2 : (s.emit c).freeCtr = s.freeCtr := (emitBits_log c.val c.len.toNat h).2
  simp [h2]

/-- The bits of a leaf token: the flag, then the nine bits of the symbol (R95). -/
theorem msbFirst_leafToken (v : Sym) : msbFirst (1#1 ++ v) = true :: msbFirst v := by
  rw [msbFirst_eq, msbFirst_eq, BitVec.toNat_append, bitsMsb]
  have h1 : (1#1).toNat <<< 9 ||| v.toNat = 512 + v.toNat := by
    rw [← Nat.shiftLeft_add_eq_or_of_lt v.isLt]; rfl
  have hv := v.isLt
  rw [h1]
  congr 1
  · rw [Nat.testBit_eq_decide_div_mod_eq]; simp; omega
  · have key : ∀ k w, k ≤ 9 → bitsMsb k (512 + w) = bitsMsb k w := by
      intro k w
      induction k with
      | zero => intro; rfl
      | succ k ih =>
        intro hk
        simp only [bitsMsb, ih (by omega)]
        congr 1
        rw [show 512 = 2 ^ 9 by rfl, Nat.testBit_two_pow_add_gt (by omega)]
    exact key 9 _ (le_refl _)

/-- A leaf token at the cursor: the flag can be read, and after it the symbol. -/
theorem Offers.leafToken {s : State} {v : Sym} (h : s.Offers (1#1 ++ v)) :
    s.Offers 1#1 ∧ (s.afterRead 1).Offers v := by
  obtain ⟨h1, r, hr⟩ := h
  rw [msbFirst_leafToken] at hr
  have hd : s.inp.bits.drop s.inp.pos = true :: (msbFirst v ++ r) := by rw [← hr]; rfl
  have ho : s.Offers 1#1 := ⟨h1, by rw [hd]; exact ⟨msbFirst v ++ r, rfl⟩⟩
  refine ⟨ho, ?_, ?_⟩
  · show (s.inAfter 1).eod = false
    rw [ho.inAfter (by omega)]; exact h1
  · show _ <+: (s.inAfter 1).bits.drop (s.inAfter 1).pos
    rw [ho.inAfter (by omega)]
    show _ <+: s.inp.bits.drop (s.inp.pos + 1)
    rw [← List.drop_drop, hd]; exact ⟨r, rfl⟩

/-- `init()` clears `valid` and keeps `len` and `val` (R219). -/
theorem read_invalidate {m : List (Nat × CodeEntry)} (h : Memory.wf CodeEntry.zero m = true) (i : Nat) :
    Memory.read CodeEntry.zero (invalidate m) i = { Memory.read CodeEntry.zero m i with valid := false } := by
  induction m with
  | nil => rfl
  | cons e m ih =>
    have ih := ih (Memory.wf_tail _ h)
    obtain ⟨j, e⟩ := e
    simp only [invalidate]
    rw [Memory.read_cons]
    split
    · rename_i h0
      rw [ih]
      split
      · rename_i hij; subst hij
        rw [h0, Memory.read_eq_default]
        · rfl
        · intro e he hh; have := Memory.wf_head_lt _ h e he; omega
      · rfl
    · rw [Memory.read_cons, ih]; split <;> rfl

end State

end Sys2Proof.Machine
end

