-- ==== Sys2Proof/Laws/Encoding.lean ====
section
/-! SUPPORT. The laws of the channel words (R108): the fields of a request word, and that each of the four transactions
decodes from its own word. -/

namespace Sys2Proof

/-- Bit `i` of a request word. -/
theorem getLsbD_chanWord (a : BitVec 1) (b : BitVec 2) (n : BitVec 6) (v : Word) (i : Nat) :
    (chanWord a b n v).getLsbD i =
      if i < 32 then v.getLsbD i
      else if i - 32 < 6 then n.getLsbD (i - 32)
      else if i - 32 - 6 < 2 then b.getLsbD (i - 32 - 6) else a.getLsbD (i - 32 - 6 - 2) := by
  have h1 := BitVec.getLsbD_append (x := a ++ b ++ n) (y := v) (i := i)
  have h2 := BitVec.getLsbD_append (x := a ++ b) (y := n) (i := i - 32)
  have h3 := BitVec.getLsbD_append (x := a) (y := b) (i := i - 32 - 6)
  rw [h3] at h2
  rw [h2] at h1
  exact h1

theorem chanWord_sel (a : BitVec 1) (b : BitVec 2) (n : BitVec 6) (v : Word) :
    (chanWord a b n v).extractLsb' 38 3 = a ++ b := by
  apply BitVec.eq_of_getLsbD_eq
  intro i hi
  rw [BitVec.getLsbD_extractLsb', getLsbD_chanWord, BitVec.getLsbD_append]
  interval_cases i <;> simp

theorem chanWord_op (a : BitVec 1) (b : BitVec 2) (n : BitVec 6) (v : Word) :
    (chanWord a b n v).extractLsb' 38 2 = b := by
  apply BitVec.eq_of_getLsbD_eq
  intro i hi
  rw [BitVec.getLsbD_extractLsb', getLsbD_chanWord]
  interval_cases i <;> simp

theorem chanWord_chan (a : BitVec 1) (b : BitVec 2) (n : BitVec 6) (v : Word) :
    (chanWord a b n v).getLsbD 40 = a.getLsbD 0 := by
  rw [getLsbD_chanWord]; simp

theorem chanWord_n (a : BitVec 1) (b : BitVec 2) (n : BitVec 6) (v : Word) :
    (chanWord a b n v).extractLsb' 32 6 = n := by
  apply BitVec.eq_of_getLsbD_eq
  intro i hi
  rw [BitVec.getLsbD_extractLsb', getLsbD_chanWord]
  interval_cases i <;> simp

theorem chanWord_v (a : BitVec 1) (b : BitVec 2) (n : BitVec 6) (v : Word) :
    (chanWord a b n v).extractLsb' 0 32 = v := by
  apply BitVec.eq_of_getLsbD_eq
  intro i hi
  rw [BitVec.getLsbD_extractLsb', getLsbD_chanWord]
  simp [hi]

/-- A request word is made of its fields. -/
theorem chanWord_fields (w : ChanReq) {a : BitVec 1} {b : BitVec 2} {n : BitVec 6} {v : Word}
    (hs : w.extractLsb' 38 3 = a ++ b) (hn : w.extractLsb' 32 6 = n) (hv : w.extractLsb' 0 32 = v) :
    chanWord a b n v = w := by
  apply BitVec.eq_of_getLsbD_eq
  intro i hi
  rw [getLsbD_chanWord, ← hv, ← hn]
  have e : ∀ j, j < 3 → w.getLsbD (38 + j) = (a ++ b).getLsbD j := by
    intro j hj; rw [← hs, BitVec.getLsbD_extractLsb']; simp [hj]
  simp only [BitVec.getLsbD_append] at e
  by_cases h1 : i < 32
  · simp [h1]
  by_cases h2 : i < 38
  · have : i - 32 < 6 := by omega
    simp [h1, this]
    congr 1; omega
  obtain rfl | rfl | rfl : i = 38 ∨ i = 39 ∨ i = 40 := by omega
  · simpa using (e 0 (by omega)).symm
  · simpa using (e 1 (by omega)).symm
  · simpa using (e 2 (by omega)).symm

theorem decodeChan_inRead (n : BitVec 6) :
    decodeChan (encodeChan (.inRead n)) = .ok (.inRead n) := by
  simp [decodeChan, encodeChan, chanWord_sel, chanWord_n, chanWord_v]

theorem decodeChan_outWrite (n : BitVec 6) (v : Word) :
    decodeChan (encodeChan (.outWrite n v)) = .ok (.outWrite n v) := by
  simp [decodeChan, encodeChan, chanWord_sel, chanWord_n, chanWord_v]

theorem decodeChan_inReset : decodeChan (encodeChan .inReset) = .ok .inReset := by decide

theorem decodeChan_outClose : decodeChan (encodeChan .outClose) = .ok .outClose := by decide

end Sys2Proof
end

