-- ==== Sys2Proof/Laws/Invariant.lean ====
section
/-! SUPPORT. A check of the invariant that can be evaluated on a concrete state. -/

namespace Sys2Proof.Machine

/-- What holds of every listed entry and of the default holds of every entry. -/
theorem Memory.read_all {α : Type} {d : α} {p : α → Bool} {m : List (Nat × α)} (hd : p d = true)
    (h : (m.all fun e => p e.2) = true) (i : Nat) : p (Memory.read d m i) = true := by
  induction m with
  | nil => exact hd
  | cons e m ih =>
    obtain ⟨j, u⟩ := e
    rw [List.all_cons, Bool.and_eq_true] at h
    rw [Memory.read_cons]
    split
    · exact h.1
    · exact ih h.2

namespace State

/-- `MemoriesOk` as a check. -/
def checkMemories (s : State) : Bool :=
  Memory.wf 0 s.freq && Memory.wf NodeEntry.zero s.node && Memory.wf false s.live && Memory.wf CodeEntry.zero s.code &&
  Memory.wf StkEntry.zero s.stk && Memory.below Config.nsyms s.freq && Memory.below s.cfg.nodeCap s.node &&
  Memory.below s.cfg.nodeCap s.live && Memory.below Config.nsyms s.code && Memory.below s.cfg.stackCap s.stk

/-- `WidthsOk` as a check. -/
def checkWidths (s : State) : Bool :=
  decide (s.nsym ≤ s.cfg.maxInput) && decide (s.nnodes ≤ s.cfg.nodeCap) && decide (s.root < 2 ^ s.cfg.idxW) &&
  decide (s.cur < 2 ^ s.cfg.idxW) && decide (s.sp ≤ s.cfg.stackCap) && decide (s.scan.toNat ≤ 256) &&
  (s.freq.all fun e => decide (e.2 < 2 ^ s.cfg.cntW)) &&
  (s.node.all fun e => decide (e.2.weight < 2 ^ s.cfg.cntW) && decide (e.2.left < 2 ^ s.cfg.idxW) &&
    decide (e.2.right < 2 ^ s.cfg.idxW)) &&
  (s.stk.all fun e => decide (e.2.node < 2 ^ s.cfg.idxW))

/-- `Inv` as a check. -/
def checkInv (s : State) : Bool :=
  s.cfg.wf && s.checkMemories && s.checkWidths && decide (s.errcode ≠ .none ↔ s.phase = .fault) &&
  decide (s.phase.ofCompress = true → s.mode = .compress) && decide (s.phase.ofDecompress = true → s.mode = .decompress) &&
  decide (s.inp.pos ≤ s.inp.bits.length)

theorem memoriesOk_of_check {s : State} (h : s.checkMemories = true) : s.MemoriesOk := by
  simp only [checkMemories, Bool.and_eq_true] at h
  obtain ⟨⟨⟨⟨⟨⟨⟨⟨⟨h1, h2⟩, h3⟩, h4⟩, h5⟩, h6⟩, h7⟩, h8⟩, h9⟩, h10⟩ := h
  exact ⟨h1, h2, h3, h4, h5, h6, h7, h8, h9, h10⟩

theorem widthsOk_of_check {s : State} (h : s.checkWidths = true) : s.WidthsOk := by
  simp only [checkWidths, Bool.and_eq_true] at h
  obtain ⟨⟨⟨⟨⟨⟨⟨⟨h1, h2⟩, h3⟩, h4⟩, h5⟩, h6⟩, h7⟩, h8⟩, h9⟩ := h
  have pc : 0 < 2 ^ s.cfg.cntW := Nat.two_pow_pos _
  have pi : 0 < 2 ^ s.cfg.idxW := Nat.two_pow_pos _
  have hn : ∀ i, (decide ((s.nodeAt i).weight < 2 ^ s.cfg.cntW) && decide ((s.nodeAt i).left < 2 ^ s.cfg.idxW) &&
      decide ((s.nodeAt i).right < 2 ^ s.cfg.idxW)) = true :=
    Memory.read_all (p := fun e : NodeEntry => decide (e.weight < 2 ^ s.cfg.cntW) && decide (e.left < 2 ^ s.cfg.idxW) &&
      decide (e.right < 2 ^ s.cfg.idxW)) (by simp [NodeEntry.zero, pc, pi]) h8
  simp only [Bool.and_eq_true, decide_eq_true_eq] at hn
  exact
    { nsym := of_decide_eq_true h1, nnodes := of_decide_eq_true h2, root := of_decide_eq_true h3
      cur := of_decide_eq_true h4, sp := of_decide_eq_true h5, scan := of_decide_eq_true h6
      freq := fun i => of_decide_eq_true
        (Memory.read_all (p := fun v => decide (v < 2 ^ s.cfg.cntW)) (decide_eq_true pc) h7 i)
      weight := fun i => (hn i).1.1, left := fun i => (hn i).1.2, right := fun i => (hn i).2
      stkNode := fun i => of_decide_eq_true
        (Memory.read_all (p := fun e : StkEntry => decide (e.node < 2 ^ s.cfg.idxW)) (decide_eq_true pi) h9 i) }

/-- The check establishes the invariant. -/
theorem inv_of_check {s : State} (h : s.checkInv = true) : s.Inv := by
  simp only [checkInv, Bool.and_eq_true] at h
  obtain ⟨⟨⟨⟨⟨⟨h1, h2⟩, h3⟩, h4⟩, h5⟩, h6⟩, h7⟩ := h
  exact ⟨h1, memoriesOk_of_check h2, widthsOk_of_check h3, of_decide_eq_true h4, of_decide_eq_true h5,
    of_decide_eq_true h6, of_decide_eq_true h7⟩

end State

end Sys2Proof.Machine
end

