-- ==== Sys2Proof/Laws/PerInstr.lean ====
section
/-! SUPPORT. One property of every instruction's encoding: a bit sequence that stops inside it is rejected, so that no
format is a prefix of itself cut short (R101, R103). -/

namespace Sys2Proof

/-- A walk along a strict prefix of a symbol's path reaches no leaf (R103). -/
theorem Tree.walk?_of_strict_prefix {s : Sym} {t : Sys2Proof.Tree} {p q : List Bool} (hp : t.path? s = some p) (hq : q <+: p)
    (hne : q ≠ p) : t.walk? q = none := by
  induction t generalizing p q with
  | leaf s' =>
    simp only [Tree.path?] at hp
    split at hp
    · cases hp; exact absurd (List.prefix_nil.mp hq) hne
    · cases hp
  | node l r ihl ihr =>
    cases q with
    | nil => rfl
    | cons b q =>
      simp only [Tree.path?] at hp
      split at hp
      · rename_i p' hl
        cases hp
        obtain ⟨rfl, hq'⟩ := List.cons_prefix_cons.mp hq
        exact ihl hl hq' (fun e => hne (by rw [e]))
      · obtain ⟨p', hr, rfl⟩ := Option.map_eq_some_iff.mp hp
        obtain ⟨rfl, hq'⟩ := List.cons_prefix_cons.mp hq
        exact ihr hr hq' (fun e => hne (by rw [e]))

theorem splitBits_of_short {n : Nat} {bits : List Bool} (h : bits.length < n) : splitBits n bits = none := by
  rw [splitBits, if_neg (by omega)]

/-- A strict prefix of `n` bits is short. -/
theorem length_lt_of_strict_prefix {a b : List Bool} {n : Nat} (h : a <+: b) (hne : a ≠ b) (hb : b.length = n) :
    a.length < n := by
  have h1 := h.length_le
  have h2 : a.length ≠ b.length := fun e => hne (h.eq_of_length e)
  omega

end Sys2Proof

namespace Sys2Proof.Laws.Truncated

/-- What stands at the instruction's place and stops inside its encoding is rejected by name. -/
def Statement (i : Instr) : Prop :=
  ∀ (c : Config) (t : Sys2Proof.Tree) (len : Nat) (bits : List Bool), bits <+: encode c t i → bits ≠ encode c t i →
    (∀ p, i = .tokPad p → p.toNat = padLen len) → ∃ e, decode c (placeOf t len i) bits = .error e

theorem of_cmd {v : Nat} {c : Config} {bits : List Bool} (h : bits <+: bitsMsb 32 v) (hne : bits ≠ bitsMsb 32 v) :
    ∃ e, decode c .cmd bits = .error e :=
  ⟨.shortWord, by simp only [decode, splitBits_of_short (length_lt_of_strict_prefix h hne (bitsMsb_length _ _))]⟩

theorem of_phase {v : Nat} {c : Config} {bits : List Bool} (h : bits <+: bitsMsb 4 v) (hne : bits ≠ bitsMsb 4 v) :
    ∃ e, decode c .phase bits = .error e :=
  ⟨.shortWord, by simp only [decode, splitBits_of_short (length_lt_of_strict_prefix h hne (bitsMsb_length _ _))]⟩

theorem of_chan {v : Nat} {c : Config} {bits : List Bool} (h : bits <+: bitsMsb 41 v) (hne : bits ≠ bitsMsb 41 v) :
    ∃ e, decode c .chan bits = .error e :=
  ⟨.shortWord, by simp only [decode, splitBits_of_short (length_lt_of_strict_prefix h hne (bitsMsb_length _ _))]⟩

theorem nop : Statement .nop := fun _ _ _ _ h hne _ => of_cmd h hne
theorem compress : Statement .compress := fun _ _ _ _ h hne _ => of_cmd h hne
theorem decompress : Statement .decompress := fun _ _ _ _ h hne _ => of_cmd h hne
theorem clear : Statement .clear := fun _ _ _ _ h hne _ => of_cmd h hne

theorem tokMagic : Statement .tokMagic := fun c _ _ bits h hne _ =>
  ⟨.badMagic, by
    simp only [placeOf, decode, splitBits_of_short (length_lt_of_strict_prefix h hne (bitsMsb_length 32 c.magic.toNat))]⟩

theorem tokI : Statement .tokI := fun _ _ _ bits h hne _ => by
  have hl := length_lt_of_strict_prefix h hne (n := 1) rfl
  obtain rfl : bits = [] := List.eq_nil_of_length_eq_zero (by omega)
  exact ⟨.treeEnds, rfl⟩

theorem tokL (s : Sym) : Statement (.tokL s) := fun _ _ _ bits h hne _ => by
  cases bits with
  | nil => exact ⟨.treeEnds, rfl⟩
  | cons b bits =>
    obtain ⟨rfl, h'⟩ := List.cons_prefix_cons.mp h
    have hl := length_lt_of_strict_prefix h' (fun e => hne (by rw [e]; rfl)) (bitsMsb_length 9 s.toNat)
    exact ⟨.treeEnds, by simp only [placeOf, decode, decodeTreeToken, splitBits_of_short hl]⟩

theorem tokC (s : Sym) : Statement (.tokC s) := fun _ t _ bits h hne _ => by
  simp only [encode] at h hne
  cases hp : t.path? s with
  | none => rw [hp] at h hne; exact absurd (List.prefix_nil.mp h) hne
  | some p =>
    rw [hp] at h hne
    exact ⟨.payloadEnds, by simp only [placeOf, decode, Tree.walk?_of_strict_prefix hp h hne]⟩

theorem tokPad (p : BitVec 3) : Statement (.tokPad p) := fun c _ len bits h hne hp => by
  have hl := length_lt_of_strict_prefix h hne (n := padLen len) (by simp [encode, hp p rfl])
  exact ⟨.paddingEnds, by simp only [placeOf, decode, splitBits_of_short hl]⟩

theorem phaseIdle : Statement .phaseIdle := fun _ _ _ _ h hne _ => of_phase h hne
theorem phaseCount : Statement .phaseCount := fun _ _ _ _ h hne _ => of_phase h hne
theorem phaseBuildInit : Statement .phaseBuildInit := fun _ _ _ _ h hne _ => of_phase h hne
theorem phaseBuildMerge : Statement .phaseBuildMerge := fun _ _ _ _ h hne _ => of_phase h hne
theorem phaseDerive : Statement .phaseDerive := fun _ _ _ _ h hne _ => of_phase h hne
theorem phaseWrMagic : Statement .phaseWrMagic := fun _ _ _ _ h hne _ => of_phase h hne
theorem phaseWrTree : Statement .phaseWrTree := fun _ _ _ _ h hne _ => of_phase h hne
theorem phaseRewind : Statement .phaseRewind := fun _ _ _ _ h hne _ => of_phase h hne
theorem phaseEncode : Statement .phaseEncode := fun _ _ _ _ h hne _ => of_phase h hne
theorem phaseWrEof : Statement .phaseWrEof := fun _ _ _ _ h hne _ => of_phase h hne
theorem phaseClose : Statement .phaseClose := fun _ _ _ _ h hne _ => of_phase h hne
theorem phaseRdMagic : Statement .phaseRdMagic := fun _ _ _ _ h hne _ => of_phase h hne
theorem phaseRdTree : Statement .phaseRdTree := fun _ _ _ _ h hne _ => of_phase h hne
theorem phaseDecode : Statement .phaseDecode := fun _ _ _ _ h hne _ => of_phase h hne
theorem phaseDone : Statement .phaseDone := fun _ _ _ _ h hne _ => of_phase h hne
theorem phaseFault : Statement .phaseFault := fun _ _ _ _ h hne _ => of_phase h hne
theorem inRead (n : BitVec 6) : Statement (.inRead n) := fun _ _ _ _ h hne _ => of_chan h hne
theorem inReset : Statement .inReset := fun _ _ _ _ h hne _ => of_chan h hne
theorem outWrite (n : BitVec 6) (v : Word) : Statement (.outWrite n v) := fun _ _ _ _ h hne _ => of_chan h hne
theorem outClose : Statement .outClose := fun _ _ _ _ h hne _ => of_chan h hne

end Sys2Proof.Laws.Truncated
end

