-- ==== Sys2Proof/Laws/Phases.lean ====
section
/-! SUPPORT. What each phase's step can do, once: if it answers `next t`, then which case held and what `t` is. -/

namespace Sys2Proof.Machine

open State

/-- The link-upward loop leaves the phase or hands over to `DECODE` (R166, R167). -/
theorem linkUp_phase {k d : Nat} {s t : State} (h : linkUp k d s = .next t) :
    t.phase = s.phase ∨ t.phase = .decode := by
  induction k generalizing d s with
  | zero => obtain rfl := linkUp_zero h; exact .inr rfl
  | succ k ih =>
    obtain ⟨_, _, ⟨_, h⟩ | ⟨_, rfl⟩⟩ := linkUp_succ h
    · exact ih (s := { s.setNode (s.stkAt k).node { s.nodeAt (s.stkAt k).node with right := d } with sp := k }) h
    · exact .inl rfl

/-- One merge: the second minimum exists, the memory has room, and the two become children (R135). -/
theorem merge_next {s t : State} {a} (h : s.merge a = .next t) :
    ∃ b, (s.setLive a false).minlive = some b ∧ s.nnodes < s.cfg.nodeCap ∧
    t = (setNode s.nnodes (s.mergedNode a b) ((s.setLive a false).setLive b false)).insertNode := by
  unfold merge at h; split at h
  · cases h
  · rename_i b hb
    obtain ⟨h1, h2⟩ := putNode_next h
    exact ⟨b, hb, h1, (by simpa using h2.symm)⟩

/-- The finishing step of `BUILD_MERGE` (R135). -/
theorem finishTree_next {s t : State} {a} (h : s.finishTree a = .next t) :
    0 < s.cfg.stackCap ∧ t =
    { setStk 0 (StkEntry.start a) { s.setLive a false with root := a } with sp := 1, phase := .derive } := by
  unfold finishTree at h
  obtain ⟨h1, h2⟩ := putStk_next h
  exact ⟨h1, (by simpa using h2.symm)⟩

/-- Everything `BUILD_MERGE` can do (R135). -/
theorem execPhaseBuildMerge_next {s t : State} (h : execPhaseBuildMerge s = .next t) :
    ∃ a, s.minlive = some a ∧ ((s.popcount = 1 ∧ s.finishTree a = .next t) ∨ (s.popcount ≠ 1 ∧
    s.merge a = .next t)) := by
  unfold execPhaseBuildMerge at h; split at h
  · cases h
  · rename_i a ha
    refine ⟨a, ha, ?_⟩
    split at h
    · exact .inl ⟨‹_›, h⟩
    · exact .inr ⟨‹_›, h⟩

/-- Everything `BUILD_INIT` can do (R133). -/
theorem execPhaseBuildInit_next {s t : State} (h : execPhaseBuildInit s = .next t) :
    s.scan.toNat ≤ 256 ∧ ((s.freqAt s.scan.toNat = 0 ∧ t = s.nextSymbol) ∨ (s.freqAt s.scan.toNat ≠ 0 ∧
    s.nnodes < s.cfg.nodeCap ∧ t = (s.setNode s.nnodes s.builtLeaf).insertNode.nextSymbol)) := by
  unfold execPhaseBuildInit at h; split at h
  · cases h
  · rename_i h0
    refine ⟨by omega, ?_⟩
    split at h
    · rename_i hf
      exact .inl ⟨hf, (by simpa using h.symm)⟩
    · rename_i hf
      obtain ⟨h1, h2⟩ := putNode_next h
      exact .inr ⟨hf, h1, (by simpa using h2.symm)⟩

/-- Everything `DERIVE` can do (R148). -/
theorem execPhaseDerive_next {s t : State} (h : execPhaseDerive s = .next t) :
    (s.sp = 0 ∧ t = { s with phase := .wrMagic }) ∨ ∃ k, s.sp = k + 1 ∧ k < s.cfg.stackCap ∧
    (s.stkAt k).node < s.cfg.nodeCap ∧ (((s.nodeAt (s.stkAt k).node).leaf = true ∧
    (s.nodeAt (s.stkAt k).node).sym.toNat ≤ 256 ∧ t = ({ s with sp := k } : State).setCode (s.nodeAt (s.stkAt
    k).node).sym.toNat { valid := true, len := (s.stkAt k).len, val := (s.stkAt k).val }) ∨
    ((s.nodeAt (s.stkAt k).node).leaf = false ∧ k + 1 < s.cfg.stackCap ∧
    t =
    { (s.setStk k ((s.stkAt k).right (s.nodeAt (s.stkAt k).node).right)).setStk (k+1) ((s.stkAt k).left (s.nodeAt (s.stkAt k).node).left) with sp := s.idxInc (k+1) })) := by
  unfold execPhaseDerive at h; split at h
  · rename_i h0; exact .inl ⟨h0, (by simpa using h.symm)⟩
  · rename_i k hk
    obtain ⟨h1, h⟩ := withStk_next h
    obtain ⟨h2, h⟩ := withNode_next h
    refine .inr ⟨k, hk, h1, h2, ?_⟩
    split at h
    · rename_i hl
      unfold recordCode at h; split at h
      · exact .inl ⟨hl, ‹_›, (by simpa using h.symm)⟩
      · cases h
    · rename_i hl
      obtain ⟨_, h⟩ := putStk_next h
      obtain ⟨h3, h⟩ := putStk_next h
      exact .inr ⟨by simpa using hl, h3, (by simpa using h.symm)⟩

/-- Everything `WR_TREE` can do (R161). -/
theorem execPhaseWrTree_next {s t : State} (h : execPhaseWrTree s = .next t) :
    (s.sp = 0 ∧ t = { s with phase := .rewind }) ∨ ∃ k, s.sp = k + 1 ∧ k < s.cfg.stackCap ∧
    (s.stkAt k).node < s.cfg.nodeCap ∧ (((s.nodeAt (s.stkAt k).node).leaf = true ∧
    t = { s.writeLeafToken (s.nodeAt (s.stkAt k).node).sym with sp := k }) ∨
    ((s.nodeAt (s.stkAt k).node).leaf = false ∧ k + 1 < s.cfg.stackCap ∧
    t =
    { (s.writeInnerToken.setStk k { s.stkAt k with node := (s.nodeAt (s.stkAt k).node).right }).setStk (k+1) { (s.writeInnerToken.setStk k { s.stkAt k with node := (s.nodeAt (s.stkAt k).node).right }).stkAt (k+1) with node := (s.nodeAt (s.stkAt k).node).left } with sp := s.idxInc (k+1) })) := by
  unfold execPhaseWrTree at h; split at h
  · rename_i h0; exact .inl ⟨h0, (by simpa using h.symm)⟩
  · rename_i k hk
    obtain ⟨h1, h⟩ := withStk_next h
    obtain ⟨h2, h⟩ := withNode_next h
    refine .inr ⟨k, hk, h1, h2, ?_⟩
    split at h
    · rename_i hl
      exact .inl ⟨hl, (by simpa using h.symm)⟩
    · rename_i hl
      unfold putStkNode at h
      obtain ⟨_, h⟩ := putStk_next h
      obtain ⟨h3, h⟩ := putStk_next h
      exact .inr ⟨by simpa using hl, h3, (by injection h with h; exact h.symm)⟩

/-- Everything `WR_MAGIC` can do (R177). -/
theorem execPhaseWrMagic_next {s t : State} (h : execPhaseWrMagic s = .next t) :
    0 < s.cfg.stackCap ∧ t = { s.writeMagic.setStk 0 (StkEntry.start s.root) with sp := 1, phase := .wrTree } := by
  unfold execPhaseWrMagic at h
  obtain ⟨h1, h2⟩ := putStk_next h
  exact ⟨h1, (by simpa using h2.symm)⟩

/-- Everything `COUNT` can do (R122). -/
theorem execPhaseCount_next {s t : State} (h : execPhaseCount s = .next t) :
    (s.peek 8 = none ∧ t = (s.afterRead 8).countEnd) ∨ ∃ r, s.peek 8 = some r ∧ ((s.nsym = s.cfg.maxInput ∧
    t = (s.afterRead 8).raise .countOvf) ∨ (s.nsym ≠ s.cfg.maxInput ∧ t = (s.afterRead 8).countByte r.toNat)) := by
  unfold execPhaseCount at h; split at h
  · exact .inl ⟨‹_›, (by simpa using h.symm)⟩
  · rename_i r hr
    refine .inr ⟨r, hr, ?_⟩
    split at h
    · exact .inl ⟨‹_›, (by simpa using h.symm)⟩
    · exact .inr ⟨‹_›, (by simpa using h.symm)⟩

/-- Everything `ENCODE` can do (R180). -/
theorem execPhaseEncode_next {s t : State} (h : execPhaseEncode s = .next t) :
    (s.peek 8 = none ∧ t = { s.afterRead 8 with phase := .wrEof }) ∨ ∃ r, s.peek 8 = some r ∧
    (((s.codeAt r.toNat).valid = true ∧ t = (s.afterRead 8).emit (s.codeAt r.toNat)) ∨
    ((s.codeAt r.toNat).valid = false ∧ t = (s.afterRead 8).raise .noCode)) := by
  unfold execPhaseEncode at h; split at h
  · exact .inl ⟨‹_›, (by simpa using h.symm)⟩
  · rename_i r hr
    refine .inr ⟨r, hr, ?_⟩
    split at h
    · exact .inl ⟨‹_›, (by simpa using h.symm)⟩
    · rename_i hv; exact .inr ⟨by simpa using hv, (by simpa using h.symm)⟩

/-- Everything `RD_MAGIC` can do (R197). -/
theorem execPhaseRdMagic_next {s t : State} (h : execPhaseRdMagic s = .next t) :
    (s.peek 32 = some s.cfg.magic ∧ t = { s.afterRead 32 with sp := 0, phase := .rdTree }) ∨
    (s.peek 32 ≠ some s.cfg.magic ∧ t = (s.afterRead 32).raise .format) := by
  unfold execPhaseRdMagic at h; split at h
  · exact .inl ⟨‹_›, (by simpa using h.symm)⟩
  · exact .inr ⟨‹_›, (by simpa using h.symm)⟩

/-- `RD_TREE` after a token `I` (R166). -/
theorem takeInner_next {s t : State} (h : s.takeInner = .next t) :
    s.nnodes < s.cfg.nodeCap ∧ s.sp < s.cfg.stackCap ∧ t =
    { (s.setNode s.nnodes s.readInner).setStk s.sp { node := s.nnodes, side := false, len := 0, val := 0 } with sp := s.idxInc s.sp, nnodes := s.idxInc s.nnodes } := by
  unfold takeInner at h
  obtain ⟨h1, h⟩ := putNode_next h
  obtain ⟨h2, h⟩ := putStk_next h
  exact ⟨h1, h2, (by simpa using h.symm)⟩

/-- `RD_TREE` after a token `L(v)` (R166). -/
theorem takeLeaf_next {s t : State} {v} (h : s.takeLeaf v = .next t) :
    s.nnodes < s.cfg.nodeCap ∧ linkUp s.sp s.nnodes
    { s.setNode s.nnodes (s.readLeaf v) with nnodes := s.idxInc s.nnodes } = .next t := by
  unfold takeLeaf at h
  exact putNode_next h

/-- Everything `RD_TREE` can do (R166). -/
theorem execPhaseRdTree_next {s t : State} (h : execPhaseRdTree s = .next t) :
    (s.nnodes = s.cfg.nodeCap ∧ t = s.raise .treeOvf) ∨ (s.nnodes ≠ s.cfg.nodeCap ∧ ((s.peek 1 = none ∧
    t = (s.afterRead 1).raise .header) ∨ (s.peek 1 = some 0 ∧ (s.afterRead 1).takeInner = .next t) ∨ (∃ f,
    s.peek 1 = some f ∧ f ≠ 0 ∧ (((s.afterRead 1).peek 9 = none ∧
    t = ((s.afterRead 1).afterRead 9).raise .header) ∨ ∃ v, (s.afterRead 1).peek 9 = some v ∧
    ((s.afterRead 1).afterRead 9).takeLeaf (v.setWidth 9) = .next t)))) := by
  unfold execPhaseRdTree at h; split at h
  · exact .inl ⟨‹_›, (by simpa using h.symm)⟩
  · refine .inr ⟨‹_›, ?_⟩
    split at h
    · exact .inl ⟨‹_›, (by simpa using h.symm)⟩
    · rename_i f hf
      split at h
      · rename_i h0; subst h0; exact .inr (.inl ⟨hf, h⟩)
      · rename_i h0
        refine .inr (.inr ⟨f, hf, h0, ?_⟩)
        split at h
        · exact .inl ⟨‹_›, (by simpa using h.symm)⟩
        · rename_i v hv; exact .inr ⟨v, hv, h⟩

/-- Everything `DECODE` can do (R201). -/
theorem execPhaseDecode_next {s t : State} (h : execPhaseDecode s = .next t) :
    s.cur < s.cfg.nodeCap ∧ (((s.nodeAt s.cur).leaf = true ∧ t = s.leafRoot (s.nodeAt s.cur).sym) ∨
    ((s.nodeAt s.cur).leaf = false ∧ ((s.peek 1 = none ∧ t = (s.afterRead 1).raise .trunc) ∨ ∃ b c,
    s.peek 1 = some b ∧ c = (if b = 0 then (s.nodeAt s.cur).left else (s.nodeAt s.cur).right) ∧ c < s.cfg.nodeCap ∧
    t = if (s.nodeAt c).leaf then leafAction (s.nodeAt c).sym { s.afterRead 1 with cur := c } else
    { s.afterRead 1 with cur := c }))) := by
  unfold execPhaseDecode at h
  obtain ⟨h1, h⟩ := withNode_next h
  refine ⟨h1, ?_⟩
  split at h
  · exact .inl ⟨‹_›, (by simpa using h.symm)⟩
  · rename_i hl
    refine .inr ⟨by simpa using hl, ?_⟩
    split at h
    · exact .inl ⟨‹_›, (by simpa using h.symm)⟩
    · rename_i b hb
      unfold arrive at h
      obtain ⟨h2, h⟩ := withNode_next h
      exact .inr ⟨b, _, hb, rfl, h2, (by injection h with h; exact h.symm)⟩

/-- The three outcomes of `leaf_action` (R203). -/
theorem leafAction_cases (s : State) (v : Sym) :
    (v = eofSym ∧ s.leafAction v = { s.closeOut with phase := .done }) ∨ (v ≠ eofSym ∧ 256 < v.toNat ∧
    s.leafAction v = s.raise .symRange) ∨ (v.toNat < 256 ∧
    s.leafAction v = { s.writeBits 8 (v.setWidth 32) with cur := s.root }) := by
  unfold leafAction
  split
  · exact .inl ⟨‹_›, rfl⟩
  · rename_i h
    split
    · exact .inr (.inl ⟨h, ‹_›, rfl⟩)
    · refine .inr (.inr ⟨?_, rfl⟩)
      have : v.toNat ≠ 256 := fun e => h (BitVec.eq_of_toNat_eq e)
      omega

/-- The two outcomes of `DECODE` on a leaf root (R199). -/
theorem leafRoot_cases (s : State) (v : Sym) :
    (v = eofSym ∧ s.leafRoot v = { s.closeOut with phase := .done }) ∨ (v ≠ eofSym ∧
    s.leafRoot v = s.raise .leafRoot) := by
  unfold leafRoot
  split
  · exact .inl ⟨‹_›, rfl⟩
  · exact .inr ⟨‹_›, rfl⟩

/-- Replaying a list of transactions is replaying its parts in order. -/
theorem replay_append (ws ws' : List ChanReq) (s : State) : replay (ws ++ ws') s = replay ws' (replay ws s) := by
  induction ws generalizing s with
  | nil => rfl
  | cons w ws ih => simp only [List.cons_append, replay]; split <;> exact ih _

end Sys2Proof.Machine
end

