-- ==== Sys2Proof/Tests/Slice0.lean ====
section
/-! SUPPORT. The model's own tests. Every expected value is from `spec/`: the encodings of `30_encoding.md` and the vectors
of `95_test_vectors.md`, named in the comments. -/

namespace Sys2Proof.Tests

open Sys2Proof Sys2Proof.Machine

/-! ### WellFormed refuses -/

theorem test_wf_codeword_symbol_300 : (Instr.tokC 300).wf = false := by decide
theorem test_wf_codeword_symbol_257 : (Instr.tokC 257).wf = false := by decide
theorem test_wf_codeword_symbol_256 : (Instr.tokC 256).wf = true := by decide
theorem test_wf_read_width_0 : (Instr.inRead 0).wf = false := by decide
theorem test_wf_read_width_33 : (Instr.inRead 33).wf = false := by decide
theorem test_wf_write_width_0 : (Instr.outWrite 0 1).wf = false := by decide
theorem test_wf_write_width_40 : (Instr.outWrite 40 1).wf = false := by decide
theorem test_wf_leaf_reserved : (Instr.tokL 511).wf = true := by decide

/-! ### Decoding: a word of every row, from the encodings of R93 to R98, R105, R106, R108 -/

/-- R105: the two low bits of the word, all others ignored (`0xFFFFFFFD` is `COMPRESS`). -/
theorem test_decode_commands :
    decodeCmd 0x00000000 = .nop ∧ decodeCmd 0x00000001 = .compress ∧ decodeCmd 0xFFFFFFFD = .compress ∧
    decodeCmd 0x00000002 = .decompress ∧ decodeCmd 0x80000003 = .clear := by decide

/-- R106: the sixteen codes. -/
theorem test_decode_phases :
    [0x0, 0x1, 0x2, 0x3, 0x4, 0x5, 0x6, 0x7].map decodePhase =
      [.phaseIdle, .phaseCount, .phaseBuildInit, .phaseBuildMerge, .phaseDerive, .phaseWrMagic, .phaseWrTree,
       .phaseRewind] ∧
    [0x8, 0x9, 0xA, 0xB, 0xC, 0xD, 0xE, 0xF].map decodePhase =
      [.phaseEncode, .phaseWrEof, .phaseClose, .phaseRdMagic, .phaseRdTree, .phaseDecode, .phaseDone,
       .phaseFault] := by decide

/-- The word as written for `readBits(8)`, `reset()`, `writeBits(1, 1)`, `writeBits(32, MAGIC)`, `close()`. -/
theorem test_decode_channel_words :
    decodeChan 0x00800000000 = .ok (.inRead 8) ∧ decodeChan 0x02000000000 = .ok (.inRead 32) ∧
    decodeChan 0x08000000000 = .ok .inReset ∧ decodeChan 0x14100000001 = .ok (.outWrite 1 1) ∧
    decodeChan 0x160FACE8201 = .ok (.outWrite 32 0xFACE8201) ∧ decodeChan 0x1C000000000 = .ok .outClose := by decide

/-- R67, R108: combinations and operands that no transaction has. -/
theorem test_decode_channel_rejects :
    decodeChan 0x04100000000 = .error .noSuchTransaction ∧ decodeChan 0x0C000000000 = .error .noSuchTransaction ∧
    decodeChan 0x10100000000 = .error .noSuchTransaction ∧ decodeChan 0x18000000000 = .error .noSuchTransaction ∧
    decodeChan 0x08100000000 = .error .badWidth ∧ decodeChan 0x1C800000000 = .error .badWidth ∧
    decodeChan 0x00800000001 = .error .strayValue := by decide

/-- Bits as the spec writes them: 1 and 0, first bit leftmost. -/
def bits (l : List Nat) : List Bool := l.map (fun b => decide (b = 1))

/-- Vectors E1 to E9. -/
theorem test_decode_magic : decode Config.std .magic
    (bits [1,1,1,1,1,0,1,0, 1,1,0,0,1,1,1,0, 1,0,0,0,0,0,1,0, 0,0,0,0,0,0,0,1, 1]) = .ok (.tokMagic, [true]) := by decide
theorem test_decode_magic_other : decode Config.std .magic
    (bits [1,1,1,1,1,0,1,0, 1,1,0,0,1,1,1,0, 1,0,0,0,0,0,1,0, 0,0,0,0,0,0,0,0]) = .error .badMagic := by decide
theorem test_decode_inner : decode Config.std .tree (bits [0,1]) = .ok (.tokI, [true]) := by decide
theorem test_decode_leaf_66 : decode Config.std .tree (bits [1,0,0,1,0,0,0,0,1,0]) = .ok (.tokL 66, []) := by decide
theorem test_decode_leaf_256 : decode Config.std .tree (bits [1,1,0,0,0,0,0,0,0,0]) = .ok (.tokL 256, []) := by decide
theorem test_decode_leaf_300 : decode Config.std .tree (bits [1,1,0,0,1,0,1,1,0,0]) = .ok (.tokL 300, []) := by decide
theorem test_decode_leaf_cut : decode Config.std .tree (bits [1,0,0,1,0,0,0,0,1]) = .error .treeEnds := by decide

/-- The tree `((66 256) 65)` of vectors B1, G1, T1. -/
def tree1 : Sys2Proof.Tree := .node (.node (.leaf 66) (.leaf 256)) (.leaf 65)

/-- Vector G1: 65 is "1", 66 is "00", 256 is "01". -/
theorem test_decode_codewords :
    decode Config.std (.payload tree1) (bits [1,0]) = .ok (.tokC 65, [false]) ∧
    decode Config.std (.payload tree1) (bits [0,0,1]) = .ok (.tokC 66, [true]) ∧
    decode Config.std (.payload tree1) (bits [0,1,1]) = .ok (.tokC 256, [true]) ∧
    decode Config.std (.payload tree1) (bits [0]) = .error .payloadEnds ∧
    decode Config.std (.payload (.node (.leaf 300) (.leaf 256))) (bits [0]) = .error .reservedSymbol := by decide

/-- Vector E12: 1 bit after 71, 6 after 42, none after 72. -/
theorem test_decode_padding :
    decode Config.std (.padding 71) (bits [1]) = .ok (.tokPad 1, []) ∧
    decode Config.std (.padding 42) (bits [0,0,0,0,0,0]) = .ok (.tokPad 6, []) ∧
    decode Config.std (.padding 72) (bits [1]) = .ok (.tokPad 0, [true]) := by decide

/-! ### Small states -/

/-- What a result says of its next state. -/
def answers (r : Result) (f : State → Bool) : Bool :=
  match r with
  | .next t => f t
  | .fault _ => false
  | .refused _ => false

/-- The reset state put in a phase. -/
def at' (p : Phase) : State := { State.reset with phase := p }

/-- `IN` with these bits unread. -/
def feed (l : List Nat) (s : State) : State := { s with inp := { bits := bits l, pos := 0, eod := false } }

/-- A leaf as the builder and the deserializer make it (`NIL` = 1023). -/
def leaf (v : Sym) (w : Nat) : NodeEntry := { leaf := true, sym := v, weight := w, left := 1023, right := 1023 }

/-- An internal node. -/
def inner (w l r : Nat) : NodeEntry := { leaf := false, sym := 0, weight := w, left := l, right := r }

/-- A stack entry without a path. -/
def waits (n : Nat) (side : Bool) : StkEntry := { node := n, side := side, len := 0, val := 0 }

/-- Vector B1: the node memory after `BUILD_MERGE` on the input `41 41 41 42`. -/
def built (p : Phase) : State :=
  { at' p with
    nnodes := 5, root := 4, nsym := 4
    node := [(0, leaf 65 3), (1, leaf 66 1), (2, leaf 256 1), (3, inner 2 1 2), (4, inner 5 3 0)] }

/-- Vector G1: the code table. -/
def coded (p : Phase) : State :=
  { built p with
    code := [(65, { valid := true, len := 1, val := 1 }), (66, { valid := true, len := 2, val := 0 }),
             (256, { valid := true, len := 2, val := 1 })] }

/-- Vector T1: the node memory after the tree field of V1 has been read. -/
def readT1 : State :=
  { at' .decode with
    mode := .decompress, nnodes := 5, root := 0, cur := 0
    node := [(0, inner 0 1 4), (1, inner 0 2 3), (2, leaf 66 0), (3, leaf 256 0), (4, leaf 65 0)] }

/-! ### Commands -/

theorem test_nop_in_fault : answers (exec .nop (at' .fault)) (fun t => decide (t = at' .fault)) = true := by decide
/-- R217: `STATUS` is `0x11`. -/
theorem test_compress_in_done : answers (exec .compress (coded .done)) (fun t =>
    decide (t.regValue 1 = 0x11) && decide (t.nsym = 0) && decide (t.root = 1023) &&
    decide (t.codeAt 66 = { valid := false, len := 2, val := 0 }) && decide (t.nodeAt 3 = inner 2 1 2)) = true := by decide
theorem test_compress_in_fault : answers (exec .compress (at' .fault)) (fun t => decide (t = at' .fault)) = true := by decide
/-- R218: `STATUS` is `0xB9`. -/
theorem test_decompress_in_idle : answers (exec .decompress State.reset) (fun t => decide (t.regValue 1 = 0xB9)) = true := by
  decide
theorem test_decompress_in_count : answers (exec .decompress (at' .count)) (fun t => decide (t.regValue 1 = 0x11)) = true := by
  decide
/-- R221: `STATUS` is `0x00` in the mode compress. -/
theorem test_clear_in_fault : answers (exec .clear { at' .fault with errcode := .noCode }) (fun t =>
    decide (t.regValue 1 = 0) && decide (t.regValue 2 = 0)) = true := by decide
theorem test_clear_in_decode : answers (exec .clear (at' .decode)) (fun t => decide (t.phase = .decode)) = true := by decide
/-- Vector K1: `STATUS` is `0xF4`, `ERR` is 5. -/
theorem test_status_of_no_code : ({ at' .fault with errcode := .noCode } : State).regValue 1 = 0xF4 ∧
    ({ at' .fault with errcode := .noCode } : State).regValue 2 = 5 := by decide

/-! ### Tokens -/

theorem test_token_magic : answers (exec .tokMagic (at' .wrMagic)) (fun t =>
    decide (t.out.bits = bits [1,1,1,1,1,0,1,0, 1,1,0,0,1,1,1,0, 1,0,0,0,0,0,1,0, 0,0,0,0,0,0,0,1])) = true := by decide
theorem test_token_inner : answers (exec .tokI (at' .wrTree)) (fun t => decide (t.out.bits = bits [0])) = true := by decide
theorem test_token_inner_read : answers (exec .tokI (feed [0] (at' .rdTree))) (fun t =>
    decide (t.nnodes = 1) && decide (t.sp = 1) && decide (t.nodeAt 0 = inner 0 1023 1023)) = true := by decide
theorem test_token_leaf : answers (exec (.tokL 66) (at' .wrTree)) (fun t =>
    decide (t.out.bits = bits [1,0,0,1,0,0,0,0,1,0])) = true := by decide
theorem test_token_codeword : answers (exec (.tokC 256) (coded .wrEof)) (fun t => decide (t.out.bits = bits [0,1])) = true := by
  decide
theorem test_token_codeword_read : answers (exec (.tokC 66) (feed [0,0,1] readT1)) (fun t =>
    decide (t.out.bits = bits [0,1,0,0,0,0,1,0]) && decide (t.inp.pos = 2) && decide (t.cur = 0)) = true := by decide
theorem test_token_padding : answers
    (exec (.tokPad 1) { at' .close with out := { bits := bits [1,0,1,0,1,0,1], closed := false } })
    (fun t => decide (t.out.bits = bits [1,0,1,0,1,0,1,0])) = true := by decide

/-! ### Phases -/

theorem test_idle : answers (exec .phaseIdle State.reset) (fun t => decide (t = State.reset)) = true := by decide
theorem test_done : answers (exec .phaseDone (at' .done)) (fun t => decide (t = at' .done)) = true := by decide
theorem test_fault : answers (exec .phaseFault (at' .fault)) (fun t => decide (t = at' .fault)) = true := by decide
/-- Vector F2, step 4. -/
theorem test_count_byte : answers
    (exec .phaseCount (feed [0,1,0,0,0,0,1,0] { at' .count with nsym := 3, freq := [(65, 3)] }))
    (fun t => decide (t.freq = [(65, 3), (66, 1)]) && decide (t.nsym = 4)) = true := by decide
/-- Vector F6, step 3. -/
theorem test_count_overflow : answers
    (exec .phaseCount (feed [0,0,0,0,0,1,0,1]
      { at' .count with cfg := { Config.std with cntW := 2 }, nsym := 2, freq := [(5, 2)] }))
    (fun t => decide (t.regValue 2 = 4) && decide (t.freqAt 256 = 0)) = true := by decide
/-- Vector B1: symbol 66 becomes node 1. -/
theorem test_build_init : answers
    (exec .phaseBuildInit { at' .buildInit with
      scan := 66, nnodes := 1, freq := [(65, 3), (66, 1), (256, 1)], node := [(0, leaf 65 3)], live := [(0, true)] })
    (fun t => decide (t.node = [(0, leaf 65 3), (1, leaf 66 1)]) && decide (t.live = [(0, true), (1, true)]) &&
      decide (t.scan = 67)) = true := by decide
/-- Vector B1: the first merge removes 1, then 2. -/
theorem test_build_merge : answers
    (exec .phaseBuildMerge { at' .buildMerge with
      nnodes := 3, node := [(0, leaf 65 3), (1, leaf 66 1), (2, leaf 256 1)]
      live := [(0, true), (1, true), (2, true)] })
    (fun t => decide (t.nodeAt 3 = inner 2 1 2) && decide (t.live = [(0, true), (3, true)])) = true := by decide
/-- Vector B1: the last step. -/
theorem test_build_finish : answers (exec .phaseBuildMerge { built .buildMerge with root := 1023, live := [(4, true)] })
    (fun t => decide (t.root = 4) && decide (t.live = []) && decide (t.sp = 1) && decide (t.phase = .derive)) = true := by
  decide
/-- Vector G1: 256 is "01". -/
theorem test_derive_leaf : answers
    (exec .phaseDerive { built .derive with
      sp := 2, stk := [(1, { node := 2, side := false, len := 2, val := 1 })] })
    (fun t => decide (t.codeAt 256 = { valid := true, len := 2, val := 1 }) && decide (t.sp = 1)) = true := by decide
theorem test_derive_inner : answers (exec .phaseDerive { built .derive with sp := 1, stk := [(0, waits 4 false)] })
    (fun t => decide (t.stk = [(0, { node := 0, side := false, len := 1, val := 1 }),
      (1, { node := 3, side := false, len := 1, val := 0 })]) && decide (t.sp = 2)) = true := by decide
theorem test_wr_magic : answers (exec .phaseWrMagic (built .wrMagic))
    (fun t => decide (t.stk = [(0, waits 4 false)]) && decide (t.out.bits.length = 32) && decide (t.phase = .wrTree)) = true := by
  decide
/-- Vector T1: `L(66)` after `I I`. -/
theorem test_wr_tree_leaf : answers
    (exec .phaseWrTree { built .wrTree with sp := 3, stk := [(1, waits 2 false), (2, waits 1 false)] })
    (fun t => decide (t.out.bits = bits [1,0,0,1,0,0,0,0,1,0]) && decide (t.sp = 2)) = true := by decide
theorem test_wr_tree_inner : answers (exec .phaseWrTree { built .wrTree with sp := 1, stk := [(0, waits 4 false)] })
    (fun t => decide (t.out.bits = bits [0]) && decide (t.stk = [(1, waits 3 false)]) && decide (t.sp = 2)) = true := by
  decide
theorem test_rewind : answers
    (exec .phaseRewind { at' .rewind with inp := { bits := bits [1,1,0,0,1,1,0,0], pos := 8, eod := true } })
    (fun t => decide (t.inp = { bits := bits [1,1,0,0,1,1,0,0], pos := 0, eod := false })) = true := by decide
/-- Vector V1: 66 is "00". -/
theorem test_encode : answers (exec .phaseEncode (feed [0,1,0,0,0,0,1,0] (coded .encode)))
    (fun t => decide (t.out.bits = bits [0,0]) && decide (t.phase = .encode)) = true := by decide
/-- Vector K1: no code for the byte. -/
theorem test_encode_no_code : answers (exec .phaseEncode (feed [0,1,0,0,0,0,1,1] (coded .encode)))
    (fun t => decide (t.regValue 2 = 5) && decide (t.out.bits = [])) = true := by decide
theorem test_wr_eof : answers (exec .phaseWrEof (coded .wrEof))
    (fun t => decide (t.out.bits = bits [0,1]) && decide (t.phase = .close)) = true := by decide
/-- Vector M3: bytes `80 40`. -/
theorem test_close : answers
    (exec .phaseClose { at' .close with out := { bits := bits [1,0,0,0,0,0,0,0,0,1], closed := false } })
    (fun t => decide (t.outBytes? = some [0x80, 0x40]) && decide (t.regValue 1 = 0xE2)) = true := by decide
/-- Vector X1. -/
theorem test_rd_magic_other : answers
    (exec .phaseRdMagic (feed [1,1,1,1,1,0,1,0, 1,1,0,0,1,1,1,0, 1,0,0,0,0,0,1,0, 0,0,0,0,0,0,0,0] (at' .rdMagic)))
    (fun t => decide (t.regValue 2 = 1) && decide (t.inp.pos = 32)) = true := by decide
/-- Vector T1: `L(256)` completes node 1, which is the left child of node 0. -/
theorem test_rd_tree_leaf : answers
    (exec .phaseRdTree (feed [1,1,0,0,0,0,0,0,0,0] { at' .rdTree with
      nnodes := 3, sp := 2, node := [(0, inner 0 1023 1023), (1, inner 0 2 1023), (2, leaf 66 0)]
      stk := [(1, waits 1 true)] }))
    (fun t => decide (t.node = [(0, inner 0 1 1023), (1, inner 0 2 3), (2, leaf 66 0), (3, leaf 256 0)]) &&
      decide (t.sp = 1) && decide (t.stkAt 0 = waits 0 true)) = true := by decide
/-- Vector T1: the last leaf completes the tree. -/
theorem test_rd_tree_done : answers
    (exec .phaseRdTree (feed [1,0,0,1,0,0,0,0,0,1] { at' .rdTree with
      nnodes := 4, sp := 1, node := [(0, inner 0 1 1023), (1, inner 0 2 3), (2, leaf 66 0), (3, leaf 256 0)]
      stk := [(0, waits 0 true)] }))
    (fun t => decide (t.nodeAt 0 = inner 0 1 4) && decide (t.root = 0) && decide (t.phase = .decode)) = true := by decide
/-- Vector Y1: the bit 1 is 65. -/
theorem test_decode_literal : answers (exec .phaseDecode (feed [1,0,0] readT1))
    (fun t => decide (t.out.bits = bits [0,1,0,0,0,0,0,1]) && decide (t.cur = 0)) = true := by decide
/-- Vector X6: no payload bit. -/
theorem test_decode_truncated : answers (exec .phaseDecode (feed [] readT1)) (fun t => decide (t.regValue 2 = 3)) = true := by
  decide

/-! ### Channels -/

/-- Vector M1: 148 from nine bits after the first. -/
theorem test_in_read : answers
    (exec (.inRead 9) { at' .idle with inp := { bits := bits [1,0,1,0,0,1,0,1, 0,0,1,1,1,1,0,0], pos := 1, eod := false } })
    (fun t => decide (t.chanLog = [(0x00900000000, 148)]) && decide (t.inp.pos = 10)) = true := by decide
/-- Vector M1: no partial value. -/
theorem test_in_read_end : answers
    (exec (.inRead 8) { at' .idle with inp := { bits := bits [1,0,1,0,0,1,0,1, 0,0,1,1,1,1,0,0], pos := 10, eod := false } })
    (fun t => decide (t.chanLog = [(0x00800000000, 0x100000000)]) && decide (t.inp.pos = 16) && t.inp.eod) = true := by decide
/-- Vector M2. -/
theorem test_in_reset : answers
    (exec .inReset { at' .idle with inp := { bits := bits [1,0], pos := 2, eod := true } })
    (fun t => decide (t.inp = { bits := bits [1,0], pos := 0, eod := false })) = true := by decide
/-- Vector M4: only the low eight bits. -/
theorem test_out_write : answers (exec (.outWrite 8 0x1FF) State.reset)
    (fun t => decide (t.out.bits = bits [1,1,1,1,1,1,1,1])) = true := by decide
theorem test_out_close : answers (exec .outClose State.reset) (fun t => decide (t.outBytes? = some [])) = true := by decide

/-! ### Witnesses: concrete states and operands that meet the hypotheses of each obligation, clause by clause -/

/-- The host's list on the reset state. -/
def host (l : List HostEvent) (s : State) : State := { s with pending := l }

/-- O2: a codeword of the tree, a padding token of the length of its place. -/
theorem witness_DecodeEncodeAgree :
    ((Instr.tokC 256).wf = true ∧ (256 : Sym) ∈ tree1.leaves) ∧ (Instr.tokPad 6).wf = true ∧ (6 : BitVec 3).toNat = padLen 42 ∧
    (0 : BitVec 3).toNat = padLen 72 ∧ (7 : BitVec 3).toNat = padLen 65 := by decide
/-- O3. -/
theorem witness_ChannelWordHasOneMeaning :
    decodeChan 0x00100000000 = .ok (.inRead 1) ∧ decodeChan 0x140FFFFFFFF = .ok (.outWrite 0 0xFFFFFFFF) ∧
    decodeChan 0x160FFFFFFFF = .ok (.outWrite 32 0xFFFFFFFF) := by decide
/-- O5: a tree that fills the node memory, and one leaf. -/
theorem witness_HeaderRoundTrip :
    tree1.nodes ≤ ({ Config.std with nodeCap := 5 } : Config).nodeCap ∧ (Sys2Proof.Tree.leaf 256).nodes ≤ Config.std.nodeCap := by
  decide
/-- O6. -/
theorem witness_HeaderLength : (Sys2Proof.Tree.leaf 256).leaves.length = 1 ∧ tree1.leaves.length ≤ 257 := by decide
/-- O7. -/
theorem witness_StreamPacking : (bits [1,0,0,0,0,0,0,0]).length % 8 = 0 ∧ ([] : List Bool).length % 8 = 0 ∧ 0 < 8 ∧ 7 < 8 := by
  decide
/-- O8: vector G1. -/
theorem witness_CodesArePrefixFree :
    tree1.path? 66 = some (bits [0,0]) ∧ tree1.path? 256 = some (bits [0,1]) ∧ (66 : Sym) ≠ 256 := by decide
/-- O9. -/
theorem witness_StreamRoundTrip : Config.std.wf = true ∧ ({ Config.std with cntW := 1 } : Config).wf = true := by decide
/-- O10: each kind of slot. -/
theorem witness_StepRunsTheDecodedInstruction :
    State.reset.pending = [] ∧ (host [.seq] State.reset).pending = [.seq] ∧
    (host [.regWrite 0 1] State.reset).pending = [.regWrite 0 1] ∧
    (host [.chan 0x00800000000] State.reset).pending = [.chan 0x00800000000] ∧
    decodeChan 0x00800000000 = .ok (.inRead 8) := by decide
/-- O11: each command in each class of phase. -/
theorem witness_CommandTable :
    Memory.wf CodeEntry.zero (coded .done).code = true ∧ (host [.regWrite 0 0xFFFFFFFC] (coded .done)).pending =
      [.regWrite 0 0xFFFFFFFC] ∧ (0xFFFFFFFC : Word).extractLsb' 0 2 = 0 ∧ (1 : Word).extractLsb' 0 2 = 1 ∧
    (0xFFFFFFFE : Word).extractLsb' 0 2 = 2 ∧ (3 : Word).extractLsb' 0 2 = 3 ∧ (at' .idle).phase = .idle ∧
    (at' .fault).phase = .fault ∧ (at' .count).busy = true ∧ (at' .decode).busy = true := by decide
/-- O12, O13. -/
theorem witness_CompressAccepted_DecompressAccepted :
    Memory.wf CodeEntry.zero (coded .done).code = true ∧ (coded .done).phase = .done ∧ State.reset.phase = .idle := by decide
/-- O14. -/
theorem witness_NopAndClear :
    (at' .done).phase = .done ∧ (at' .fault).phase = .fault ∧ (at' .idle).phase ≠ .done ∧ (at' .idle).phase ≠ .fault := by
  decide
/-- O15: the command, a reset, and a reset during the slot. -/
theorem witness_FaultIsLeftOnlyByClearOrReset :
    (∃ t, step (host [.regWrite 0 3] (at' .fault)) = .next t ∧ t.phase ≠ .fault) ∧
    (∃ t, step (host [.reset] (at' .fault)) = .next t ∧ t.phase ≠ .fault) ∧
    (∃ t, step (host [.resetDuring 0] (at' .fault)) = .next t ∧ t.phase ≠ .fault) :=
  ⟨⟨_, rfl, by decide⟩, ⟨_, rfl, fun h => nomatch h⟩, ⟨_, rfl, fun h => nomatch h⟩⟩
/-- `WR_TREE` of vector B1 before a leaf token. -/
def writingLeaf : State := { built .wrTree with sp := 1, stk := [(0, waits 2 false)] }

/-- O16, O18, O19, O21, O22: the host's accesses and resets. -/
theorem witness_StatusRegister_ErrRegister_RegisterAccesses :
    (host [.regRead 1] State.reset).pending = [.regRead 1] ∧ (host [.regWrite 1 0] State.reset).pending = [.regWrite 1 0] ∧
    (host [.regRead 2] State.reset).pending = [.regRead 2] ∧ (host [.regWrite 2 0] State.reset).pending = [.regWrite 2 0] ∧
    (host [.regRead 6] State.reset).pending = [.regRead 6] ∧ 5 < 6 ∧
    (host [.regWrite 5 1] State.reset).pending = [.regWrite 5 1] ∧ 5 ≠ 0 := by decide
theorem witness_ErrRegister : (host [.regRead 2] { at' .fault with errcode := .symRange }).Inv := State.inv_of_check (by decide)
theorem witness_ResetBetweenSteps : (host [.reset] (built .decode)).pending = [.reset] := by decide
/-- O22: none of the transactions, all of them, and one of the two of a leaf token in `WR_TREE`. -/
theorem witness_ResetDuringAStep :
    (host [.resetDuring 0] (at' .close)).pending = [.resetDuring 0] ∧
    (∃ u, exec (phaseInstr (at' .close).phase) (at' .close) = .next u ∧
      u.chanLog.length - (at' .close).chanLog.length ≤ 1) ∧
    (host [.resetDuring 1] writingLeaf).pending = [.resetDuring 1] ∧
    ∃ u, exec (phaseInstr writingLeaf.phase) writingLeaf = .next u ∧
      u.chanLog.length - writingLeaf.chanLog.length = 2 ∧ (writingLeaf.issued u).take 1 = [0x14100000001] :=
  ⟨by decide, ⟨_, rfl, by decide⟩, by decide, _, rfl, by decide, by decide⟩
/-- O22: the log of that cut, and `OUT`, hold the first transaction alone. -/
theorem test_reset_during_leaf_token : answers (step (host [.resetDuring 1] writingLeaf)) (fun t =>
    decide (t.chanLog = [(0x14100000001, 0)]) && decide (t.out.bits = bits [1])) = true := by decide

/-- Thirty-two bits, the magic. -/
def magicBits : List Nat := [1,1,1,1,1,0,1,0, 1,1,0,0,1,1,1,0, 1,0,0,0,0,0,1,0, 0,0,0,0,0,0,0,1]

/-- O23: the least and the greatest width. -/
theorem witness_InReadReturnsTheNextBits :
    (1 ≤ (1 : BitVec 6).toNat ∧ (1 : BitVec 6).toNat ≤ 32 ∧ (feed [1] State.reset).Offers 1#1) ∧
    ((32 : BitVec 6).toNat ≤ 32 ∧ (feed magicBits State.reset).Offers 0xFACE8201#32) ∧
    State.reset.Exhausted 1 ∧ (feed [1,0,1,0,0,1,1] State.reset).Exhausted 8 ∧
    ((feed magicBits State.reset).inp.eod = false ∧ (feed magicBits State.reset).inp.pos + 32 ≤ magicBits.length) :=
  ⟨⟨by decide, by decide, by decide, by decide⟩, ⟨by decide, by decide, by decide⟩, .inr (by decide), .inr (by decide),
   by decide, by decide⟩
/-- O25, O26: an open and a closed `OUT`. -/
theorem witness_OutWriteAppends_OutClosePads :
    1 ≤ (1 : BitVec 6).toNat ∧ (32 : BitVec 6).toNat ≤ 32 ∧ State.reset.out.closed = false ∧
    ({ State.reset with out := { bits := [], closed := true } } : State).out.closed = true := by decide
/-- O27: widths 0, 33 and 63; the four words of no transaction; words of a transaction with a stray field. -/
theorem witness_UndefinedTransactionsAreRefused :
    (0 : BitVec 6).toNat = 0 ∧ 32 < (33 : BitVec 6).toNat ∧ 32 < (63 : BitVec 6).toNat ∧
    (0x04100000000 : ChanReq).extractLsb' 38 3 = 1 ∧ (0x0C000000000 : ChanReq).extractLsb' 38 3 = 3 ∧
    (0x10100000000 : ChanReq).extractLsb' 38 3 = 4 ∧ (0x18000000000 : ChanReq).extractLsb' 38 3 = 6 ∧
    (host [.chan 0x18000000000] State.reset).pending = [.chan 0x18000000000] ∧
    (0x02100000000 : ChanReq) = encodeChan (.inRead 33) ∧ (0x14000000007 : ChanReq) = encodeChan (.outWrite 0 7) ∧
    ((0x00800000001 : ChanReq).extractLsb' 38 3 = 0 ∧ (0x00800000001 : ChanReq).extractLsb' 0 32 ≠ 0) ∧
    ((0x08100000000 : ChanReq).extractLsb' 38 3 = 2 ∧ (0x08100000000 : ChanReq).extractLsb' 32 6 ≠ 0) ∧
    ((0x1C080000000 : ChanReq).extractLsb' 38 3 = 7 ∧ (0x1C080000000 : ChanReq).extractLsb' 0 32 ≠ 0) := by decide
/-- O28. -/
theorem witness_OnlyTheBitSequenceMatters :
    State.reset.out.closed = false ∧ (feed magicBits State.reset).canRead 32 = true ∧
    (feed magicBits State.reset).peek 32 = some 0xFACE8201 ∧ 31 < 32 := by decide

/-- O29: each token where it is written; in `WR_EOF` also a symbol without a code. -/
theorem witness_TokensAreWritten :
    (built .wrMagic).out.closed = false ∧ (built .wrMagic).phase = .wrMagic ∧ (built .wrTree).phase = .wrTree ∧
    (256 : Sym).toNat ≤ 256 ∧ ((coded .encode).phase = .encode ∧ ((coded .encode).codeAt (256 : Sym).toNat).valid = true) ∧
    ((coded .wrEof).phase = .wrEof ∧ ((coded .wrEof).codeAt (67 : Sym).toNat).valid = false) ∧ (at' .close).phase = .close ∧
    (0 : BitVec 3).toNat = (8 - (at' .close).out.bits.length % 8) % 8 := by decide
/-- O30: the magic and the tree tokens where they are read, and away from their place. -/
theorem witness_TokensAreRead :
    (feed magicBits (at' .rdMagic)).Offers Config.std.magic ∧ (feed [0] (at' .rdTree)).Offers 0#1 ∧
    (feed [1,1,0,0,0,0,0,0,0,0] (at' .rdTree)).Offers (1#1 ++ (256 : Sym)) ∧
    (at' .idle).phase ≠ .wrMagic ∧ ¬ ((at' .idle).phase = .rdMagic ∧ (at' .idle).Offers (at' .idle).cfg.magic) ∧
    (at' .idle).phase ≠ .wrTree ∧ ¬ ((at' .idle).phase = .rdTree ∧ (at' .idle).Offers 0#1) ∧
    ¬ ((at' .idle).phase = .rdTree ∧ (at' .idle).Offers (1#1 ++ (256 : Sym))) :=
  have h1 : (at' .idle).phase ≠ .rdMagic := by decide
  have h2 : (at' .idle).phase ≠ .rdTree := by decide
  ⟨⟨by decide, by decide⟩, ⟨by decide, by decide⟩, ⟨by decide, by decide⟩, by decide, fun h => h1 h.1, by decide,
   fun h => h2 h.1, fun h => h2 h.1⟩
/-- A one-leaf tree read from a stream. -/
def single (v : Sym) : State := { at' .decode with mode := .decompress, nnodes := 1, root := 0, cur := 0, node := [(0, leaf v 0)] }

/-- O30: codewords away from their place: another phase, no code, inside a walk, other bits; at a leaf root; of a symbol
above 256; padding in another phase, on a closed `OUT`, of another length. -/
theorem witness_TokensAreRead_codeword_padding :
    (256 : Sym).toNat ≤ 256 ∧ ((at' .idle).phase ≠ .encode ∧ (at' .idle).phase ≠ .wrEof ∧ (at' .idle).phase ≠ .decode) ∧
    ((coded .encode).phase = .encode ∧ ((coded .encode).codeAt (67 : Sym).toNat).valid = false) ∧
    (readT1.phase = .decode ∧ ({ readT1 with cur := 1 } : State).cur ≠ readT1.root) ∧
    ((feed [0,0,1] readT1).treeAt 3 0 = some tree1 ∧ tree1.walk? (feed [0,0,1] readT1).unread = some (66, [true]) ∧
      (66 : Sym) ≠ 256) ∧
    ((single 256).phase = .decode ∧ (single 256).cur = (single 256).root ∧ ((single 256).nodeAt 0).leaf = true ∧
      ((single 256).nodeAt 0).sym = 256) ∧ 256 < (257 : Sym).toNat ∧ (at' .idle).phase ≠ .close ∧
    ({ at' .close with out := { bits := [], closed := true } } : State).out.closed = true ∧
    (1 : BitVec 3).toNat ≠ (8 - (at' .close).out.bits.length % 8) % 8 := by decide
/-- O31: a literal and the pseudo-EOF. -/
theorem witness_CodewordIsRead :
    (feed [0,0,1] readT1).phase = .decode ∧ (feed [0,0,1] readT1).cur = (feed [0,0,1] readT1).root ∧
    (feed [0,0,1] readT1).nnodes ≤ Config.std.nodeCap ∧ (feed [0,0,1] readT1).out.closed = false ∧
    (feed [0,0,1] readT1).treeAt 3 0 = some tree1 ∧ (feed [0,0,1] readT1).inp.eod = false ∧
    tree1.walk? ((feed [0,0,1] readT1).inp.bits.drop 0) = some (66, [true]) ∧ (66 : Sym).toNat ≤ 256 ∧
    (feed [0,1] readT1).treeAt 3 0 = some tree1 ∧
    tree1.walk? ((feed [0,1] readT1).inp.bits.drop 0) = some (256, []) ∧ (256 : Sym).toNat ≤ 256 := by decide

/-- A state of vector F2 after two bytes. -/
def counting : State := { at' .count with nsym := 2, freq := [(65, 2)] }

theorem le_of_single {m : List (Nat × Nat)} {n : Nat} (h : (m.all fun e => decide (e.2 ≤ n)) = true) (i : Nat) :
    Memory.read 0 m i ≤ n :=
  of_decide_eq_true (Memory.read_all (p := fun v => decide (v ≤ n)) (decide_eq_true (Nat.zero_le n)) h i)

/-- O32: a byte, one too many (vector F6), the end. -/
theorem witness_CountStep :
    ((feed [0,1,0,0,0,0,0,1] counting).Inv ∧ (∀ i, counting.freqAt i ≤ counting.nsym) ∧
      (feed [0,1,0,0,0,0,0,1] counting).Offers 65#8 ∧ counting.nsym ≠ counting.cfg.maxInput) ∧
    ((feed [0,0,0,0,0,1,0,1] { counting with cfg := { Config.std with cntW := 2 } }).Inv ∧
      (feed [0,0,0,0,0,1,0,1] { counting with cfg := { Config.std with cntW := 2 } }).Offers 5#8 ∧
      counting.nsym = ({ Config.std with cntW := 2 } : Config).maxInput) ∧
    counting.Exhausted 8 :=
  ⟨⟨State.inv_of_check (by decide), le_of_single (by decide), ⟨by decide, by decide⟩, by decide⟩,
   ⟨State.inv_of_check (by decide), ⟨by decide, by decide⟩, by decide⟩, .inr (by decide)⟩

/-- `BUILD_INIT` of vector B1 before symbol `v`. -/
def inserting (v : Sym) : State :=
  { at' .buildInit with
    scan := v, nnodes := 2, freq := [(65, 3), (66, 1), (256, 1)], node := [(0, leaf 65 3), (1, leaf 66 1)]
    live := [(0, true), (1, true)] }

/-- O33: a symbol without a count, the last one with and without. -/
theorem witness_BuildInitStep :
    (inserting 67).Inv ∧ (inserting 67).freqAt 67 = 0 ∧ (67 : Sym) ≠ eofSym ∧ (inserting 256).Inv ∧
    (inserting 256).freqAt 256 ≠ 0 ∧ (inserting 256).nnodes < Config.std.nodeCap ∧
    (({ inserting 256 with freq := [(65, 3)] } : State).freqAt 256 = 0 ∧ ({ inserting 256 with freq := [(65, 3)] } : State).Inv) :=
  ⟨State.inv_of_check (by decide), by decide, by decide, State.inv_of_check (by decide), by decide, by decide, by decide,
   State.inv_of_check (by decide)⟩

/-- `BUILD_MERGE` of vector B1 before its first merge. -/
def merging : State :=
  { at' .buildMerge with
    nnodes := 3, node := [(0, leaf 65 3), (1, leaf 66 1), (2, leaf 256 1)], live := [(0, true), (1, true), (2, true)] }

/-- `BUILD_MERGE` of vector B1 before its last step. -/
def finishing : State := { built .buildMerge with root := 1023, live := [(4, true)] }

theorem live_of {m : List (Nat × Bool)} {j : Nat} {l : List Nat} (h : Memory.read false m j = true)
    (hm : m.map (·.1) = l) : j ∈ l := by
  have e := Memory.mem_of_read false (m := m) (i := j) (by rw [h]; decide)
  rw [← hm]; exact List.mem_map_of_mem (f := (·.1)) e

/-- O34: more than one live node, and none; two nodes of different weight. -/
theorem witness_MinliveIsTheLeastLiveNode :
    Memory.wf false merging.live = true ∧ merging.minlive = some 1 ∧ merging.cfg.tieOrder = 0 ∧
    (merging.nodeAt 1).weight < (merging.nodeAt 0).weight ∧ merging.before 1 2 = true ∧ merging.before 2 0 = true ∧
    Memory.wf false State.reset.live = true ∧ State.reset.minlive = none := by decide

/-- O35: the last step, and the first merge: nodes 1, then 2. -/
theorem witness_BuildMergeStep :
    (finishing.Inv ∧ finishing.liveAt 4 = true ∧ ∀ i, i ≠ 4 → finishing.liveAt i = false) ∧
    merging.Inv ∧ merging.liveAt 1 = true ∧ merging.liveAt 2 = true ∧ 1 ≠ 2 ∧
    (∀ j, merging.liveAt j = true → j ≠ 1 → merging.before 1 j = true) ∧
    (∀ j, merging.liveAt j = true → j ≠ 1 → j ≠ 2 → merging.before 2 j = true) ∧
    (merging.nodeAt 1).weight + (merging.nodeAt 2).weight < 2 ^ merging.cfg.cntW ∧ merging.nnodes < merging.cfg.nodeCap := by
  refine ⟨⟨State.inv_of_check (by decide), by decide, fun i hi => ?_⟩, State.inv_of_check (by decide), by decide, by decide,
    by decide, fun j hj h1 => ?_, fun j hj h1 h2 => ?_, by decide, by decide⟩
  · refine Memory.read_eq_default false (m := finishing.live) fun e he => ?_
    obtain rfl : e = (4, true) := List.mem_singleton.mp he
    exact hi
  · have := live_of (l := [0, 1, 2]) hj (by decide)
    simp only [List.mem_cons, List.not_mem_nil, or_false] at this
    rcases this with rfl | rfl | rfl
    · decide
    · exact absurd rfl h1
    · decide
  · have := live_of (l := [0, 1, 2]) hj (by decide)
    simp only [List.mem_cons, List.not_mem_nil, or_false] at this
    rcases this with rfl | rfl | rfl
    · decide
    · exact absurd rfl h1
    · exact absurd rfl h2

/-- The stack of a traversal. -/
def visiting (p : Phase) (n : Nat) (stk : List (Nat × StkEntry)) : State := { built p with sp := n, stk := stk }

/-- O36, O38: the empty stack, a leaf, an internal node. -/
theorem witness_DeriveStep_WrTreeStep :
    (visiting .derive 0 []).Inv ∧ (visiting .wrTree 0 []).Inv ∧
    ((visiting .derive 1 [(0, waits 2 false)]).Inv ∧ ((built .derive).nodeAt 2).leaf = true ∧
      ((built .derive).nodeAt 2).sym.toNat ≤ 256) ∧
    (visiting .wrTree 1 [(0, waits 2 false)]).Inv ∧
    ((visiting .derive 1 [(0, waits 4 false)]).Inv ∧ ((built .derive).nodeAt 4).leaf = false ∧
      4 < Config.std.nodeCap ∧ 0 + 1 < Config.std.stackCap) ∧
    ((visiting .wrTree 1 [(0, waits 4 false)]).Inv ∧ (built .wrTree).out.closed = false) :=
  ⟨State.inv_of_check (by decide), State.inv_of_check (by decide), ⟨State.inv_of_check (by decide), by decide, by decide⟩,
   State.inv_of_check (by decide), ⟨State.inv_of_check (by decide), by decide, by decide, by decide⟩,
   State.inv_of_check (by decide), by decide⟩
/-- O37, O41, O42, O43: `OUT` is open. -/
theorem witness_WrMagicStep : (built .wrMagic).Inv ∧ (built .wrMagic).out.closed = false ∧
    ({ valid := true, len := 0, val := 0 } : CodeEntry).len = 0 :=
  ⟨State.inv_of_check (by decide), by decide, by decide⟩
/-- O40: a byte with a code, one without, the end. -/
theorem witness_EncodeStep :
    (coded .encode).out.closed = false ∧ (feed [0,1,0,0,0,0,1,0] (coded .encode)).Offers 66#8 ∧
    ((coded .encode).codeAt 66).valid = true ∧ (feed [1,1,1,1,1,1,1,1] (coded .encode)).Offers 255#8 ∧
    ((coded .encode).codeAt 255).valid = false ∧ (coded .encode).Exhausted 8 :=
  ⟨by decide, ⟨by decide, by decide⟩, by decide, ⟨by decide, by decide⟩, by decide, .inr (by decide)⟩
/-- O44: the magic, another word, 31 bits. -/
theorem witness_RdMagicStep :
    (feed magicBits (at' .rdMagic)).Offers Config.std.magic ∧ (feed (List.replicate 32 0) (at' .rdMagic)).Offers 0#32 ∧
    (0 : Word) ≠ Config.std.magic ∧ (feed (List.replicate 31 1) (at' .rdMagic)).Exhausted 32 :=
  ⟨⟨by decide, by decide⟩, ⟨by decide, by decide⟩, by decide, .inr (by decide)⟩

/-- The deserializer before its first token. -/
def reading : State := { at' .rdTree with mode := .decompress }

/-- O45: a full memory, an end inside a leaf token, an internal token. -/
theorem witness_RdTreeStep :
    (({ reading with nnodes := 513 } : State).Inv ∧ ({ reading with nnodes := 513 } : State).nnodes = Config.std.nodeCap) ∧
    (reading.Inv ∧ reading.sp ≤ reading.nnodes ∧ reading.nnodes ≠ reading.cfg.nodeCap ∧ reading.Exhausted 1) ∧
    ((feed [1,0,0,0,0,0,0,0,0] reading).Offers 1#1 ∧ (feed [1,0,0,0,0,0,0,0,0] reading).Exhausted 10) ∧
    (feed [0] reading).Inv ∧ (feed [0] reading).Offers 0#1 :=
  ⟨⟨State.inv_of_check (by decide), by decide⟩, ⟨State.inv_of_check (by decide), by decide, by decide, .inr (by decide)⟩,
   ⟨⟨by decide, by decide⟩, .inr (by decide)⟩, State.inv_of_check (by decide), by decide, by decide⟩

/-- Vector T1 before the token `L(256)`: node 1 waits for its right child, node 0 for its left one. -/
def linking : State :=
  { reading with
    nnodes := 3, sp := 2, node := [(0, inner 0 1023 1023), (1, inner 0 2 1023), (2, leaf 66 0)]
    stk := [(1, waits 1 true)] }

/-- Vector T1 before its last token: node 0 waits for its right child. -/
def linkingLast : State :=
  { reading with
    nnodes := 4, sp := 1, node := [(0, inner 0 1 1023), (1, inner 0 2 3), (2, leaf 66 0), (3, leaf 256 0)]
    stk := [(0, waits 0 true)] }

/-- O46: `m` = 1 below the stack's depth, `m` = `SP` = 1, and `m` = `SP` = 0. -/
theorem witness_RdTreeLeafStep :
    ((feed [1,1,0,0,0,0,0,0,0,0] linking).Inv ∧ linking.nnodes ≠ linking.cfg.nodeCap ∧
      (feed [1,1,0,0,0,0,0,0,0,0] linking).Offers (1#1 ++ (256 : Sym)) ∧ (∀ j, j < 2 → (linking.stkAt j).node < linking.nnodes) ∧
      (∀ j, j < 2 → ∀ j', j' < 2 → (linking.stkAt j).node = (linking.stkAt j').node → j = j') ∧ 1 ≤ linking.sp ∧
      (∀ i, i < 1 → (linking.stkAt (2 - 1 - i)).side = true) ∧ (linking.stkAt (2 - 1 - 1)).side = false) ∧
    ((feed [1,0,0,1,0,0,0,0,0,1] linkingLast).Inv ∧
      (feed [1,0,0,1,0,0,0,0,0,1] linkingLast).Offers (1#1 ++ (65 : Sym)) ∧
      (∀ j, j < 1 → (linkingLast.stkAt j).node < linkingLast.nnodes) ∧
      (∀ i, i < 1 → (linkingLast.stkAt (1 - 1 - i)).side = true)) ∧
    (feed [1,1,0,0,0,0,0,0,0,0] reading).Inv ∧ (feed [1,1,0,0,0,0,0,0,0,0] reading).Offers (1#1 ++ (256 : Sym)) ∧ reading.sp = 0 :=
  ⟨⟨State.inv_of_check (by decide), by decide, ⟨by decide, by decide⟩, by decide, by decide, by decide, by decide, by decide⟩,
   ⟨State.inv_of_check (by decide), ⟨by decide, by decide⟩, by decide, by decide⟩, State.inv_of_check (by decide),
   ⟨by decide, by decide⟩, by decide⟩

/-- O47: vectors Y2, X9, X10. -/
theorem witness_DecodeLeafRootStep :
    (single 256).cur < Config.std.nodeCap ∧ ((single 256).nodeAt 0).leaf = true ∧ (single 256).out.closed = false ∧
    ((single 256).nodeAt 0).sym = eofSym ∧ ((single 65).nodeAt 0).sym ≠ eofSym ∧ ((single 300).nodeAt 0).sym ≠ eofSym := by decide

/-- Vector X11: the tree `(300 256)`. -/
def readX11 : State :=
  { at' .decode with
    mode := .decompress, nnodes := 3, root := 0, cur := 0, node := [(0, inner 0 1 2), (1, leaf 300 0), (2, leaf 256 0)] }

/-- O48: the end; a move to an internal node, to a literal, to the pseudo-EOF, to a reserved symbol. -/
theorem witness_DecodeStep :
    (readT1.cur < readT1.cfg.nodeCap ∧ (readT1.nodeAt 0).leaf = false ∧ readT1.out.closed = false ∧ readT1.Exhausted 1) ∧
    ((feed [0] readT1).Offers 0#1 ∧ (readT1.nodeAt 0).left = 1 ∧ (readT1.nodeAt 1).leaf = false) ∧
    ((feed [1] readT1).Offers 1#1 ∧ (readT1.nodeAt 0).right = 4 ∧ (readT1.nodeAt 4).leaf = true ∧
      (readT1.nodeAt 4).sym.toNat < 256) ∧
    ((readX11.nodeAt 0).leaf = false ∧ (readX11.nodeAt 0).right = 2 ∧ (readX11.nodeAt 2).sym = eofSym) ∧
    ((readX11.nodeAt 0).left = 1 ∧ 256 < (readX11.nodeAt 1).sym.toNat ∧ 1 < readX11.cfg.nodeCap) :=
  ⟨⟨by decide, by decide, by decide, .inr (by decide)⟩, ⟨⟨by decide, by decide⟩, by decide, by decide⟩,
   ⟨⟨by decide, by decide⟩, by decide, by decide, by decide⟩, by decide, by decide⟩
/-- O49. -/
theorem witness_RestingPhases : (at' .done).pending = [] ∧ (at' .idle).phase = .idle ∧ (at' .done).phase = .done ∧
    (at' .fault).phase = .fault := by decide
/-- O50: vector X6. -/
theorem witness_ErrorsByPhase : readT1.phase ≠ .fault ∧
    ∃ t, exec (phaseInstr readT1.phase) readT1 = .next t ∧ t.phase = .fault := ⟨by decide, _, rfl, rfl⟩
/-- O51, O52, O53, O54. -/
theorem witness_PhaseOrder : (feed [1] readT1).inp.pos ≤ (feed [1] readT1).inp.bits.length ∧
    (feed [1] readT1).out.closed = false ∧ ∃ t, exec (phaseInstr (feed [1] readT1).phase) (feed [1] readT1) = .next t :=
  ⟨by decide, by decide, _, rfl⟩
/-- O55. -/
theorem witness_StepKeepsInvariant : (feed [1] readT1).Inv ∧ ∃ t, step (feed [1] readT1) = .next t :=
  ⟨State.inv_of_check (by decide), _, rfl⟩

/-- O57: in the middle of a decompress, with a host access waiting. -/
theorem witness_SoundStateNeverStops : (host [.regRead 1] (feed [1] readT1)).Sound where
  inv := State.inv_of_check (by decide)
  transactions := by intro w h; exact nomatch List.mem_singleton.mp h
  unqueued := fun _ => rfl
  pseudoEof := fun h => nomatch h
  counting := fun h => nomatch h
  inserting := fun h => nomatch h
  merging := fun h => nomatch h
  traversing := fun h => by rcases h with h | h | h <;> exact nomatch h
  stacked := fun h => by rcases h with h | h <;> exact nomatch h
  starting := fun h => nomatch h
  reading := fun h => nomatch h
  walking := fun _ => ⟨by decide, by decide, by
    intro i (hi : i < 5)
    have key : ∀ i, i < 5 → (readT1.nodeAt i).leaf = false →
      (readT1.nodeAt i).left < 5 ∧ (readT1.nodeAt i).right < 5 := by decide
    exact key i hi⟩

/-- O58: the input `41` before `COUNT`. -/
theorem witness_CountPhaseRefines :
    ({ at' .count with inp := { bits := bytesToBits [0x41], pos := 0, eod := false } } : State).Inv ∧ (at' .count).pending = [] ∧
    (∀ i, (at' .count).freqAt i = 0) ∧ (at' .count).nsym = 0 ∧ [(0x41 : Byte)].length ≤ Config.std.maxInput :=
  ⟨State.inv_of_check (by decide), rfl, fun _ => rfl, rfl, by decide⟩
/-- O59, O60: the input `41` before the command. -/
theorem witness_CompressRefines_DecompressRefines :
    ({ State.reset with inp := { bits := bytesToBits [0x41], pos := 0, eod := false } } : State).Inv ∧
    State.reset.pending = [] ∧ State.reset.phase = .idle ∧ State.reset.out = { bits := [], closed := false } ∧
    [(0x41 : Byte)].length ≤ Config.std.maxInput :=
  ⟨State.inv_of_check (by decide), rfl, rfl, rfl, by decide⟩

end Sys2Proof.Tests
end

section
/-! What one step does, one equation per slot of the host's list, and which instructions the command decoder and the
channel decoder can answer. -/

namespace Sys2Proof

/-- A command word is one of the four commands (R105). -/
theorem decodeCmd_cases (v : Word) :
    decodeCmd v = .nop ∨ decodeCmd v = .compress ∨ decodeCmd v = .decompress ∨ decodeCmd v = .clear := by
  unfold decodeCmd
  split
  · exact .inl rfl
  · split
    · exact .inr (.inl rfl)
    · split
      · exact .inr (.inr (.inl rfl))
      · exact .inr (.inr (.inr rfl))

/-- A channel word that decodes is one of the four transactions (R108). -/
theorem decodeChan_cases {w : ChanReq} {i : Instr} (h : decodeChan w = .ok i) :
    (∃ n, i = .inRead n) ∨ i = .inReset ∨ (∃ n v, i = .outWrite n v) ∨ i = .outClose := by
  simp only [decodeChan] at h
  split_ifs at h <;> cases h
  · exact .inl ⟨_, rfl⟩
  · exact .inr (.inl rfl)
  · exact .inr (.inr (.inl ⟨_, _, rfl⟩))
  · exact .inr (.inr (.inr rfl))

end Sys2Proof

namespace Sys2Proof.Machine

variable {s : State} {rest : List HostEvent}

/-- The code in `PHASE` decodes to the step of the phase (R106). -/
theorem decodePhase_toCode (p : Phase) : decodePhase (BitVec.ofNat 4 p.toCode) = phaseInstr p := by
  cases p <;> rfl

/-- With no host access waiting the sequencer takes its step (R22). -/
theorem step_idleHost (h : s.pending = []) : step s = exec (phaseInstr s.phase) s := by
  simp only [step, fetch, h]

theorem step_seq (h : s.pending = .seq :: rest) :
    step s = exec (phaseInstr s.phase) { s with pending := rest } := by
  simp only [step, fetch, h, hostSlot]

theorem step_regWrite_cmd {v : Word} (h : s.pending = .regWrite 0 v :: rest) :
    step s = exec (decodeCmd v) { s with pending := rest } := by
  simp only [step, fetch, h, hostSlot, if_true]

/-- Registers other than `CMD` are read only (R40). -/
theorem step_regWrite_readOnly {k : Nat} {v : Word} (hk : k ≠ 0) (h : s.pending = .regWrite k v :: rest) :
    step s = .next { s with pending := rest } := by
  simp only [step, fetch, h, hostSlot, if_neg hk]

theorem step_regRead {k : Nat} (h : s.pending = .regRead k :: rest) :
    step s = .next (State.hostRead { s with pending := rest } k) := by
  simp only [step, fetch, h, hostSlot]

theorem step_reset (h : s.pending = .reset :: rest) :
    step s = .next (State.resetEvent { s with pending := rest }) := by
  simp only [step, fetch, h, hostSlot]

theorem step_resetDuring {k : Nat} (h : s.pending = .resetDuring k :: rest) :
    step s = cutByReset k { s with pending := rest } (exec (phaseInstr s.phase) { s with pending := rest }) := by
  simp only [step, fetch, h, hostSlot]

theorem step_launch {b : List Byte} (h : s.pending = .launch b :: rest) :
    step s = .next (State.launch b { s with pending := rest }) := by
  simp only [step, fetch, h, hostSlot]

theorem step_swapIn {b : List Byte} (h : s.pending = .swapIn b :: rest) :
    step s = .next (State.swapIn b { s with pending := rest }) := by
  simp only [step, fetch, h, hostSlot]

theorem step_chan {w : ChanReq} {i : Instr} (h : s.pending = .chan w :: rest) (hw : decodeChan w = .ok i) :
    step s = exec i { s with pending := rest } := by
  simp only [step, fetch, h, hostSlot, hw]

/-- A channel word that does not decode is refused (R67). -/
theorem step_chan_refused {w : ChanReq} {e : DecodeError} (h : s.pending = .chan w :: rest)
    (hw : decodeChan w = .error e) : step s = .refused .undefinedTransaction := by
  simp only [step, fetch, h, hostSlot, hw]

/-- A step cut by a reset answers a next state only if the whole step does (R260). -/
theorem cutByReset_next {t : State} {k : Nat} {r : Result} (h : cutByReset k s r = .next t) :
    ∃ u, r = .next u ∧ t = (State.replay ((s.issued u).take k) s).resetEvent := by
  cases r with
  | next u => exact ⟨u, rfl, by simpa [cutByReset] using h.symm⟩
  | fault f => cases h
  | refused q => cases h

/-- A transaction of the channels, as an instruction, is the transaction or is refused (R62 to R67). -/
theorem exec_transaction_next {w : ChanReq} {i : Instr} {t : State} (hw : decodeChan w = .ok i)
    (h : exec i s = .next t) : t = s.transact i := by
  obtain ⟨n, rfl⟩ | rfl | ⟨n, v, rfl⟩ | rfl := decodeChan_cases hw
  · simp only [exec, execInRead] at h
    split at h <;> cases h
    rfl
  · cases h; rfl
  · simp only [exec, execOutWrite] at h
    split at h <;> cases h
    rfl
  · cases h; rfl

end Sys2Proof.Machine
end

section
/-! The invariant under the named operations: one rule per memory write, register write and channel operation, and the
invariant of the states that a reset and the acceptance of an operation make. -/

namespace Sys2Proof.Machine

namespace Memory

variable {α : Type} [DecidableEq α] {d : α} {m : List (Nat × α)}

/-- A property of every entry and of the value written is one of every entry after the write. -/
theorem forall_read_write {p : α → Prop} {i : Nat} {v : α} (h : wf d m = true) (hv : p v) (hm : ∀ j, p (read d m j))
    (j : Nat) : p (read d (write d m i v) j) := by
  rw [read_write d h]
  split
  · exact hv
  · exact hm j

end Memory

/-- A node whose fields fit the widths of R31. -/
structure NodeEntry.Fits (c : Config) (n : NodeEntry) : Prop where
  weight : n.weight < 2 ^ c.cntW
  left : n.left < 2 ^ c.idxW
  right : n.right < 2 ^ c.idxW

/-- `NIL` is a value of an index register (R7). -/
theorem nil_lt_idx (c : Config) : c.nil < 2 ^ c.idxW := Nat.sub_lt (Nat.two_pow_pos _) Nat.one_pos

theorem idx_of_lt_nodeCap {c : Config} {i : Nat} (h : i < c.nodeCap) : i < 2 ^ c.idxW :=
  Nat.lt_trans h (State.nodeCap_lt_idx c)

/-- The phase order, read off its table (R23): it enters and leaves no `FAULT`, and a phase of a compress or of a
decompress is entered only from a phase of the same operation. -/
theorem Phase.after_keeps (p : Phase) : ∀ q ∈ p.after, (q = .fault ↔ p = .fault) ∧
    (q.ofCompress = true → p.ofCompress = true) ∧ (q.ofDecompress = true → p.ofDecompress = true) := by
  cases p <;> decide

namespace State

variable {s t : State}

/-- A read of `n` bits returns a value of `n` bits (R62). -/
theorem peek_toNat_lt {n : Nat} {v : Word} (h : s.peek n = some v) : v.toNat < 2 ^ n := by
  obtain ⟨-, rfl⟩ := peek_eq_some h
  calc (BitVec.ofNat 32 (valMsb (s.inBits n))).toNat
      ≤ valMsb (s.inBits n) := by rw [BitVec.toNat_ofNat]; exact Nat.mod_le _ _
    _ < 2 ^ (s.inBits n).length := valMsb_lt _
    _ ≤ 2 ^ n := Nat.pow_le_pow_right (by omega) (by simp [inBits])

theorem cntAdd_lt (s : State) (a b : Nat) : s.cntAdd a b < 2 ^ s.cfg.cntW := Nat.mod_lt _ (Nat.two_pow_pos _)

/-- The least live index is listed (R134). -/
theorem mem_of_leastLive {m : List (Nat × Bool)} {i : Nat} (h : s.leastLive m = some i) : (i, true) ∈ m := by
  induction m generalizing i with
  | nil => cases h
  | cons e m ih =>
    obtain ⟨k, l⟩ := e
    unfold leastLive at h
    split at h
    · split at h <;> cases h
      simp_all
    · rename_i j hj
      split at h <;> cases h
      · simp_all
      · exact List.mem_cons_of_mem _ (ih hj)

/-- `init()` lists no index that was not listed (R219). -/
theorem mem_invalidate {m : List (Nat × CodeEntry)} {e : Nat × CodeEntry} (h : e ∈ invalidate m) :
    ∃ f ∈ m, f.1 = e.1 := by
  induction m with
  | nil => cases h
  | cons g m ih =>
    obtain ⟨k, u⟩ := g
    simp only [invalidate] at h
    split at h
    · obtain ⟨f, hf, he⟩ := ih h
      exact ⟨f, List.mem_cons_of_mem _ hf, he⟩
    · rcases List.mem_cons.mp h with rfl | h
      · exact ⟨_, List.mem_cons_self, rfl⟩
      · obtain ⟨f, hf, he⟩ := ih h
        exact ⟨f, List.mem_cons_of_mem _ hf, he⟩

theorem wf_invalidate {m : List (Nat × CodeEntry)} (h : Memory.wf CodeEntry.zero m = true) :
    Memory.wf CodeEntry.zero (invalidate m) = true := by
  induction m with
  | nil => rfl
  | cons e m ih =>
    obtain ⟨k, u⟩ := e
    have ih := ih (Memory.wf_tail _ h)
    simp only [invalidate]
    split
    · exact ih
    · rename_i hne
      refine Memory.wf_cons _ hne ih fun e he => ?_
      obtain ⟨f, hf, hfe⟩ := mem_invalidate he
      exact hfe ▸ Memory.wf_head_lt _ h f hf

theorem below_invalidate {m : List (Nat × CodeEntry)} {n : Nat} (h : Memory.below n m = true) :
    Memory.below n (invalidate m) = true := by
  simp only [Memory.below, List.all_eq_true, decide_eq_true_eq] at h ⊢
  intro e he
  obtain ⟨f, hf, hfe⟩ := mem_invalidate he
  exact hfe ▸ h f hf

namespace Inv

theorem nodeFits (h : s.Inv) (i : Nat) : (s.nodeAt i).Fits s.cfg :=
  ⟨h.widths.weight i, h.widths.left i, h.widths.right i⟩

/-- `minlive()` names a node of the node memory (R134). -/
theorem minlive_lt (h : s.Inv) {a : Nat} (ha : s.minlive = some a) : a < s.cfg.nodeCap :=
  of_decide_eq_true (List.all_eq_true.mp h.memories.liveBelow _ (mem_of_leastLive ha))

/-! ### Memory writes -/

theorem setFreq (h : s.Inv) {i v : Nat} (hi : i < Config.nsyms) (hv : v < 2 ^ s.cfg.cntW) : (s.setFreq i v).Inv :=
  { h with
    memories := { h.memories with
      freqWf := Memory.wf_write 0 h.memories.freqWf i v
      freqBelow := Memory.below_write 0 h.memories.freqBelow hi v }
    widths := { h.widths with
      freq := Memory.forall_read_write (p := (· < 2 ^ s.cfg.cntW)) h.memories.freqWf hv h.widths.freq } }

theorem setNode (h : s.Inv) {i : Nat} {v : NodeEntry} (hi : i < s.cfg.nodeCap) (hv : v.Fits s.cfg) :
    (s.setNode i v).Inv :=
  have fits := Memory.forall_read_write (i := i) h.memories.nodeWf hv h.nodeFits
  { h with
    memories := { h.memories with
      nodeWf := Memory.wf_write _ h.memories.nodeWf i v
      nodeBelow := Memory.below_write _ h.memories.nodeBelow hi v }
    widths := { h.widths with
      weight := fun j => (fits j).weight
      left := fun j => (fits j).left
      right := fun j => (fits j).right } }

theorem setLive (h : s.Inv) {i : Nat} (v : Bool) (hi : i < s.cfg.nodeCap) : (s.setLive i v).Inv :=
  { h with
    memories := { h.memories with
      liveWf := Memory.wf_write _ h.memories.liveWf i v
      liveBelow := Memory.below_write _ h.memories.liveBelow hi v }
    widths := { h.widths with } }

theorem setCode (h : s.Inv) {i : Nat} (v : CodeEntry) (hi : i < Config.nsyms) : (s.setCode i v).Inv :=
  { h with
    memories := { h.memories with
      codeWf := Memory.wf_write _ h.memories.codeWf i v
      codeBelow := Memory.below_write _ h.memories.codeBelow hi v }
    widths := { h.widths with } }

theorem setStk (h : s.Inv) {i : Nat} {v : StkEntry} (hi : i < s.cfg.stackCap) (hv : v.node < 2 ^ s.cfg.idxW) :
    (s.setStk i v).Inv :=
  { h with
    memories := { h.memories with
      stkWf := Memory.wf_write _ h.memories.stkWf i v
      stkBelow := Memory.below_write _ h.memories.stkBelow hi v }
    widths := { h.widths with
      stkNode := Memory.forall_read_write (p := fun e => e.node < 2 ^ s.cfg.idxW) h.memories.stkWf hv h.widths.stkNode } }

/-! ### Register writes -/

theorem setNsym (h : s.Inv) {k : Nat} (hk : k ≤ s.cfg.maxInput) : ({ s with nsym := k } : State).Inv :=
  { h with memories := { h.memories with }, widths := { h.widths with nsym := hk } }

theorem setNnodes (h : s.Inv) {k : Nat} (hk : k ≤ s.cfg.nodeCap) : ({ s with nnodes := k } : State).Inv :=
  { h with memories := { h.memories with }, widths := { h.widths with nnodes := hk } }

theorem setRoot (h : s.Inv) {k : Nat} (hk : k < 2 ^ s.cfg.idxW) : ({ s with root := k } : State).Inv :=
  { h with memories := { h.memories with }, widths := { h.widths with root := hk } }

theorem setCur (h : s.Inv) {k : Nat} (hk : k < 2 ^ s.cfg.idxW) : ({ s with cur := k } : State).Inv :=
  { h with memories := { h.memories with }, widths := { h.widths with cur := hk } }

theorem setSp (h : s.Inv) {k : Nat} (hk : k ≤ s.cfg.stackCap) : ({ s with sp := k } : State).Inv :=
  { h with memories := { h.memories with }, widths := { h.widths with sp := hk } }

theorem setScan (h : s.Inv) {v : Sym} (hv : v.toNat ≤ 256) : ({ s with scan := v } : State).Inv :=
  { h with memories := { h.memories with }, widths := { h.widths with scan := hv } }

/-- `PHASE` moves along the order of the phases (R23). -/
theorem setPhase (h : s.Inv) {p q : Phase} (hs : s.phase = p) (hq : q ∈ p.after) : ({ s with phase := q } : State).Inv := by
  subst hs
  obtain ⟨hfault, hcompress, hdecompress⟩ := Phase.after_keeps _ q hq
  exact
    { h with
      memories := { h.memories with }
      widths := { h.widths with }
      errcode := h.errcode.trans hfault.symm
      compressing := fun hc => h.compressing (hcompress hc)
      decompressing := fun hd => h.decompressing (hdecompress hd) }

/-- An error records its code with `PHASE` = `FAULT` (R240). -/
theorem raise (h : s.Inv) {c : ErrCode} (hc : c ≠ .none) : (s.raise c).Inv :=
  { h with
    memories := { h.memories with }
    widths := { h.widths with }
    errcode := iff_of_true hc rfl
    compressing := nofun
    decompressing := nofun }

theorem acknowledge (h : s.Inv) : s.acknowledge.Inv :=
  { h with
    memories := { h.memories with }
    widths := { h.widths with }
    errcode := iff_of_false (fun e => e rfl) nofun
    compressing := nofun
    decompressing := nofun }

/-! ### The channels and the model's own fields -/

/-- What is outside the core may change freely, but the cursor stays inside `IN` (R61). -/
theorem setEnvironment (h : s.Inv) {i : InChan} (hi : i.pos ≤ i.bits.length) (o : OutChan)
    (log : List (ChanReq × ChanResp)) (reads : List (Nat × Word)) (pending : List HostEvent) (ctr : Nat) :
    ({ s with inp := i, out := o, chanLog := log, hostReads := reads, pending := pending, freeCtr := ctr } : State).Inv :=
  { h with memories := { h.memories with }, widths := { h.widths with }, cursor := hi }

theorem setPending (h : s.Inv) (l : List HostEvent) : ({ s with pending := l } : State).Inv :=
  h.setEnvironment h.cursor ..

theorem afterRead (h : s.Inv) (n : Nat) : (s.afterRead n).Inv :=
  h.setEnvironment (by rw [inAfter_bits]; exact inAfter_pos_le s n) ..

theorem resetIn (h : s.Inv) : s.resetIn.Inv :=
  h.setEnvironment (i := { s.inp with pos := 0, eod := false }) (Nat.zero_le _) ..

theorem writeBits (h : s.Inv) (n : Nat) (v : Word) : (s.writeBits n v).Inv := h.setEnvironment h.cursor ..

theorem closeOut (h : s.Inv) : s.closeOut.Inv := h.setEnvironment h.cursor ..

theorem hostRead (h : s.Inv) (k : Nat) : (s.hostRead k).Inv := h.setEnvironment h.cursor ..

theorem launch (h : s.Inv) (b : List Byte) : (s.launch b).Inv :=
  h.setEnvironment (i := { bits := bytesToBits b, pos := 0, eod := false }) (Nat.zero_le _) ..

theorem swapIn (h : s.Inv) (b : List Byte) : (s.swapIn b).Inv := h.setEnvironment (Nat.min_le_right _ _) ..

theorem emitBits (h : s.Inv) (val : CodeVal) (k : Nat) : (emitBits val k s).Inv := by
  induction k generalizing s with
  | zero => exact h
  | succ k ih => exact ih (h.writeBits ..)

theorem emit (h : s.Inv) (c : CodeEntry) : (s.emit c).Inv := h.emitBits ..

theorem transact (h : s.Inv) (i : Instr) : (s.transact i).Inv := by
  unfold State.transact
  split
  · exact h.afterRead _
  · exact h.resetIn
  · exact h.writeBits ..
  · exact h.closeOut
  all_goals exact h

theorem replay (h : s.Inv) (ws : List ChanReq) : (replay ws s).Inv := by
  induction ws generalizing s with
  | nil => exact h
  | cons w ws ih =>
    unfold State.replay
    split
    · exact ih (h.transact _)
    · exact ih h

/-! ### Start of an operation, and reset -/

/-- Acceptance of an operation (R217, R218): the phase entered is one of the mode's, and not `FAULT`. -/
theorem accept (h : s.Inv) {m : Mode} {p : Phase} (hf : p ≠ .fault) (hc : p.ofCompress = true → m = .compress)
    (hd : p.ofDecompress = true → m = .decompress) : (s.accept m p).Inv :=
  { h with
    memories := { h.memories with
      freqWf := rfl
      freqBelow := rfl
      liveWf := rfl
      liveBelow := rfl
      codeWf := wf_invalidate h.memories.codeWf
      codeBelow := below_invalidate h.memories.codeBelow }
    widths := { h.widths with
      nsym := Nat.zero_le _
      nnodes := Nat.zero_le _
      root := nil_lt_idx _
      cur := nil_lt_idx _
      sp := Nat.zero_le _
      scan := Nat.zero_le _
      freq := fun _ => Nat.two_pow_pos _ }
    errcode := iff_of_false (fun e => e rfl) hf
    compressing := hc
    decompressing := hd }

/-- The free contents of `NODE` after a reset fit the widths. -/
theorem freeNode_fits (s : State) (i : Nat) : (Memory.read NodeEntry.zero s.freeNode i).Fits s.cfg := by
  refine Memory.read_ofFn_prop _ (NodeEntry.Fits s.cfg) ?_ _ _ (fun j => ?_) i
  · exact ⟨Nat.two_pow_pos _, Nat.two_pow_pos _, Nat.two_pow_pos _⟩
  · exact ⟨Nat.mod_lt _ (Nat.two_pow_pos _), Nat.mod_lt _ (Nat.two_pow_pos _), Nat.mod_lt _ (Nat.two_pow_pos _)⟩

/-- A reset in any phase (R260), whatever the free contents of the memories are. -/
theorem resetEvent (h : s.Inv) : s.resetEvent.Inv :=
  { h with
    memories :=
      { freqWf := Memory.wf_ofFn ..
        nodeWf := Memory.wf_ofFn ..
        liveWf := Memory.wf_ofFn ..
        codeWf := Memory.wf_ofFn ..
        stkWf := Memory.wf_ofFn ..
        freqBelow := Memory.below_ofFn ..
        nodeBelow := Memory.below_ofFn ..
        liveBelow := Memory.below_ofFn ..
        codeBelow := Memory.below_ofFn ..
        stkBelow := Memory.below_ofFn .. }
    widths :=
      { nsym := Nat.zero_le _
        nnodes := Nat.zero_le _
        root := nil_lt_idx _
        cur := nil_lt_idx _
        sp := Nat.zero_le _
        scan := Nat.zero_le _
        freq := Memory.read_ofFn_prop 0 (· < 2 ^ s.cfg.cntW) (Nat.two_pow_pos _) _ _
          fun _ => Nat.mod_lt _ (Nat.two_pow_pos _)
        weight := fun i => (freeNode_fits s i).weight
        left := fun i => (freeNode_fits s i).left
        right := fun i => (freeNode_fits s i).right
        stkNode := Memory.read_ofFn_prop StkEntry.zero (fun e => e.node < 2 ^ s.cfg.idxW) (Nat.two_pow_pos _) _ _
          fun _ => Nat.mod_lt _ (Nat.two_pow_pos _) }
    errcode := iff_of_false (fun e => e rfl) nofun
    compressing := fun _ => rfl
    decompressing := nofun }

end Inv

end State

end Sys2Proof.Machine
end

section
/-! Every phase's step keeps the invariant: what the step can do (`Laws/Phases`) is a chain of named operations, each of
which keeps it. -/

namespace Sys2Proof.Machine.State

variable {s t : State}

/-- The two ends of a `BUILD_INIT` step (R133). -/
theorem nextSymbol_cases (s : State) :
    (s.scan = eofSym ∧ s.nextSymbol = { s with phase := .buildMerge }) ∨
    (s.scan ≠ eofSym ∧ s.nextSymbol = { s with scan := s.scan + 1 }) := by
  unfold nextSymbol
  split
  · exact .inl ⟨‹_›, rfl⟩
  · exact .inr ⟨‹_›, rfl⟩

/-- The symbol after one of 0 to 255 is one of 1 to 256. -/
theorem scan_succ_le {v : Sym} (h : v.toNat ≤ 256) (hne : v ≠ eofSym) : (v + 1).toNat ≤ 256 := by
  bv_omega

namespace Inv

theorem count (h : s.Inv) (hs : s.phase = .count) (hx : execPhaseCount s = .next t) : t.Inv := by
  have hr := h.afterRead 8
  obtain ⟨-, rfl⟩ | ⟨r, hpeek, ⟨-, rfl⟩ | ⟨hne, rfl⟩⟩ := execPhaseCount_next hx
  · have hw : 1 < 2 ^ s.cfg.cntW := by
      have hc := h.config
      simp only [Config.wf, Bool.and_eq_true, decide_eq_true_eq] at hc
      exact Nat.one_lt_two_pow (by omega)
    exact ((hr.setFreq (i := 256) (by decide) hw).setScan (v := 0) (by decide)).setPhase hs (by decide)
  · exact hr.raise nofun
  · have hbyte : r.toNat < Config.nsyms := Nat.lt_trans (peek_toNat_lt hpeek) (by decide)
    have hlt : s.nsym < s.cfg.maxInput := Nat.lt_of_le_of_ne h.widths.nsym hne
    exact (hr.setFreq hbyte (cntAdd_lt s (s.freqAt r.toNat) 1)).setNsym (k := s.cntAdd s.nsym 1)
      (by rw [cntAdd_one_of_lt hlt]; exact hlt)

theorem insertNode (h : s.Inv) (hn : s.nnodes < s.cfg.nodeCap) : s.insertNode.Inv :=
  (h.setLive true hn).setNnodes (k := s.idxInc s.nnodes) (by rw [idxInc_of_lt hn]; exact hn)

theorem nextSymbol (h : s.Inv) (hs : s.phase = .buildInit) : s.nextSymbol.Inv := by
  obtain ⟨-, e⟩ | ⟨hne, e⟩ := nextSymbol_cases s
  · rw [e]; exact h.setPhase hs (by decide)
  · rw [e]; exact h.setScan (scan_succ_le h.widths.scan hne)

theorem builtLeaf_fits (h : s.Inv) : s.builtLeaf.Fits s.cfg := ⟨h.widths.freq _, nil_lt_idx _, nil_lt_idx _⟩

theorem buildInit (h : s.Inv) (hs : s.phase = .buildInit) (hx : execPhaseBuildInit s = .next t) : t.Inv := by
  obtain ⟨-, ⟨-, rfl⟩ | ⟨-, hn, rfl⟩⟩ := execPhaseBuildInit_next hx
  · exact h.nextSymbol hs
  · exact ((h.setNode hn h.builtLeaf_fits).insertNode hn).nextSymbol hs

theorem finishTree (h : s.Inv) (hs : s.phase = .buildMerge) {a : Nat} (ha : a < s.cfg.nodeCap)
    (hx : s.finishTree a = .next t) : t.Inv := by
  obtain ⟨hcap, rfl⟩ := finishTree_next hx
  have hroot := (h.setLive false ha).setRoot (idx_of_lt_nodeCap ha)
  exact ((hroot.setStk (v := StkEntry.start a) hcap (idx_of_lt_nodeCap ha)).setSp (k := 1) hcap).setPhase hs (by decide)

theorem merge (h : s.Inv) {a : Nat} (ha : a < s.cfg.nodeCap) (hx : s.merge a = .next t) : t.Inv := by
  obtain ⟨b, hmin, hn, rfl⟩ := merge_next hx
  have hfirst := h.setLive false ha
  have hb : b < s.cfg.nodeCap := hfirst.minlive_lt hmin
  have hfits : (s.mergedNode a b).Fits s.cfg := ⟨cntAdd_lt .., idx_of_lt_nodeCap ha, idx_of_lt_nodeCap hb⟩
  exact ((hfirst.setLive false hb).setNode hn hfits).insertNode hn

theorem buildMerge (h : s.Inv) (hs : s.phase = .buildMerge) (hx : execPhaseBuildMerge s = .next t) : t.Inv := by
  obtain ⟨a, hmin, ⟨-, hx⟩ | ⟨-, hx⟩⟩ := execPhaseBuildMerge_next hx
  · exact h.finishTree hs (h.minlive_lt hmin) hx
  · exact h.merge (h.minlive_lt hmin) hx

/-- The stack pointer after the push of a traversal fits the register (R27). -/
theorem idxInc_le_stackCap {k : Nat} (hk : k < s.cfg.stackCap) : s.idxInc k ≤ s.cfg.stackCap := by
  rw [idxInc_of_lt hk]; exact hk

theorem derive (h : s.Inv) (hs : s.phase = .derive) (hx : execPhaseDerive s = .next t) : t.Inv := by
  obtain ⟨-, rfl⟩ | ⟨k, -, hk, -, ⟨-, hsym, rfl⟩ | ⟨-, hk1, rfl⟩⟩ := execPhaseDerive_next hx
  · exact h.setPhase hs (by decide)
  · exact (h.setSp hk.le).setCode _ (Nat.lt_succ_of_le hsym)
  · have hright := h.setStk (v := (s.stkAt k).right (s.nodeAt (s.stkAt k).node).right) hk (h.nodeFits _).right
    exact (hright.setStk (v := (s.stkAt k).left (s.nodeAt (s.stkAt k).node).left) hk1 (h.nodeFits _).left).setSp
      (idxInc_le_stackCap hk1)

theorem wrMagic (h : s.Inv) (hs : s.phase = .wrMagic) (hx : execPhaseWrMagic s = .next t) : t.Inv := by
  obtain ⟨hcap, rfl⟩ := execPhaseWrMagic_next hx
  have hstart := (h.writeBits 32 s.cfg.magic).setStk (v := StkEntry.start s.root) hcap h.widths.root
  exact (hstart.setSp (k := 1) hcap).setPhase hs (by decide)

theorem wrTree (h : s.Inv) (hs : s.phase = .wrTree) (hx : execPhaseWrTree s = .next t) : t.Inv := by
  obtain ⟨-, rfl⟩ | ⟨k, -, hk, -, ⟨-, rfl⟩ | ⟨-, hk1, rfl⟩⟩ := execPhaseWrTree_next hx
  · exact h.setPhase hs (by decide)
  · exact ((h.writeBits 1 1).writeBits 9 _).setSp hk.le
  · have hright := (h.writeBits 1 0).setStk (v := { s.stkAt k with node := (s.nodeAt (s.stkAt k).node).right }) hk
      (h.nodeFits _).right
    exact (hright.setStk hk1 (h.nodeFits _).left).setSp (idxInc_le_stackCap hk1)

theorem rewind (h : s.Inv) (hs : s.phase = .rewind) (hx : execPhaseRewind s = .next t) : t.Inv := by
  cases hx
  exact h.resetIn.setPhase hs (by decide)

theorem encode (h : s.Inv) (hs : s.phase = .encode) (hx : execPhaseEncode s = .next t) : t.Inv := by
  have hr := h.afterRead 8
  obtain ⟨-, rfl⟩ | ⟨r, -, ⟨-, rfl⟩ | ⟨-, rfl⟩⟩ := execPhaseEncode_next hx
  · exact hr.setPhase hs (by decide)
  · exact hr.emit _
  · exact hr.raise nofun

theorem wrEof (h : s.Inv) (hs : s.phase = .wrEof) (hx : execPhaseWrEof s = .next t) : t.Inv := by
  cases hx
  exact (h.emit _).setPhase ((emit_phase ..).trans hs) (by decide)

theorem close (h : s.Inv) (hs : s.phase = .close) (hx : execPhaseClose s = .next t) : t.Inv := by
  cases hx
  exact h.closeOut.setPhase hs (by decide)

theorem rdMagic (h : s.Inv) (hs : s.phase = .rdMagic) (hx : execPhaseRdMagic s = .next t) : t.Inv := by
  have hr := h.afterRead 32
  obtain ⟨-, rfl⟩ | ⟨-, rfl⟩ := execPhaseRdMagic_next hx
  · exact (hr.setSp (k := 0) (Nat.zero_le _)).setPhase hs (by decide)
  · exact hr.raise nofun

/-- The link-upward loop, by induction on the stack pointer (R166). -/
theorem linkUp {k d : Nat} (h : s.Inv) (hs : s.phase = .rdTree) (hd : d < 2 ^ s.cfg.idxW)
    (hx : linkUp k d s = .next t) : t.Inv := by
  induction k generalizing d s with
  | zero =>
    obtain rfl := linkUp_zero hx
    exact (((h.setSp (k := 0) (Nat.zero_le _)).setRoot hd).setCur hd).setPhase hs (by decide)
  | succ k ih =>
    have hfits := h.nodeFits (s.stkAt k).node
    have hright : ({ s.nodeAt (s.stkAt k).node with right := d } : NodeEntry).Fits s.cfg := { hfits with right := hd }
    have hleft : ({ s.nodeAt (s.stkAt k).node with left := d } : NodeEntry).Fits s.cfg := { hfits with left := hd }
    obtain ⟨hk, hnode, ⟨-, hx⟩ | ⟨-, rfl⟩⟩ := linkUp_succ hx
    · exact ih ((h.setNode hnode hright).setSp hk.le) hs (idx_of_lt_nodeCap hnode) hx
    · exact ((h.setSp (k := k + 1) hk).setNode hnode hleft).setStk hk (h.widths.stkNode k)

theorem takeInner (h : s.Inv) (hx : s.takeInner = .next t) : t.Inv := by
  obtain ⟨hn, hsp, rfl⟩ := takeInner_next hx
  have hfits : s.readInner.Fits s.cfg := ⟨Nat.two_pow_pos _, nil_lt_idx _, nil_lt_idx _⟩
  have hstk := (h.setNode hn hfits).setStk (v := { node := s.nnodes, side := false, len := 0, val := 0 }) hsp
    (idx_of_lt_nodeCap hn)
  exact (hstk.setSp (idxInc_le_stackCap hsp)).setNnodes (idxInc_le_stackCap hn)

theorem takeLeaf (h : s.Inv) (hs : s.phase = .rdTree) {v : Sym} (hx : s.takeLeaf v = .next t) : t.Inv := by
  obtain ⟨hn, hx⟩ := takeLeaf_next hx
  have hfits : (s.readLeaf v).Fits s.cfg := ⟨Nat.two_pow_pos _, nil_lt_idx _, nil_lt_idx _⟩
  exact ((h.setNode hn hfits).setNnodes (idxInc_le_stackCap hn)).linkUp hs (idx_of_lt_nodeCap hn) hx

theorem rdTree (h : s.Inv) (hs : s.phase = .rdTree) (hx : execPhaseRdTree s = .next t) : t.Inv := by
  have hflag := h.afterRead 1
  have hsymbol := hflag.afterRead 9
  obtain ⟨-, rfl⟩ | ⟨-, ⟨-, rfl⟩ | ⟨-, hx⟩ | ⟨f, -, -, ⟨-, rfl⟩ | ⟨v, -, hx⟩⟩⟩ := execPhaseRdTree_next hx
  · exact h.raise nofun
  · exact hflag.raise nofun
  · exact hflag.takeInner hx
  · exact hsymbol.raise nofun
  · exact hsymbol.takeLeaf hs hx

theorem leafRoot (h : s.Inv) (hs : s.phase = .decode) (v : Sym) : (s.leafRoot v).Inv := by
  obtain ⟨-, e⟩ | ⟨-, e⟩ := leafRoot_cases s v
  · rw [e]; exact h.closeOut.setPhase hs (by decide)
  · rw [e]; exact h.raise nofun

theorem leafAction (h : s.Inv) (hs : s.phase = .decode) (v : Sym) : (s.leafAction v).Inv := by
  obtain ⟨-, e⟩ | ⟨-, -, e⟩ | ⟨-, e⟩ := leafAction_cases s v
  · rw [e]; exact h.closeOut.setPhase hs (by decide)
  · rw [e]; exact h.raise nofun
  · rw [e]; exact (h.writeBits ..).setCur h.widths.root

theorem decode (h : s.Inv) (hs : s.phase = .decode) (hx : execPhaseDecode s = .next t) : t.Inv := by
  have hr := h.afterRead 1
  obtain ⟨-, ⟨-, rfl⟩ | ⟨-, ⟨-, rfl⟩ | ⟨b, c, -, -, hc, rfl⟩⟩⟩ := execPhaseDecode_next hx
  · exact h.leafRoot hs _
  · exact hr.raise nofun
  · have hmoved := hr.setCur (k := c) (idx_of_lt_nodeCap hc)
    split
    · exact hmoved.leafAction hs _
    · exact hmoved

/-- The sequencer's step keeps the invariant, phase by phase. -/
theorem exec_phase (h : s.Inv) (hx : exec (phaseInstr s.phase) s = .next t) : t.Inv := by
  cases hs : s.phase <;> rw [hs] at hx
  case idle => cases hx; exact h
  case count => exact h.count hs hx
  case buildInit => exact h.buildInit hs hx
  case buildMerge => exact h.buildMerge hs hx
  case derive => exact h.derive hs hx
  case wrMagic => exact h.wrMagic hs hx
  case wrTree => exact h.wrTree hs hx
  case rewind => exact h.rewind hs hx
  case encode => exact h.encode hs hx
  case wrEof => exact h.wrEof hs hx
  case close => exact h.close hs hx
  case rdMagic => exact h.rdMagic hs hx
  case rdTree => exact h.rdTree hs hx
  case decode => exact h.decode hs hx
  case done => cases hx; exact h
  case fault => cases hx; exact h

/-- A command written by the host keeps the invariant (R216). -/
theorem exec_command (h : s.Inv) {v : Word} (hx : exec (decodeCmd v) s = .next t) : t.Inv := by
  obtain e | e | e | e := decodeCmd_cases v <;> rw [e] at hx <;> cases hx
  · exact h
  · split
    · exact h.accept nofun (fun _ => rfl) nofun
    · exact h
  · split
    · exact h.accept nofun nofun (fun _ => rfl)
    · exact h
  · split
    · exact h.acknowledge
    · exact h

end Inv

end Sys2Proof.Machine.State

namespace Sys2Proof.Machine

/-- Settles O55, by the slot the step takes: the sequencer's step, a command, or an act of the host or the environment. -/
theorem stepKeepsInvariant : Obligations.StepKeepsInvariant := by
  intro s t h hx
  rcases hp : s.pending with _ | ⟨e, rest⟩
  · rw [step_idleHost hp] at hx
    exact h.exec_phase hx
  have hu : ({ s with pending := rest } : State).Inv := h.setPending rest
  cases e with
  | seq =>
    rw [step_seq hp] at hx
    exact hu.exec_phase hx
  | regWrite k v =>
    by_cases hk : k = 0
    · subst hk
      rw [step_regWrite_cmd hp] at hx
      exact hu.exec_command hx
    · cases (step_regWrite_readOnly hk hp).symm.trans hx
      exact hu
  | regRead k =>
    cases (step_regRead hp).symm.trans hx
    exact hu.hostRead k
  | reset =>
    cases (step_reset hp).symm.trans hx
    exact hu.resetEvent
  | resetDuring k =>
    obtain ⟨u, -, rfl⟩ := cutByReset_next ((step_resetDuring hp).symm.trans hx)
    exact (hu.replay _).resetEvent
  | launch b =>
    cases (step_launch hp).symm.trans hx
    exact hu.launch b
  | swapIn b =>
    cases (step_swapIn hp).symm.trans hx
    exact hu.swapIn b
  | chan w =>
    cases hw : decodeChan w with
    | ok i =>
      rw [step_chan hp hw] at hx
      rw [exec_transaction_next hw hx]
      exact hu.transact i
    | error e =>
      cases (step_chan_refused hp hw).symm.trans hx

end Sys2Proof.Machine
end

section
/-! The order of the phases (R23), and which phase writes which register and memory (the `written by` columns of R26 and
R30 to R35): one lemma per phase, from the cases of its step. -/

namespace Sys2Proof.Machine

open State

variable {s t : State}

/-- Where the step of phase `p` may leave `PHASE`: the order of R23, or `FAULT` from a busy phase (R240). -/
def Phase.LeadsTo (p q : Phase) : Prop := q ∈ p.after ∨ (p.busy = true ∧ q = .fault)

namespace Phase.LeadsTo

theorem count (hs : s.phase = .count) (hx : execPhaseCount s = .next t) : Phase.count.LeadsTo t.phase := by
  obtain ⟨-, rfl⟩ | ⟨r, -, ⟨-, rfl⟩ | ⟨-, rfl⟩⟩ := execPhaseCount_next hx
  · exact .inl (by simp [Phase.after])
  · exact .inr ⟨rfl, rfl⟩
  · exact .inl (by simp [Phase.after, hs])

theorem buildInit (hs : s.phase = .buildInit) (hx : execPhaseBuildInit s = .next t) :
    Phase.buildInit.LeadsTo t.phase := by
  obtain ⟨-, ⟨-, rfl⟩ | ⟨-, -, rfl⟩⟩ := execPhaseBuildInit_next hx
  · obtain ⟨-, e⟩ | ⟨-, e⟩ := nextSymbol_cases s <;> exact .inl (by simp [Phase.after, e, hs])
  · obtain ⟨-, e⟩ | ⟨-, e⟩ := nextSymbol_cases (s.setNode s.nnodes s.builtLeaf).insertNode <;>
      exact .inl (by simp [Phase.after, e, hs])

theorem buildMerge (hs : s.phase = .buildMerge) (hx : execPhaseBuildMerge s = .next t) :
    Phase.buildMerge.LeadsTo t.phase := by
  obtain ⟨a, -, ⟨-, hx⟩ | ⟨-, hx⟩⟩ := execPhaseBuildMerge_next hx
  · obtain ⟨-, rfl⟩ := finishTree_next hx
    exact .inl (by simp [Phase.after])
  · obtain ⟨b, -, -, rfl⟩ := merge_next hx
    exact .inl (by simp [Phase.after, hs])

theorem derive (hs : s.phase = .derive) (hx : execPhaseDerive s = .next t) : Phase.derive.LeadsTo t.phase := by
  obtain ⟨-, rfl⟩ | ⟨k, -, -, -, ⟨-, -, rfl⟩ | ⟨-, -, rfl⟩⟩ := execPhaseDerive_next hx
  · exact .inl (by simp [Phase.after])
  · exact .inl (by simp [Phase.after, hs])
  · exact .inl (by simp [Phase.after, hs])

theorem wrMagic (hx : execPhaseWrMagic s = .next t) : Phase.wrMagic.LeadsTo t.phase := by
  obtain ⟨-, rfl⟩ := execPhaseWrMagic_next hx
  exact .inl (by simp [Phase.after])

theorem wrTree (hs : s.phase = .wrTree) (hx : execPhaseWrTree s = .next t) : Phase.wrTree.LeadsTo t.phase := by
  obtain ⟨-, rfl⟩ | ⟨k, -, -, -, ⟨-, rfl⟩ | ⟨-, -, rfl⟩⟩ := execPhaseWrTree_next hx
  · exact .inl (by simp [Phase.after])
  · exact .inl (by simp [Phase.after, hs, writeLeafToken])
  · exact .inl (by simp [Phase.after, hs, writeInnerToken])

theorem encode (hs : s.phase = .encode) (hx : execPhaseEncode s = .next t) : Phase.encode.LeadsTo t.phase := by
  obtain ⟨-, rfl⟩ | ⟨r, -, ⟨-, rfl⟩ | ⟨-, rfl⟩⟩ := execPhaseEncode_next hx
  · exact .inl (by simp [Phase.after])
  · exact .inl (by simp [Phase.after, hs])
  · exact .inr ⟨rfl, rfl⟩

theorem rdMagic (hx : execPhaseRdMagic s = .next t) : Phase.rdMagic.LeadsTo t.phase := by
  obtain ⟨-, rfl⟩ | ⟨-, rfl⟩ := execPhaseRdMagic_next hx
  · exact .inl (by simp [Phase.after])
  · exact .inr ⟨rfl, rfl⟩

theorem rdTree (hs : s.phase = .rdTree) (hx : execPhaseRdTree s = .next t) : Phase.rdTree.LeadsTo t.phase := by
  obtain ⟨-, rfl⟩ | ⟨-, ⟨-, rfl⟩ | ⟨-, hx⟩ | ⟨f, -, -, ⟨-, rfl⟩ | ⟨v, -, hx⟩⟩⟩ := execPhaseRdTree_next hx
  · exact .inr ⟨rfl, rfl⟩
  · exact .inr ⟨rfl, rfl⟩
  · obtain ⟨-, -, rfl⟩ := takeInner_next hx
    exact .inl (by simp [Phase.after, hs])
  · exact .inr ⟨rfl, rfl⟩
  · obtain ⟨-, hx⟩ := takeLeaf_next hx
    obtain e | e := linkUp_phase hx <;> exact .inl (by simp [Phase.after, e, hs])

theorem decode (hs : s.phase = .decode) (hx : execPhaseDecode s = .next t) : Phase.decode.LeadsTo t.phase := by
  obtain ⟨-, ⟨-, rfl⟩ | ⟨-, ⟨-, rfl⟩ | ⟨b, c, -, -, -, rfl⟩⟩⟩ := execPhaseDecode_next hx
  · obtain ⟨-, e⟩ | ⟨-, e⟩ := leafRoot_cases s (s.nodeAt s.cur).sym <;> rw [e]
    · exact .inl (by simp [Phase.after])
    · exact .inr ⟨rfl, rfl⟩
  · exact .inr ⟨rfl, rfl⟩
  · split
    · obtain ⟨-, e⟩ | ⟨-, -, e⟩ | ⟨-, e⟩ :=
        leafAction_cases { s.afterRead 1 with cur := c } (s.nodeAt c).sym <;> rw [e]
      · exact .inl (by simp [Phase.after])
      · exact .inr ⟨rfl, rfl⟩
      · exact .inl (by simp [Phase.after, hs])
    · exact .inl (by simp [Phase.after, hs])

/-- Every phase's step follows the order of the phases. -/
theorem exec_phase (hx : exec (phaseInstr s.phase) s = .next t) : s.phase.LeadsTo t.phase := by
  cases hs : s.phase <;> rw [hs] at hx
  case count => exact count hs hx
  case buildInit => exact buildInit hs hx
  case buildMerge => exact buildMerge hs hx
  case derive => exact derive hs hx
  case wrMagic => exact wrMagic hx
  case wrTree => exact wrTree hs hx
  case encode => exact encode hs hx
  case rdMagic => exact rdMagic hx
  case rdTree => exact rdTree hs hx
  case decode => exact decode hs hx
  case rewind | wrEof | close => cases hx; exact .inl (by simp [Phase.after])
  case idle | done | fault => cases hx; exact .inl (by simp [Phase.after, hs])

end Phase.LeadsTo

/-- Settles O51: the phase order, phase by phase. -/
theorem phaseOrder : Obligations.PhaseOrder := fun _ _ hx => Phase.LeadsTo.exec_phase hx

/-- What the `written by` columns let phase `p` change from `s` to `t`. -/
structure Phase.Permits (p : Phase) (s t : State) : Prop where
  nsym : t.nsym ≠ s.nsym → p = .count
  nnodes : t.nnodes ≠ s.nnodes → p ∈ [Phase.buildInit, .buildMerge, .rdTree]
  root : t.root ≠ s.root → p ∈ [Phase.buildMerge, .rdTree]
  cur : t.cur ≠ s.cur → p ∈ [Phase.rdTree, .decode]
  sp : t.sp ≠ s.sp → p ∈ [Phase.buildMerge, .derive, .wrMagic, .wrTree, .rdMagic, .rdTree]
  scan : t.scan ≠ s.scan → p ∈ [Phase.count, .buildInit]
  freq : t.freq ≠ s.freq → p = .count
  node : t.node ≠ s.node → p ∈ [Phase.buildInit, .buildMerge, .rdTree]
  live : t.live ≠ s.live → p ∈ [Phase.buildInit, .buildMerge]
  code : t.code ≠ s.code → p = .derive
  stk : t.stk ≠ s.stk → p ∈ [Phase.buildMerge, .derive, .wrMagic, .wrTree, .rdTree]
  mode : t.mode = s.mode
  cfg : t.cfg = s.cfg
  pending : t.pending = s.pending
  hostReads : t.hostReads = s.hostReads

namespace Phase.Permits

theorem count (hx : execPhaseCount s = .next t) : Phase.count.Permits s t := by
  obtain ⟨-, rfl⟩ | ⟨r, -, ⟨-, rfl⟩ | ⟨-, rfl⟩⟩ := execPhaseCount_next hx <;> constructor <;> simp

/-- The end of a step of `BUILD_INIT` writes `SCAN` and `PHASE` only (R133). -/
theorem nextSymbol (h : Phase.buildInit.Permits s t) : Phase.buildInit.Permits s t.nextSymbol := by
  obtain ⟨-, e⟩ | ⟨-, e⟩ := nextSymbol_cases t <;> rw [e] <;> exact { h with scan := by simp }

theorem buildInit (hx : execPhaseBuildInit s = .next t) : Phase.buildInit.Permits s t := by
  obtain ⟨-, ⟨-, rfl⟩ | ⟨-, -, rfl⟩⟩ := execPhaseBuildInit_next hx <;> apply nextSymbol <;> constructor <;> simp

theorem buildMerge (hx : execPhaseBuildMerge s = .next t) : Phase.buildMerge.Permits s t := by
  obtain ⟨a, -, ⟨-, hx⟩ | ⟨-, hx⟩⟩ := execPhaseBuildMerge_next hx
  · obtain ⟨-, rfl⟩ := finishTree_next hx
    constructor <;> simp
  · obtain ⟨b, -, -, rfl⟩ := merge_next hx
    constructor <;> simp

theorem derive (hx : execPhaseDerive s = .next t) : Phase.derive.Permits s t := by
  obtain ⟨-, rfl⟩ | ⟨k, -, -, -, ⟨-, -, rfl⟩ | ⟨-, -, rfl⟩⟩ := execPhaseDerive_next hx <;> constructor <;> simp

theorem wrMagic (hx : execPhaseWrMagic s = .next t) : Phase.wrMagic.Permits s t := by
  obtain ⟨-, rfl⟩ := execPhaseWrMagic_next hx
  constructor <;> simp [writeMagic]

theorem wrTree (hx : execPhaseWrTree s = .next t) : Phase.wrTree.Permits s t := by
  obtain ⟨-, rfl⟩ | ⟨k, -, -, -, ⟨-, rfl⟩ | ⟨-, -, rfl⟩⟩ := execPhaseWrTree_next hx <;> constructor <;>
    simp [writeLeafToken, writeInnerToken]

theorem encode (hx : execPhaseEncode s = .next t) : Phase.encode.Permits s t := by
  obtain ⟨-, rfl⟩ | ⟨r, -, ⟨-, rfl⟩ | ⟨-, rfl⟩⟩ := execPhaseEncode_next hx <;> constructor <;> simp

theorem rdMagic (hx : execPhaseRdMagic s = .next t) : Phase.rdMagic.Permits s t := by
  obtain ⟨-, rfl⟩ | ⟨-, rfl⟩ := execPhaseRdMagic_next hx <;> constructor <;> simp

theorem linkUp {k d : Nat} (hx : linkUp k d s = .next t) : Phase.rdTree.Permits s t where
  nsym := absurd (linkUp_nsym hx)
  nnodes := by simp
  root := by simp
  cur := by simp
  sp := by simp
  scan := absurd (linkUp_scan hx)
  freq := absurd (linkUp_freq hx)
  node := by simp
  live := absurd (linkUp_live hx)
  code := absurd (linkUp_code hx)
  stk := by simp
  mode := linkUp_mode hx
  cfg := linkUp_cfg hx
  pending := linkUp_pending hx
  hostReads := linkUp_hostReads hx

theorem takeLeaf {v : Sym} (hx : s.takeLeaf v = .next t) : Phase.rdTree.Permits s t :=
  { linkUp (takeLeaf_next hx).2 with
    nnodes := by simp
    node := by simp }

theorem rdTree (hx : execPhaseRdTree s = .next t) : Phase.rdTree.Permits s t := by
  obtain ⟨-, rfl⟩ | ⟨-, ⟨-, rfl⟩ | ⟨-, hx⟩ | ⟨f, -, -, ⟨-, rfl⟩ | ⟨v, -, hx⟩⟩⟩ := execPhaseRdTree_next hx
  · constructor <;> simp
  · constructor <;> simp
  · obtain ⟨-, -, rfl⟩ := takeInner_next hx
    constructor <;> simp
  · constructor <;> simp
  · exact { takeLeaf hx with }

theorem decode (hx : execPhaseDecode s = .next t) : Phase.decode.Permits s t := by
  obtain ⟨-, ⟨-, rfl⟩ | ⟨-, ⟨-, rfl⟩ | ⟨b, c, -, -, -, rfl⟩⟩⟩ := execPhaseDecode_next hx
  · obtain ⟨-, e⟩ | ⟨-, e⟩ := leafRoot_cases s (s.nodeAt s.cur).sym <;> rw [e] <;> constructor <;> simp
  · constructor <;> simp
  · split
    · obtain ⟨-, e⟩ | ⟨-, -, e⟩ | ⟨-, e⟩ :=
        leafAction_cases { s.afterRead 1 with cur := c } (s.nodeAt c).sym <;> rw [e] <;> constructor <;> simp
    · constructor <;> simp

/-- Every phase's step writes only what the columns give the phase. -/
theorem exec_phase (hx : exec (phaseInstr s.phase) s = .next t) : s.phase.Permits s t := by
  cases hs : s.phase <;> rw [hs] at hx
  case count => exact count hx
  case buildInit => exact buildInit hx
  case buildMerge => exact buildMerge hx
  case derive => exact derive hx
  case wrMagic => exact wrMagic hx
  case wrTree => exact wrTree hx
  case encode => exact encode hx
  case rdMagic => exact rdMagic hx
  case rdTree => exact rdTree hx
  case decode => exact decode hx
  case rewind | wrEof | close | idle | done | fault => cases hx; constructor <;> simp

end Phase.Permits

/-- Settles O54: the columns, phase by phase. -/
theorem writtenByPhase : Obligations.WrittenByPhase := by
  intro s t hx
  obtain ⟨nsym, nnodes, root, cur, sp, scan, freq, node, live, code, stk, mode, cfg, pending, hostReads⟩ :=
    Phase.Permits.exec_phase hx
  exact ⟨nsym, nnodes, root, cur, sp, scan, freq, node, live, code, stk, mode, cfg, pending, hostReads⟩

end Sys2Proof.Machine
end

section
/-! The host's view: what a step runs, the registers, and reset. -/

namespace Sys2Proof.Machine

/-- Settles O10, from the equations of the step, one per slot. -/
theorem stepRunsTheDecodedInstruction : Obligations.StepRunsTheDecodedInstruction := by
  refine ⟨decodePhase_toCode, fun s h => ?_, fun s rest h => ?_, fun s v rest h => step_regWrite_cmd h,
    fun s w i rest h hw => step_chan h hw⟩
  · rw [decodePhase_toCode]; exact step_idleHost h
  · rw [decodePhase_toCode]; exact step_seq h

/-- The layout of `STATUS` (R42), over the sixteen phases and the two modes. -/
theorem status_layout (p : Phase) (m : Mode) (w : Word)
    (hw : w = BitVec.ofNat 32 (p.busy.toNat + 2 * (decide (p = .done)).toNat + 4 * (decide (p = .fault)).toNat +
      8 * m.toBit + 16 * p.toCode)) :
    w.getLsbD 0 = p.busy ∧ w.getLsbD 1 = decide (p = .done) ∧ w.getLsbD 2 = decide (p = .fault) ∧
    w.getLsbD 3 = decide (m = .decompress) ∧ w.extractLsb' 4 4 = BitVec.ofNat 4 p.toCode ∧ w.extractLsb' 8 24 = 0 := by
  subst hw
  cases p <;> cases m <;> decide

/-- Settles O16: the layout of `STATUS`, and the equations of a read and of a write of register 1. -/
theorem statusRegister : Obligations.StatusRegister := by
  intro s
  obtain ⟨hbusy, hdone, herror, hmode, hphase, hzero⟩ := status_layout s.phase s.mode (s.regValue 1) rfl
  exact ⟨hbusy, hdone, herror, hmode, hphase, hzero, fun rest h => step_regRead h,
    fun v rest h => step_regWrite_readOnly (by decide) h⟩

/-- Settles O17, by the sixteen phases. -/
theorem flagsFollowPhase : Obligations.FlagsFollowPhase := by
  intro s
  unfold State.busy State.done State.error
  cases s.phase <;> decide

/-- The layout of `ERR` (R43), over the nine codes. -/
theorem err_layout (c : ErrCode) (w : Word) (hw : w = BitVec.ofNat 32 c.toCode) :
    w.extractLsb' 0 4 = BitVec.ofNat 4 c.toCode ∧ w.extractLsb' 4 28 = 0 ∧ (w.extractLsb' 0 4 ≠ 0 ↔ c ≠ .none) := by
  subst hw
  cases c <;> decide

/-- Settles O18: the layout of `ERR`, and the invariant's clause on the error code. -/
theorem errRegister : Obligations.ErrRegister := by
  intro s h
  obtain ⟨hcode, hzero, hne⟩ := err_layout s.errcode (s.regValue 2) rfl
  exact ⟨hcode, hzero, hne.trans h.errcode, fun rest h => step_regRead h,
    fun v rest h => step_regWrite_readOnly (by decide) h⟩

/-- A number above 5 names no register (R47). -/
theorem State.regValue_of_gt (s : State) {k : Nat} (hk : 5 < k) : s.regValue k = 0 := by
  obtain ⟨j, rfl⟩ : ∃ j, k = j + 6 := ⟨k - 6, by omega⟩
  rfl

/-- Settles O19, from the values of the registers and the equations of a read and of a write. -/
theorem registerAccesses : Obligations.RegisterAccesses := by
  intro s
  exact ⟨rfl, rfl, BitVec.toNat_ofNat .., BitVec.toNat_ofNat .., fun k hk => s.regValue_of_gt hk,
    fun k rest h => step_regRead h, fun k v rest hk h => step_regWrite_readOnly hk h⟩

/-- The registers after a reset event (R260). -/
theorem State.resetEvent_registers (s : State) : s.resetEvent.RegistersReset where
  phase := rfl
  mode := rfl
  errcode := rfl
  nsym := rfl
  nnodes := rfl
  root := rfl
  cur := rfl
  sp := rfl
  scan := rfl

/-- The registers of the machine right after reset (R50). -/
theorem State.reset_registers : State.reset.RegistersReset where
  phase := rfl
  mode := rfl
  errcode := rfl
  nsym := rfl
  nnodes := rfl
  root := rfl
  cur := rfl
  sp := rfl
  scan := rfl

/-- Settles O20; `NIL` is 1023 at the default `NODE_CAP` (R7). -/
theorem resetState : Obligations.ResetState :=
  ⟨State.reset_registers, by decide, rfl, rfl, rfl, rfl, rfl, rfl, rfl, rfl, rfl⟩

/-- Settles O21: the reset event is the whole step. -/
theorem resetBetweenSteps : Obligations.ResetBetweenSteps := by
  intro s rest h
  exact ⟨_, step_reset h, State.resetEvent_registers _, rfl, rfl, rfl, rfl, rfl, rfl, rfl, rfl, rfl⟩

/-- The reset state meets the invariant, by its check: nothing is listed in the memories. -/
theorem State.reset_inv : State.reset.Inv := State.inv_of_check (by decide)

/-- The reset state is sound: `IDLE` is none of the phases that `Sound` asks anything of. -/
theorem State.reset_sound : State.reset.Sound where
  inv := State.reset_inv
  transactions := nofun
  unqueued := nofun
  pseudoEof := nofun
  counting := nofun
  inserting := nofun
  merging := nofun
  traversing := by rintro (h | h | h) <;> cases h
  stacked := by rintro (h | h) <;> cases h
  starting := nofun
  reading := nofun
  walking := nofun

/-- Settles O56. -/
theorem resetMeetsInvariants : Obligations.ResetMeetsInvariants := ⟨State.reset_inv, State.reset_sound⟩

end Sys2Proof.Machine
end

section
/-! Bytes and bits of a stream (R69). -/

namespace Sys2Proof

@[simp] theorem bytesToBits_length (l : List Byte) : (bytesToBits l).length = 8 * l.length := by
  induction l with
  | nil => rfl
  | cons b l ih => simp only [bytesToBits, List.length_append, bitsMsb_length, ih, List.length_cons]; omega

/-- Eight bits make one byte. -/
theorem bitsToBytes_append {l : List Bool} (rest : List Bool) (h : l.length = 8) :
    bitsToBytes (l ++ rest) = BitVec.ofNat 8 (valMsb l) :: bitsToBytes rest := by
  match l, h with
  | [_, _, _, _, _, _, _, _], _ => rfl

theorem bitsToBytes_bytesToBits (l : List Byte) : bitsToBytes (bytesToBits l) = l := by
  induction l with
  | nil => rfl
  | cons b l ih =>
    rw [bytesToBits, bitsToBytes_append _ (bitsMsb_length 8 _), ih, valMsb_bitsMsb_toNat, BitVec.ofNat_toNat,
      BitVec.setWidth_eq]

/-- The bits of the byte that eight bits make. -/
theorem bitsMsb_ofNat_valMsb {l : List Bool} (h : l.length = 8) : bitsMsb 8 (BitVec.ofNat 8 (valMsb l)).toNat = l := by
  have hv : valMsb l < 2 ^ 8 := h ▸ valMsb_lt l
  rw [BitVec.toNat_ofNat, Nat.mod_eq_of_lt hv, ← h, bitsMsb_valMsb]

theorem bytesToBits_bitsToBytes {bits : List Bool} (h : bits.length % 8 = 0) :
    bytesToBits (bitsToBytes bits) = bits := by
  obtain ⟨k, hk⟩ : ∃ k, bits.length = 8 * k := ⟨bits.length / 8, by omega⟩
  clear h
  induction k generalizing bits with
  | zero => rw [List.length_eq_zero_iff.mp hk]; rfl
  | succ k ih =>
    have ht : (bits.take 8).length = 8 := by simp; omega
    have hd : (bits.drop 8).length = 8 * k := by simp; omega
    rw [← List.take_append_drop 8 bits, bitsToBytes_append _ ht, bytesToBits, bitsMsb_ofNat_valMsb ht, ih hd]

theorem bytesToBits_getElem? (l : List Byte) (j : Nat) {i : Nat} (hi : i < 8) :
    (bytesToBits l)[8 * j + i]? = (l[j]?).map fun b => b.getLsbD (7 - i) := by
  induction l generalizing j with
  | nil => rfl
  | cons b l ih =>
    rw [bytesToBits]
    cases j with
    | zero =>
      rw [List.getElem?_append_left (by simpa using hi), Nat.mul_zero, Nat.zero_add, bitsMsb_getElem? _ _ _ hi]
      rfl
    | succ j =>
      rw [List.getElem?_append_right (by simp; omega), bitsMsb_length, List.getElem?_cons_succ, ← ih]
      congr 1; omega

/-- Settles O7: eight bits at a time, in both directions. -/
theorem streamPacking : Obligations.StreamPacking :=
  ⟨fun l => ⟨bytesToBits_length l, bitsToBytes_bytesToBits l, fun j _ hi => bytesToBits_getElem? l j hi⟩,
    fun _ h => bytesToBits_bitsToBytes h⟩

end Sys2Proof
end

section
/-! The channel transactions as instructions (R62 to R67), and the words that are none (R108). -/

namespace Sys2Proof

/-- The widths of the contract (R62, R65). -/
theorem widthOk_iff {n : BitVec 6} : Instr.widthOk n = true ↔ 1 ≤ n.toNat ∧ n.toNat ≤ 32 := by
  rw [Instr.widthOk, Bool.and_eq_true, decide_eq_true_eq, decide_eq_true_eq]
  rfl

/-- `reset` and `writeBits` on the other channel, and the two unused codes of each: no row of the table (R108). -/
theorem decodeChan_noSuchTransaction {w : ChanReq}
    (h : w.extractLsb' 38 3 = 1 ∨ w.extractLsb' 38 3 = 3 ∨ w.extractLsb' 38 3 = 4 ∨ w.extractLsb' 38 3 = 6) :
    decodeChan w = .error .noSuchTransaction := by
  obtain h | h | h | h := h <;> simp [decodeChan, h]

/-- A read has the value field 0 (R108). -/
theorem decodeChan_strayRead {w : ChanReq} (h : w.extractLsb' 38 3 = 0) (hv : w.extractLsb' 0 32 ≠ 0#32) :
    decodeChan w = .error .strayValue := by
  simp [decodeChan, h, hv]

/-- A reset and a close have both fields 0 (R108). -/
theorem decodeChan_strayField {w : ChanReq} (h : w.extractLsb' 38 3 = 2 ∨ w.extractLsb' 38 3 = 7)
    (hf : w.extractLsb' 32 6 ≠ 0#6 ∨ w.extractLsb' 0 32 ≠ 0#32) : ∃ e, decodeChan w = .error e := by
  by_cases hn : w.extractLsb' 32 6 = 0#6
  · have hv := hf.resolve_left (not_not_intro hn)
    obtain h | h := h <;> exact ⟨.strayValue, by simp [decodeChan, h, hn, hv]⟩
  · obtain h | h := h <;> exact ⟨.badWidth, by simp [decodeChan, h, hn]⟩

end Sys2Proof

namespace Sys2Proof.Machine

variable {s : State}

/-! ### Defined and undefined widths -/

theorem exec_inRead {n : BitVec 6} (h1 : 1 ≤ n.toNat) (h2 : n.toNat ≤ 32) :
    exec (.inRead n) s = .next (s.afterRead n.toNat) := if_pos (widthOk_iff.mpr ⟨h1, h2⟩)

theorem exec_outWrite {n : BitVec 6} {v : Word} (h1 : 1 ≤ n.toNat) (h2 : n.toNat ≤ 32) :
    exec (.outWrite n v) s = .next (s.writeBits n.toNat v) := if_pos (widthOk_iff.mpr ⟨h1, h2⟩)

/-- Widths of no transaction of the contract (log 13). -/
theorem widthOk_eq_false {n : BitVec 6} (h : n.toNat = 0 ∨ 32 < n.toNat) : ¬ Instr.widthOk n = true := by
  rw [widthOk_iff]; omega

theorem exec_inRead_refused {n : BitVec 6} (h : n.toNat = 0 ∨ 32 < n.toNat) :
    exec (.inRead n) s = .refused .undefinedTransaction := if_neg (widthOk_eq_false h)

theorem exec_outWrite_refused {n : BitVec 6} {v : Word} (h : n.toNat = 0 ∨ 32 < n.toNat) :
    exec (.outWrite n v) s = .refused .undefinedTransaction := if_neg (widthOk_eq_false h)

/-- Settles O27: the widths are refused when the instruction runs, the words when they are decoded. -/
theorem undefinedTransactionsAreRefused : Obligations.UndefinedTransactionsAreRefused := by
  refine ⟨fun s n v h => ⟨exec_inRead_refused h, exec_outWrite_refused h⟩, ?_, ?_, ?_⟩
  · rintro s n v w rest h (rfl | rfl) hp
    · rw [step_chan hp (decodeChan_inRead n), exec_inRead_refused h]
    · rw [step_chan hp (decodeChan_outWrite n v), exec_outWrite_refused h]
  · intro s w rest hp h
    exact step_chan_refused hp (decodeChan_noSuchTransaction h)
  · rintro s w rest hp (⟨h, hv⟩ | ⟨h, hf⟩)
    · exact step_chan_refused hp (decodeChan_strayRead h hv)
    · obtain ⟨e, he⟩ := decodeChan_strayField h hf
      exact step_chan_refused hp he

/-! ### The four transactions -/

namespace State

/-- `readBits(n)` where the bits are there (R62). -/
theorem Offers.afterRead {n : Nat} {v : BitVec n} (h : s.Offers v) (hn : 0 < n) :
    s.afterRead n = { s with
      inp := s.inp.advanced n
      chanLog := (encodeChan (.inRead (BitVec.ofNat 6 n)), chanResponse false (v.setWidth 32)) :: s.chanLog } := by
  rw [State.afterRead, h.inAfter hn, readResponse, h.peek hn]

/-- `readBits(n)` where they are not (R62). -/
theorem Exhausted.afterRead {n : Nat} (h : s.Exhausted n) :
    s.afterRead n = { s with
      inp := s.inp.drained
      chanLog := (encodeChan (.inRead (BitVec.ofNat 6 n)), chanResponse true 0) :: s.chanLog } := by
  rw [State.afterRead, h.inAfter, readResponse, h.peek]

/-- `close()` pads to a byte boundary (R66). -/
theorem closedOut_length (s : State) :
    s.closedOut.bits.length % 8 = 0 ∧ s.closedOut.bits.length < s.out.bits.length + 8 := by
  simp only [closedOut, List.length_append, List.length_replicate]
  omega

end State

/-- Settles O23, by the two outcomes of a read. -/
theorem inReadReturnsTheNextBits : Obligations.InReadReturnsTheNextBits := by
  intro s n h1 h2
  have hn : BitVec.ofNat 6 n.toNat = n := by simp
  refine ⟨fun v h => ?_, fun h => ?_, fun he hl => ⟨_, State.offers_of_canRead (State.canRead_iff.mpr ⟨he, hl⟩)⟩⟩
  · rw [exec_inRead h1 h2, h.afterRead h1, hn]; rfl
  · rw [exec_inRead h1 h2, h.afterRead, hn]; rfl

/-- Settles O24. -/
theorem inResetRewinds : Obligations.InResetRewinds := fun _ => ⟨_, rfl, rfl, rfl, rfl, rfl, rfl⟩

/-- Settles O25. -/
theorem outWriteAppends : Obligations.OutWriteAppends := by
  intro s n v h1 h2
  refine ⟨_, exec_outWrite h1 h2, rfl, fun ho => ⟨?_, State.outCtr_of_open ho⟩, by simp, rfl⟩
  rw [State.writeBits_open ho, bitsMsb_setWidth]

/-- Settles O26. -/
theorem outClosePads : Obligations.OutClosePads := by
  intro s
  refine ⟨_, rfl, rfl, fun ho => ?_, rfl, rfl⟩
  obtain ⟨hb, hl⟩ := s.closedOut_length
  rw [State.closeOut_open ho]
  exact ⟨rfl, hb, hl, State.outCtr_of_open ho⟩

end Sys2Proof.Machine
end

section
/-! Mixed widths (R70): a transaction and the one-bit transactions in its place. -/

namespace Sys2Proof.Machine

open State

variable {s : State} {n k : Nat}

namespace State

theorem inAfter_of_canRead (h : s.canRead n = true) : s.inAfter n = s.inp.advanced n := if_pos h

theorem canRead_of_le (h : s.canRead n = true) (hk : k ≤ n) : s.canRead k = true := by
  obtain ⟨he, hl⟩ := canRead_iff.mp h
  exact canRead_iff.mpr ⟨he, by omega⟩

/-- After `k` of the bits have been consumed, the next can be read. -/
theorem canRead_one_of_advanced {u : State} (h : s.canRead n = true) (hk : k < n) (hu : u.inp = s.inp.advanced k) :
    u.canRead 1 = true := by
  obtain ⟨he, hl⟩ := canRead_iff.mp h
  refine canRead_iff.mpr ⟨by rw [hu]; exact he, ?_⟩
  rw [hu]
  show s.inp.pos + k + 1 ≤ s.inp.bits.length
  omega

/-- One-bit reads in a row move the cursor as one read of all the bits does. -/
theorem iterate_afterRead_inp (h : s.canRead n = true) :
    ((fun u => afterRead u 1)^[n] s).inp = s.inp.advanced n := by
  induction n with
  | zero => rfl
  | succ n ih =>
    have hu := ih (canRead_of_le h (Nat.le_succ n))
    rw [Function.iterate_succ_apply', afterRead_inp,
      inAfter_of_canRead (canRead_one_of_advanced h (Nat.lt_succ_self n) hu), hu]
    rfl

/-- Bit `k` in transfer order of what `IN` offers is what it offers after `k` bits. -/
theorem Offers.bit {u : State} {x : BitVec n} (h : s.Offers x) (hk : k < n) (hu : u.inp = s.inp.advanced k) :
    u.Offers (BitVec.ofBool (x.getLsbD (n - 1 - k))) := by
  obtain ⟨he, r, hr⟩ := h
  refine ⟨by rw [hu]; exact he, (msbFirst x).drop (k + 1) ++ r, ?_⟩
  have hx : (msbFirst x).drop k = x.getLsbD (n - 1 - k) :: (msbFirst x).drop (k + 1) := by
    rw [List.drop_eq_getElem_cons (by simpa using hk)]
    simp [msbFirst]
  have hd : u.inp.bits.drop u.inp.pos = (msbFirst x).drop k ++ r := by
    rw [hu]
    show s.inp.bits.drop (s.inp.pos + k) = _
    rw [← List.drop_drop, ← hr, List.drop_append_of_le_length (by simpa using hk.le)]
  rw [hd, hx]
  simp [msbFirst]

/-- What a one-bit read returns of a bit offered. -/
theorem Offers.peek_one {b : Bool} (h : s.Offers (BitVec.ofBool b)) : s.peek 1 = some (if b then 1 else 0) := by
  rw [h.peek Nat.one_pos]
  cases b <;> rfl

end State

/-- Settles O28. -/
theorem onlyTheBitSequenceMatters : Obligations.OnlyTheBitSequenceMatters := by
  refine ⟨fun s n v _ ho => ?_, fun s n hn h => ⟨?_, fun v k hk hv => ?_⟩⟩
  · rw [writeBits_open ho, foldl_writeBit_out _ ho, bitsMsb_setWidth]
  · rw [iterate_afterRead_inp h, afterRead_inp, inAfter_of_canRead h]
  · have hx := offers_of_canRead h
    have hvx := Option.some.inj (hv.symm.trans (hx.peek (by omega)))
    rw [(hx.bit hk (iterate_afterRead_inp (canRead_of_le h hk.le))).peek_one, hvx, BitVec.getLsbD_setWidth]
    simp [show n - 1 - k < 32 by omega]

end Sys2Proof.Machine
end

section
/-! The stream tokens where they are read, and away from their place (R93 to R98). -/

namespace Sys2Proof.Machine

open State

variable {s : State}

namespace State

/-- Standing at the cursor is being offered (R62). -/
theorem atCursor_msbFirst {n : Nat} {v : BitVec n} (hn : 0 < n) : s.atCursor (msbFirst v) = true ↔ s.Offers v := by
  rw [atCursor, List.isPrefixOf_iff_prefix, unread, Offers]
  cases s.inp.eod with
  | false => simp
  | true =>
    have hne : msbFirst v ≠ [] := List.ne_nil_of_length_pos (by simpa using hn)
    simp [hne]

theorem atCursor_magic : s.atCursor (bitsMsb 32 s.cfg.magic.toNat) = true ↔ s.Offers s.cfg.magic := by
  rw [← msbFirst_eq, atCursor_msbFirst (by omega)]

theorem atCursor_inner : s.atCursor [false] = true ↔ s.Offers 0#1 := atCursor_msbFirst (v := 0#1) Nat.one_pos

theorem atCursor_leaf {v : Sym} : s.atCursor (true :: bitsMsb 9 v.toNat) = true ↔ s.Offers (1#1 ++ v) := by
  rw [← msbFirst_eq, ← msbFirst_leafToken, atCursor_msbFirst (by omega)]

end State

/-! ### Magic and tree tokens -/

theorem execTokMagic_read (hs : s.phase = .rdMagic) (h : s.Offers s.cfg.magic) :
    execTokMagic s = execPhaseRdMagic s := by
  simp only [execTokMagic, hs, atCursor_magic.mpr h, if_true]

theorem execTokMagic_away (hw : s.phase ≠ .wrMagic) (hr : ¬ (s.phase = .rdMagic ∧ s.Offers s.cfg.magic)) :
    execTokMagic s = .next s := by
  unfold execTokMagic
  split
  · exact absurd ‹_› hw
  · exact if_neg fun h => hr ⟨‹_›, atCursor_magic.mp h⟩
  · rfl

theorem execTokI_read (hs : s.phase = .rdTree) (h : s.Offers 0#1) : execTokI s = execPhaseRdTree s := by
  simp only [execTokI, hs, atCursor_inner.mpr h, if_true]

theorem execTokI_away (hw : s.phase ≠ .wrTree) (hr : ¬ (s.phase = .rdTree ∧ s.Offers 0#1)) :
    execTokI s = .next s := by
  unfold execTokI
  split
  · exact absurd ‹_› hw
  · exact if_neg fun h => hr ⟨‹_›, atCursor_inner.mp h⟩
  · rfl

theorem execTokL_read {v : Sym} (hs : s.phase = .rdTree) (h : s.Offers (1#1 ++ v)) :
    execTokL v s = execPhaseRdTree s := by
  simp only [execTokL, hs, atCursor_leaf.mpr h, if_true]

theorem execTokL_away {v : Sym} (hw : s.phase ≠ .wrTree) (hr : ¬ (s.phase = .rdTree ∧ s.Offers (1#1 ++ v))) :
    execTokL v s = .next s := by
  unfold execTokL
  split
  · exact absurd ‹_› hw
  · exact if_neg fun h => hr ⟨‹_›, atCursor_leaf.mp h⟩
  · rfl

/-! ### Codewords -/

/-- The tree at a node of the node memory is a leaf, or it is made of the trees at the two children (R34). -/
theorem treeAt_succ {fuel i : Nat} {t : Sys2Proof.Tree} (h : s.treeAt (fuel + 1) i = some t) :
    ((s.nodeAt i).leaf = true ∧ t = .leaf (s.nodeAt i).sym) ∨
    ((s.nodeAt i).leaf = false ∧ ∃ l r, t = .node l r ∧ s.treeAt fuel (s.nodeAt i).left = some l ∧
      s.treeAt fuel (s.nodeAt i).right = some r) := by
  rw [treeAt] at h
  split at h
  · split at h
    · exact .inl ⟨‹_›, (Option.some.inj h).symm⟩
    · rename_i hl
      split at h
      · exact .inr ⟨by simpa using hl, _, _, (Option.some.inj h).symm, ‹_›, ‹_›⟩
      · cases h
  · cases h

/-- The walk in the node memory is the walk in the tree it holds (R103, R202). -/
theorem walkSym_eq_walk? {fuel i : Nat} {t : Sys2Proof.Tree} (h : s.treeAt fuel i = some t) (bits : List Bool) :
    s.walkSym bits i = (t.walk? bits).map (·.1) := by
  induction fuel generalizing i t bits with
  | zero => cases h
  | succ fuel ih =>
    obtain ⟨hl, rfl⟩ | ⟨hl, l, r, rfl, hleft, hright⟩ := treeAt_succ h
    · cases bits <;> simp [walkSym, Tree.walk?, hl]
    · cases bits with
      | nil => simp [walkSym, Tree.walk?, hl]
      | cons b bits => cases b <;> simp [walkSym, Tree.walk?, hl, ih hleft, ih hright]

/-- At a leaf the walk has arrived, whatever bits follow. -/
theorem walkSym_leaf {i : Nat} (h : (s.nodeAt i).leaf = true) (bits : List Bool) :
    s.walkSym bits i = some (s.nodeAt i).sym := by
  cases bits <;> simp [walkSym, h]

/-- `DECODE` on a leaf root ends the operation (R199). -/
theorem execPhaseDecode_leaf_phase {t : State} (hl : (s.nodeAt s.cur).leaf = true) (h : execPhaseDecode s = .next t) :
    t.phase ≠ .decode := by
  obtain ⟨-, ⟨-, rfl⟩ | ⟨hn, -⟩⟩ := execPhaseDecode_next h
  · obtain ⟨-, e⟩ | ⟨-, e⟩ := leafRoot_cases s (s.nodeAt s.cur).sym <;> rw [e] <;> exact nofun
  · rw [hl] at hn; cases hn

/-- A codeword that ends with the first step of `DECODE` is that step. -/
theorem takeCode_succ_of_ends (k : Nat) (h : ∀ t, execPhaseDecode s = .next t → t.phase ≠ .decode) :
    takeCode (k + 1) s = execPhaseDecode s := by
  rw [takeCode]
  cases hx : execPhaseDecode s with
  | next t => exact if_neg fun hd => h t hx hd.1
  | fault f => rfl
  | refused r => rfl

section
variable {v : Sym} (hv : v.toNat ≤ 256)
include hv

theorem execTokC_away (he : s.phase ≠ .encode) (hw : s.phase ≠ .wrEof) (hd : s.phase ≠ .decode) :
    execTokC v s = .next s := by
  rw [execTokC, if_neg hv.not_gt]
  split
  · exact absurd ‹_› he
  · exact absurd ‹_› hw
  · exact absurd ‹_› hd
  · rfl

theorem execTokC_noCode (hs : s.phase = .encode) (hc : (s.codeAt v.toNat).valid = false) :
    execTokC v s = .next (s.raise .noCode) := by
  simp [execTokC, hv.not_gt, hs, hc]

/-- In `DECODE` a codeword is read from the root, where it stands at the cursor (R96, R201). -/
theorem execTokC_decode (hs : s.phase = .decode) :
    execTokC v s = if s.cur = s.root ∧ s.walkSym s.unread s.root = some v then takeCode (s.unread.length + 1) s
      else .next s := by
  simp only [execTokC, if_neg hv.not_gt, hs]

theorem execTokC_leafRoot (hs : s.phase = .decode) (hc : s.cur = s.root) (hl : (s.nodeAt s.root).leaf = true)
    (hsym : (s.nodeAt s.root).sym = v) : execTokC v s = execPhaseDecode s := by
  rw [execTokC_decode hv hs, if_pos ⟨hc, by rw [walkSym_leaf hl, hsym]⟩]
  exact takeCode_succ_of_ends _ fun t => execPhaseDecode_leaf_phase (hc ▸ hl)

end

theorem execTokC_illFormed {v : Sym} (hv : 256 < v.toNat) : execTokC v s = .fault (.codeIndex v.toNat) := if_pos hv

/-! ### Padding -/

theorem execTokPad_away {p : BitVec 3}
    (h : s.phase ≠ .close ∨ s.out.closed = true ∨ p.toNat ≠ (8 - s.out.bits.length % 8) % 8) :
    execTokPad p s = .next s := by
  unfold execTokPad
  split
  · rename_i hs
    have hf : (!s.out.closed && decide (p.toNat = padLen s.out.bits.length)) = false := by
      obtain h | h | h := h
      · exact absurd hs h
      · simp [h]
      · simp [padLen, h]
    rw [hf]; rfl
  · rfl

/-- Settles O30, token by token. -/
theorem tokensAreRead : Obligations.TokensAreRead := by
  intro s
  refine ⟨execTokMagic_read, execTokI_read, fun v => execTokL_read, execTokMagic_away, execTokI_away,
    fun v => execTokL_away, fun v hv => ⟨execTokC_away hv, execTokC_noCode hv, fun hs hc => ?_,
      fun fuel t hs ht hwalk => ?_, execTokC_leafRoot hv⟩, fun v => execTokC_illFormed, fun p => execTokPad_away⟩
  · exact (execTokC_decode hv hs).trans (if_neg fun h => hc h.1)
  · refine (execTokC_decode hv hs).trans (if_neg fun h => ?_)
    obtain ⟨-, h⟩ := h
    rw [walkSym_eq_walk? ht, Option.map_eq_some_iff] at h
    obtain ⟨⟨v', rest⟩, hw, rfl⟩ := h
    exact hwalk rest hw

end Sys2Proof.Machine
end

section
/-! The transactions of each phase's step (R73): the request words it adds to the log. -/

namespace Sys2Proof.Machine

open State

variable {s t : State}

/-- The request word of a one-bit write (R108). -/
def bitRequest (b : Bool) : ChanReq := encodeChan (.outWrite 1 (if b then 1 else 0))

/-- Between `s` and `t` the transactions `ws` were issued, in order, and no other. -/
def State.Issues (s t : State) (ws : List ChanReq) : Prop :=
  t.chanLog.map (·.1) = ws.reverse ++ s.chanLog.map (·.1)

theorem State.Issues.trans {u : State} {ws ws' : List ChanReq} (h : s.Issues t ws) (h' : t.Issues u ws') :
    s.Issues u (ws ++ ws') := by
  unfold Issues at *
  rw [h', h, List.reverse_append, List.append_assoc]

theorem afterRead_issues (s : State) (n : Nat) : s.Issues (s.afterRead n) [encodeChan (.inRead (BitVec.ofNat 6 n))] :=
  rfl

theorem writeBit_issues (s : State) (b : Bool) : s.Issues (s.writeBit b) [bitRequest b] := rfl

/-- `emit(c)` issues one one-bit write for each bit, on a closed `OUT` too (R181). -/
theorem emitBits_issues (val : CodeVal) (k : Nat) (s : State) :
    s.Issues (emitBits val k s) ((bitsMsb k val.toNat).map bitRequest) := by
  induction k generalizing s with
  | zero => rfl
  | succ k ih => exact (writeBit_issues s (val.getLsbD k)).trans (ih _)

theorem emit_issues (s : State) (c : CodeEntry) : s.Issues (s.emit c) (c.stream.map bitRequest) := by
  rw [stream_eq]
  exact emitBits_issues ..

/-- A literal byte as `DECODE` writes it (R203). -/
theorem setWidth_literal {v : Sym} (h : v.toNat < 256) : v.setWidth 32 = (v.setWidth 8).setWidth 32 := by
  apply BitVec.eq_of_toNat_eq
  simp only [BitVec.toNat_setWidth]
  omega

/-- `s` to `t` is a step whose transactions the table of R73 gives phase `p`. -/
def Phase.Logs (p : Phase) (s t : State) : Prop := ∃ ws, p.issues s.cfg ws ∧ s.Issues t ws

namespace Phase.Logs

theorem count (hx : execPhaseCount s = .next t) : Phase.count.Logs s t := by
  obtain ⟨-, rfl⟩ | ⟨r, -, ⟨-, rfl⟩ | ⟨-, rfl⟩⟩ := execPhaseCount_next hx <;> exact ⟨_, rfl, rfl⟩

theorem buildInit (hx : execPhaseBuildInit s = .next t) : Phase.buildInit.Logs s t := by
  refine ⟨[], rfl, ?_⟩
  obtain ⟨-, ⟨-, rfl⟩ | ⟨-, -, rfl⟩⟩ := execPhaseBuildInit_next hx
  · obtain ⟨-, e⟩ | ⟨-, e⟩ := nextSymbol_cases s <;> rw [e] <;> rfl
  · obtain ⟨-, e⟩ | ⟨-, e⟩ := nextSymbol_cases (s.setNode s.nnodes s.builtLeaf).insertNode <;> rw [e] <;> rfl

theorem buildMerge (hx : execPhaseBuildMerge s = .next t) : Phase.buildMerge.Logs s t := by
  obtain ⟨a, -, ⟨-, hx⟩ | ⟨-, hx⟩⟩ := execPhaseBuildMerge_next hx
  · obtain ⟨-, rfl⟩ := finishTree_next hx
    exact ⟨[], rfl, rfl⟩
  · obtain ⟨b, -, -, rfl⟩ := merge_next hx
    exact ⟨[], rfl, rfl⟩

theorem derive (hx : execPhaseDerive s = .next t) : Phase.derive.Logs s t := by
  obtain ⟨-, rfl⟩ | ⟨k, -, -, -, ⟨-, -, rfl⟩ | ⟨-, -, rfl⟩⟩ := execPhaseDerive_next hx <;> exact ⟨[], rfl, rfl⟩

theorem wrMagic (hx : execPhaseWrMagic s = .next t) : Phase.wrMagic.Logs s t := by
  obtain ⟨-, rfl⟩ := execPhaseWrMagic_next hx
  exact ⟨_, rfl, rfl⟩

theorem wrTree (hx : execPhaseWrTree s = .next t) : Phase.wrTree.Logs s t := by
  obtain ⟨-, rfl⟩ | ⟨k, -, -, -, ⟨-, rfl⟩ | ⟨-, -, rfl⟩⟩ := execPhaseWrTree_next hx
  · exact ⟨_, .inl rfl, rfl⟩
  · exact ⟨_, .inr (.inr ⟨_, rfl⟩), rfl⟩
  · exact ⟨_, .inr (.inl rfl), rfl⟩

theorem encode (hx : execPhaseEncode s = .next t) : Phase.encode.Logs s t := by
  obtain ⟨-, rfl⟩ | ⟨r, -, ⟨-, rfl⟩ | ⟨-, rfl⟩⟩ := execPhaseEncode_next hx
  · exact ⟨_, ⟨[], rfl⟩, rfl⟩
  · exact ⟨_, ⟨_, rfl⟩, (afterRead_issues s 8).trans (emit_issues _ (s.codeAt r.toNat))⟩
  · exact ⟨_, ⟨[], rfl⟩, rfl⟩

theorem wrEof (s : State) : Phase.wrEof.Logs s { s.emit (s.codeAt 256) with phase := .close } :=
  ⟨_, ⟨_, rfl⟩, emit_issues s _⟩

theorem rdMagic (hx : execPhaseRdMagic s = .next t) : Phase.rdMagic.Logs s t := by
  obtain ⟨-, rfl⟩ | ⟨-, rfl⟩ := execPhaseRdMagic_next hx <;> exact ⟨_, rfl, rfl⟩

theorem rdTree (hx : execPhaseRdTree s = .next t) : Phase.rdTree.Logs s t := by
  obtain ⟨-, rfl⟩ | ⟨-, ⟨-, rfl⟩ | ⟨-, hx⟩ | ⟨f, -, -, ⟨-, rfl⟩ | ⟨v, -, hx⟩⟩⟩ := execPhaseRdTree_next hx
  · exact ⟨_, .inl rfl, rfl⟩
  · exact ⟨_, .inr (.inl rfl), rfl⟩
  · obtain ⟨-, -, rfl⟩ := takeInner_next hx
    exact ⟨_, .inr (.inl rfl), rfl⟩
  · exact ⟨_, .inr (.inr rfl), rfl⟩
  · refine ⟨_, .inr (.inr rfl), ?_⟩
    rw [Issues, linkUp_chanLog (takeLeaf_next hx).2]; rfl

theorem decode (hx : execPhaseDecode s = .next t) : Phase.decode.Logs s t := by
  obtain ⟨-, ⟨-, rfl⟩ | ⟨-, ⟨-, rfl⟩ | ⟨b, c, -, -, -, rfl⟩⟩⟩ := execPhaseDecode_next hx
  · obtain ⟨-, e⟩ | ⟨-, e⟩ := leafRoot_cases s (s.nodeAt s.cur).sym <;> rw [e]
    · exact ⟨_, .inr (.inl rfl), rfl⟩
    · exact ⟨_, .inl rfl, rfl⟩
  · exact ⟨_, .inr (.inr (.inl rfl)), rfl⟩
  · split
    · obtain ⟨-, e⟩ | ⟨-, -, e⟩ | ⟨hlit, e⟩ :=
        leafAction_cases { s.afterRead 1 with cur := c } (s.nodeAt c).sym <;> rw [e]
      · exact ⟨_, .inr (.inr (.inr (.inl rfl))), rfl⟩
      · exact ⟨_, .inr (.inr (.inl rfl)), rfl⟩
      · refine ⟨_, .inr (.inr (.inr (.inr ⟨(s.nodeAt c).sym.setWidth 8, rfl⟩))), ?_⟩
        rw [← setWidth_literal hlit]; rfl
    · exact ⟨_, .inr (.inr (.inl rfl)), rfl⟩

/-- Every phase's step issues what the table gives the phase. -/
theorem exec_phase (hx : exec (phaseInstr s.phase) s = .next t) : s.phase.Logs s t := by
  cases hs : s.phase <;> rw [hs] at hx
  case count => exact count hx
  case buildInit => exact buildInit hx
  case buildMerge => exact buildMerge hx
  case derive => exact derive hx
  case wrMagic => exact wrMagic hx
  case wrTree => exact wrTree hx
  case encode => exact encode hx
  case wrEof => cases hx; exact wrEof s
  case rdMagic => exact rdMagic hx
  case rdTree => exact rdTree hx
  case decode => exact decode hx
  case rewind | close | idle | done | fault => cases hx; exact ⟨_, rfl, rfl⟩

end Phase.Logs

/-- Settles O52, phase by phase. -/
theorem transactionsByPhase : Obligations.TransactionsByPhase := fun _ _ hx => Phase.Logs.exec_phase hx

end Sys2Proof.Machine
end

section
/-! Encodings (R92 to R108): what stands at an instruction's place decodes to it, and a channel word has one meaning. -/

namespace Sys2Proof

/-! ### Codewords -/

/-- Every leaf has a path (R96). -/
theorem Tree.exists_path?_of_mem_leaves {s : Sym} {t : Sys2Proof.Tree} (h : s ∈ t.leaves) :
    ∃ p, t.path? s = some p := by
  induction t with
  | leaf s' => exact ⟨[], if_pos (List.mem_singleton.mp h).symm⟩
  | node l r ihl ihr =>
    rw [Tree.path?]
    cases hl : l.path? s with
    | some p => exact ⟨_, rfl⟩
    | none =>
      have hr : s ∈ r.leaves := (List.mem_append.mp h).resolve_left fun hm => by
        obtain ⟨p, hp⟩ := ihl hm
        rw [hl] at hp; cases hp
      obtain ⟨p, hp⟩ := ihr hr
      exact ⟨true :: p, by rw [hp]; rfl⟩

/-- The walk along a symbol's path ends at the symbol, with the bits after the path left over (R103). -/
theorem Tree.walk?_path?_append {s : Sym} {t : Sys2Proof.Tree} {p : List Bool} (h : t.path? s = some p)
    (rest : List Bool) : t.walk? (p ++ rest) = some (s, rest) := by
  induction t generalizing p with
  | leaf s' =>
    simp only [Tree.path?] at h
    split at h <;> cases h
    subst s'; rfl
  | node l r ihl ihr =>
    simp only [Tree.path?] at h
    split at h
    · cases h; exact ihl ‹_›
    · obtain ⟨q, hr, rfl⟩ := Option.map_eq_some_iff.mp h
      exact ihr hr

/-! ### Each place -/

theorem ofNat_valMsb_bitsMsb (n v : Nat) : BitVec.ofNat n (valMsb (bitsMsb n v)) = BitVec.ofNat n v := by
  apply BitVec.eq_of_toNat_eq
  simp [valMsb_bitsMsb]

section
variable (c : Config) (v : Nat) (rest : List Bool)

theorem decode_cmd : decode c .cmd (bitsMsb 32 v ++ rest) = .ok (decodeCmd (BitVec.ofNat 32 v), rest) := by
  simp only [decode, splitBits_append _ (bitsMsb_length _ _), ofNat_valMsb_bitsMsb]

theorem decode_phase : decode c .phase (bitsMsb 4 v ++ rest) = .ok (decodePhase (BitVec.ofNat 4 v), rest) := by
  simp only [decode, splitBits_append _ (bitsMsb_length _ _), ofNat_valMsb_bitsMsb]

theorem decode_magic : decode c .magic (bitsMsb 32 c.magic.toNat ++ rest) = .ok (.tokMagic, rest) := by
  simp [decode, splitBits_append _ (bitsMsb_length _ _), ofNat_valMsb_bitsMsb]

theorem decode_leafToken (s : Sym) :
    decode c .tree (true :: bitsMsb 9 s.toNat ++ rest) = .ok (.tokL s, rest) := by
  simp [decode, decodeTreeToken, splitBits_append _ (bitsMsb_length _ _), ofNat_valMsb_bitsMsb]

theorem decode_chan {w : ChanReq} {i : Instr} (h : decodeChan w = .ok i) :
    decode c .chan (bitsMsb 41 w.toNat ++ rest) = .ok (i, rest) := by
  simp [decode, splitBits_append _ (bitsMsb_length _ _), ofNat_valMsb_bitsMsb, h]

theorem decode_codeword {t : Sys2Proof.Tree} {s : Sym} (hs : s.toNat ≤ 256) (h : s ∈ t.leaves) :
    decode c (.payload t) ((t.path? s).getD [] ++ rest) = .ok (.tokC s, rest) := by
  obtain ⟨p, hp⟩ := Tree.exists_path?_of_mem_leaves h
  simp only [decode, hp, Option.getD_some, Tree.walk?_path?_append hp, if_pos hs]

theorem decode_padding {p : BitVec 3} {len : Nat} (h : p.toNat = padLen len) (b : Bool) :
    decode c (.padding len) (List.replicate p.toNat b ++ rest) = .ok (.tokPad p, rest) := by
  simp only [decode, splitBits_append rest (List.length_replicate.trans h)]
  simp [← h]

end

/-- Settles O2, place by place: the fixed-width words, the tree tokens, the codewords and the padding. -/
theorem decodeEncodeAgree : Obligations.DecodeEncodeAgree := by
  intro c t len i rest hwf hleaf hpad
  cases i
  case nop | compress | decompress | clear => exact decode_cmd c _ rest
  case tokMagic => exact decode_magic c rest
  case tokI => rfl
  case tokL s => exact decode_leafToken c rest s
  case tokC s => exact decode_codeword c rest (of_decide_eq_true hwf) (hleaf s rfl)
  case tokPad p => exact decode_padding c rest (hpad p rfl) c.padBit
  case inRead n => exact decode_chan c rest (decodeChan_inRead n)
  case inReset => exact decode_chan c rest decodeChan_inReset
  case outWrite n v => exact decode_chan c rest (decodeChan_outWrite n v)
  case outClose => exact decode_chan c rest decodeChan_outClose
  case phaseIdle | phaseCount | phaseBuildInit | phaseBuildMerge | phaseDerive | phaseWrMagic | phaseWrTree
    | phaseRewind | phaseEncode | phaseWrEof | phaseClose | phaseRdMagic | phaseRdTree | phaseDecode | phaseDone
    | phaseFault => exact decode_phase c _ rest

/-- Settles O3: the selector and the value fields of a word that decodes are those of its transaction. -/
theorem channelWordHasOneMeaning : Obligations.ChannelWordHasOneMeaning := by
  intro w i h
  simp only [decodeChan] at h
  split_ifs at h with hread hv hreset hn hv hwrite hclose hn hv <;> cases h
  · exact ⟨chanWord_fields w hread rfl hv, fun _ _ => rfl⟩
  · exact ⟨chanWord_fields w hreset hn hv, fun _ _ => rfl⟩
  · exact ⟨chanWord_fields w hwrite rfl rfl, fun _ _ => rfl⟩
  · exact ⟨chanWord_fields w hclose hn hv, fun _ _ => rfl⟩

/-- Settles O1, word by word. -/
theorem tableWordsDecode : Obligations.TableWordsDecode := by
  unfold Obligations.TableWordsDecode
  decide

/-- Bit `i` of a response word. -/
theorem getLsbD_chanResponse (e : Bool) (v : Word) (i : Nat) :
    (chanResponse e v).getLsbD i = if i < 32 then v.getLsbD i else (BitVec.ofBool e).getLsbD (i - 32) :=
  BitVec.getLsbD_append

theorem chanResponse_eod (e : Bool) (v : Word) : (chanResponse e v).getLsbD 32 = e := by
  rw [getLsbD_chanResponse]; simp

theorem chanResponse_value (e : Bool) (v : Word) : (chanResponse e v).extractLsb' 0 32 = v := by
  apply BitVec.eq_of_getLsbD_eq
  intro i hi
  simp [getLsbD_chanResponse, hi]

/-- Settles O4, from the fields of `chanWord` and of `chanResponse`. -/
theorem channelWordLayout : Obligations.ChannelWordLayout :=
  ⟨fun _ => ⟨chanWord_chan .., chanWord_op .., chanWord_n .., chanWord_v ..⟩,
    ⟨chanWord_chan .., chanWord_op .., chanWord_n .., chanWord_v ..⟩,
    fun _ _ => ⟨chanWord_chan .., chanWord_op .., chanWord_n .., chanWord_v ..⟩,
    ⟨chanWord_chan .., chanWord_op .., chanWord_n .., chanWord_v ..⟩,
    fun e v => ⟨chanResponse_eod e v, chanResponse_value e v⟩⟩

end Sys2Proof
end

section
/-! The stream tokens where the compressor writes them (R93 to R98). -/

namespace Sys2Proof.Machine

variable {s t u : State}

/-- Between `s` and `t` the bits `l` went to an open `OUT`; nothing else changed but the log of transactions. -/
structure State.Writes (s t : State) (l : List Bool) : Prop where
  out : t.out = { s.out with bits := s.out.bits ++ l }
  frame : { t with out := s.out, chanLog := s.chanLog } = s

namespace State

theorem Writes.trans {l l' : List Bool} (h : s.Writes t l) (h' : t.Writes u l') : s.Writes u (l ++ l') where
  out := by rw [h'.out, h.out, List.append_assoc]
  frame :=
    (congrArg (fun x : State => { x with out := s.out, chanLog := s.chanLog }) h'.frame).trans h.frame

section
variable (ho : s.out.closed = false)
include ho

theorem writeBits_writes (n : Nat) (v : Word) : s.Writes (s.writeBits n v) (msbFirst (v.setWidth n)) where
  out := by rw [writeBits_open ho, bitsMsb_setWidth]
  frame := writeBits_frame ho n v

theorem emit_writes (c : CodeEntry) : s.Writes (s.emit c) c.stream := ⟨emit_open c ho, emit_frame c ho⟩

theorem writeMagic_writes : s.Writes s.writeMagic (msbFirst s.cfg.magic) := by
  have h := writeBits_writes ho 32 s.cfg.magic
  rwa [BitVec.setWidth_eq] at h

theorem writeInnerToken_writes : s.Writes s.writeInnerToken [false] := writeBits_writes ho 1 0

/-- The flag and the symbol are one transaction each (R95, R161). -/
theorem writeLeafToken_writes (v : Sym) : s.Writes (s.writeLeafToken v) (true :: msbFirst v) := by
  have hsym : (v.setWidth 32).setWidth 9 = v := by simp
  have h := writeBits_writes (s := s.writeBits 1 1) ho 9 (v.setWidth 32)
  rw [hsym] at h
  exact (writeBits_writes ho 1 1).trans h

/-- What O29 says of a token, from the bits it writes. -/
theorem Writes.token {i : Instr} {l : List Bool} (h : s.Writes t l) (hx : exec i s = .next t) :
    ∃ t, exec i s = .next t ∧ t.out.bits = s.out.bits ++ l ∧ t.out.closed = false ∧
      { t with out := s.out, chanLog := s.chanLog } = s :=
  ⟨t, hx, by rw [h.out], by rw [h.out]; exact ho, h.frame⟩

end

end State

open State

theorem execTokMagic_write (hs : s.phase = .wrMagic) : execTokMagic s = .next s.writeMagic := by
  simp only [execTokMagic, hs]

theorem execTokI_write (hs : s.phase = .wrTree) : execTokI s = .next s.writeInnerToken := by
  simp only [execTokI, hs]

theorem execTokL_write (v : Sym) (hs : s.phase = .wrTree) : execTokL v s = .next (s.writeLeafToken v) := by
  simp only [execTokL, hs]

/-- A codeword is written by `ENCODE`, where its symbol has a code, and by `WR_EOF` (R97). -/
theorem execTokC_write {v : Sym} (hv : v.toNat ≤ 256)
    (hs : (s.phase = .encode ∧ (s.codeAt v.toNat).valid = true) ∨ s.phase = .wrEof) :
    execTokC v s = .next (s.emit (s.codeAt v.toNat)) := by
  obtain ⟨hs, hc⟩ | hs := hs
  · simp only [execTokC, if_neg hv.not_gt, hs, hc, if_true]
  · simp only [execTokC, if_neg hv.not_gt, hs]

theorem execTokPad_write {p : BitVec 3} (hs : s.phase = .close) (ho : s.out.closed = false)
    (hp : p.toNat = padLen s.out.bits.length) : execTokPad p s = .next (s.appendPad p.toNat) := by
  simp [execTokPad, hs, ho, hp]

/-- Settles O29, token by token. -/
theorem tokensAreWritten : Obligations.TokensAreWritten := fun s ho =>
  ⟨fun hs => (writeMagic_writes ho).token ho (execTokMagic_write hs),
    fun hs => (writeInnerToken_writes ho).token ho (execTokI_write hs),
    fun v hs => (writeLeafToken_writes ho v).token ho (execTokL_write v hs),
    fun v hv hs => (emit_writes ho (s.codeAt v.toNat)).token ho (execTokC_write hv hs),
    fun _ hs hp => ⟨_, execTokPad_write hs ho hp, rfl, ho, rfl⟩⟩

end Sys2Proof.Machine
end

section
/-! A codeword where the decompressor reads it (R96, R201 to R203). -/

namespace Sys2Proof.Machine

open State

variable {s t : State}

/-- The tree at a node is made of allocated nodes (R34). -/
theorem treeAt_lt {fuel i : Nat} {d : Sys2Proof.Tree} (h : s.treeAt fuel i = some d) : i < s.nnodes := by
  cases fuel with
  | zero => cases h
  | succ fuel =>
    rw [treeAt] at h
    split at h
    · assumption
    · cases h

/-- A node has one tree, whatever the depth allowed (R34). -/
theorem treeAt_unique {fuel fuel' i : Nat} {d d' : Sys2Proof.Tree} (h : s.treeAt fuel i = some d)
    (h' : s.treeAt fuel' i = some d') : d = d' := by
  induction fuel generalizing fuel' i d d' with
  | zero => cases h
  | succ fuel ih =>
    cases fuel' with
    | zero => cases h'
    | succ fuel' =>
      obtain ⟨hl, rfl⟩ | ⟨hl, l, r, rfl, hleft, hright⟩ := treeAt_succ h <;>
        obtain ⟨hl', rfl⟩ | ⟨hl', l', r', rfl, hleft', hright'⟩ := treeAt_succ h'
      · rfl
      · rw [hl] at hl'; cases hl'
      · rw [hl] at hl'; cases hl'
      · rw [ih hleft hleft', ih hright hright']

/-- The trees in the node memory depend on `NODE` and `NNODES` only. -/
theorem treeAt_congr (hnode : t.node = s.node) (hnnodes : t.nnodes = s.nnodes) (fuel i : Nat) :
    t.treeAt fuel i = s.treeAt fuel i := by
  induction fuel generalizing i with
  | zero => rfl
  | succ fuel ih =>
    have hn : t.nodeAt i = s.nodeAt i := congrArg (Memory.read NodeEntry.zero · i) hnode
    rw [treeAt, treeAt, hn, hnnodes, ih, ih]

/-- The child of a node along an edge, 0 left and 1 right (R202). -/
def NodeEntry.child (n : NodeEntry) (b : Bool) : Nat := if b then n.right else n.left

/-- The walk one bit and one edge further, at node `c` (R201). -/
def State.enter (s : State) (c : Nat) : State := { s.afterRead 1 with cur := c }

/-- `DECODE` on an internal node, with the bit `b` at the cursor (R201). -/
theorem execPhaseDecode_edge {b : Bool} {c : Nat} (hcur : s.cur < s.cfg.nodeCap) (hl : (s.nodeAt s.cur).leaf = false)
    (hb : s.Offers (BitVec.ofBool b)) (hchild : (s.nodeAt s.cur).child b = c) (hc : c < s.cfg.nodeCap) :
    execPhaseDecode s =
      .next (if (s.nodeAt c).leaf then (s.enter c).leafAction (s.nodeAt c).sym else s.enter c) := by
  have hedge : (if (if b then 1 else 0 : Word) = 0 then (s.nodeAt s.cur).left else (s.nodeAt s.cur).right) = c := by
    rw [← hchild]; cases b <;> rfl
  simp only [execPhaseDecode, withNode_of_lt hcur, if_neg (Bool.eq_false_iff.mp hl), hb.peek_one, hedge]
  exact withNode_of_lt hc

theorem takeCode_succ (k : Nat) (h : execPhaseDecode s = .next t) :
    takeCode (k + 1) s = if t.phase = .decode ∧ t.cur ≠ t.root then takeCode k t else .next t := by
  simp only [takeCode, h]

/-- In `DECODE` the walk stands at a node that holds the tree `d`, and no smaller tree hangs at the root: the walk comes
back there by the end of a codeword only. -/
structure State.Walking (s : State) (d : Sys2Proof.Tree) : Prop where
  phase : s.phase = .decode
  allocated : s.nnodes ≤ s.cfg.nodeCap
  openOut : s.out.closed = false
  eod : s.inp.eod = false
  here : ∃ fuel, s.treeAt fuel s.cur = some d
  below : ∀ fuel i d', s.treeAt fuel i = some d' → d'.nodes < d.nodes → i ≠ s.root

/-- `t` is `s` after the codeword of `v` has been taken and acted on (R201 to R203), with `rest` still unread. -/
structure State.CodewordTaken (s t : State) (v : Sym) (rest : List Bool) : Prop where
  unread : t.inp.bits.drop t.inp.pos = rest
  literal : v.toNat < 256 → t.phase = .decode ∧ t.cur = t.root ∧ t.out.closed = false ∧
    t.out.bits = s.out.bits ++ msbFirst (v.setWidth 8)
  pseudoEof : v.toNat = 256 → t.phase = .done ∧ t.out = s.closedOut
  frame : { t with inp := s.inp, out := s.out, cur := s.cur, phase := s.phase, chanLog := s.chanLog } = s

/-- A bit of the codeword changes nothing that the rest of the codeword is measured by. -/
theorem State.CodewordTaken.of_enter {c : Nat} {v : Sym} {rest : List Bool} (h : (s.enter c).CodewordTaken t v rest) :
    s.CodewordTaken t v rest where
  unread := h.unread
  literal := h.literal
  pseudoEof := h.pseudoEof
  frame := congrArg (fun x : State =>
    { x with inp := s.inp, out := s.out, cur := s.cur, phase := s.phase, chanLog := s.chanLog }) h.frame

/-- `leaf_action` completes the codeword (R203). -/
theorem leafAction_codewordTaken {v : Sym} (hs : s.phase = .decode) (ho : s.out.closed = false) (hv : v.toNat ≤ 256) :
    s.CodewordTaken (s.leafAction v) v (s.inp.bits.drop s.inp.pos) := by
  obtain ⟨rfl, e⟩ | ⟨-, hreserved, -⟩ | ⟨hlit, e⟩ := leafAction_cases s v
  · rw [e]
    exact ⟨rfl, fun h => absurd h (by decide), fun _ => ⟨rfl, closeOut_open ho⟩, by simp [outCtr_of_open ho]⟩
  · omega
  · rw [e]
    refine ⟨rfl, fun _ => ⟨hs, rfl, ho, ?_⟩, fun h => by omega, by simp [outCtr_of_open ho]⟩
    have hbyte : (v.setWidth 32).setWidth 8 = v.setWidth 8 := BitVec.setWidth_setWidth_of_le v (by omega)
    show (s.writeBits 8 (v.setWidth 32)).out.bits = _
    rw [writeBits_open ho, bitsMsb_setWidth, hbyte]

namespace State.Walking

variable {d l r : Sys2Proof.Tree}

theorem cur_lt (h : s.Walking d) : s.cur < s.cfg.nodeCap := by
  obtain ⟨fuel, hd⟩ := h.here
  exact (treeAt_lt hd).trans_le h.allocated

/-- The node of the walk is the root of its tree (R34). -/
theorem node (h : s.Walking d) :
    ((s.nodeAt s.cur).leaf = true ∧ d = .leaf (s.nodeAt s.cur).sym) ∨
    ((s.nodeAt s.cur).leaf = false ∧ ∃ l r, d = .node l r) := by
  obtain ⟨_ | fuel, hd⟩ := h.here
  · cases hd
  · obtain hleaf | ⟨hl, l, r, e, -, -⟩ := treeAt_succ hd
    · exact .inl hleaf
    · exact .inr ⟨hl, l, r, e⟩

/-- The walk goes on in the subtree along the bit read (R202), and has not come back to the root. -/
theorem enter (h : s.Walking (.node l r)) {b : Bool} (hb : s.Offers (BitVec.ofBool b)) :
    (s.enter ((s.nodeAt s.cur).child b)).Walking (if b then r else l) ∧ (s.nodeAt s.cur).child b ≠ s.root := by
  obtain ⟨_ | fuel, hd⟩ := h.here
  · cases hd
  obtain ⟨-, e⟩ | ⟨-, l', r', e, hleft, hright⟩ := treeAt_succ hd <;> cases e
  have hchild : s.treeAt fuel ((s.nodeAt s.cur).child b) = some (if b then r else l) := by
    cases b
    · exact hleft
    · exact hright
  have hsmaller : (if b then r else l).nodes < (Tree.node l r).nodes := by
    cases b
    · show l.nodes < 1 + l.nodes + r.nodes; omega
    · show r.nodes < 1 + l.nodes + r.nodes; omega
  have htrees : ∀ f i, (s.enter ((s.nodeAt s.cur).child b)).treeAt f i = s.treeAt f i := treeAt_congr rfl rfl
  refine ⟨⟨h.phase, h.allocated, h.openOut, ?_, ⟨fuel, (htrees _ _).trans hchild⟩, fun f i d' hd' hlt => ?_⟩,
    h.below _ _ _ hchild hsmaller⟩
  · show (s.inAfter 1).eod = false
    rw [hb.inAfter Nat.one_pos]; exact h.eod
  · rw [htrees] at hd'
    exact h.below f i d' hd' (hlt.trans hsmaller)

end State.Walking

/-- The first of the unread bits is offered. -/
theorem offers_of_unread {b : Bool} {bits : List Bool} (he : s.inp.eod = false)
    (hu : s.inp.bits.drop s.inp.pos = b :: bits) : s.Offers (BitVec.ofBool b) :=
  ⟨he, bits, by rw [hu]; simp [msbFirst]⟩

/-- After the first of the unread bits the others are unread. -/
theorem unread_enter {b : Bool} {bits : List Bool} {c : Nat} (he : s.inp.eod = false)
    (hu : s.inp.bits.drop s.inp.pos = b :: bits) :
    (s.enter c).inp.bits.drop (s.enter c).inp.pos = bits := by
  show (s.inAfter 1).bits.drop (s.inAfter 1).pos = bits
  rw [(offers_of_unread he hu).inAfter Nat.one_pos]
  show s.inp.bits.drop (s.inp.pos + 1) = bits
  rw [← List.drop_drop, hu]; rfl

/-- From an internal node, `DECODE` steps take the rest of the codeword, one bit each (R201, R202). -/
theorem takeCode_takes_codeword {bits rest : List Bool} {l r : Sys2Proof.Tree} {v : Sym} (h : s.Walking (.node l r))
    (hu : s.inp.bits.drop s.inp.pos = bits) (hw : (Tree.node l r).walk? bits = some (v, rest)) (hv : v.toNat ≤ 256) :
    ∃ t, takeCode (bits.length + 1) s = .next t ∧ s.CodewordTaken t v rest := by
  induction bits generalizing s l r with
  | nil => cases hw
  | cons b bits ih =>
    have hb := offers_of_unread h.eod hu
    have hl : (s.nodeAt s.cur).leaf = false := by
      obtain ⟨-, e⟩ | ⟨hl, -⟩ := h.node
      · cases e
      · exact hl
    obtain ⟨hnext, hroot⟩ := h.enter hb
    have hstep := execPhaseDecode_edge h.cur_lt hl hb rfl hnext.cur_lt
    have hrest : (s.enter ((s.nodeAt s.cur).child b)).inp.bits.drop _ = bits := unread_enter h.eod hu
    have hw' : (if b then r else l).walk? bits = some (v, rest) := by cases b <;> exact hw
    generalize (s.nodeAt s.cur).child b = c at *
    generalize (if b then r else l) = d at *
    obtain ⟨hleaf, rfl⟩ | ⟨hinner, l', r', rfl⟩ := hnext.node
    · obtain ⟨rfl, rfl⟩ : (s.nodeAt c).sym = v ∧ bits = rest := by
        rw [Tree.walk?] at hw'; cases hw'; exact ⟨rfl, rfl⟩
      have htaken := leafAction_codewordTaken hnext.phase hnext.openOut hv
      rw [hrest] at htaken
      replace hstep := hstep.trans (congrArg _ (if_pos hleaf))
      refine ⟨_, (takeCode_succ _ hstep).trans (if_neg fun hgo => ?_), htaken.of_enter⟩
      obtain hlit | heof := Nat.lt_or_eq_of_le hv
      · exact hgo.2 (htaken.literal hlit).2.1
      · rw [(htaken.pseudoEof heof).1] at hgo
        cases hgo.1
    · obtain ⟨t, ht, htaken⟩ := ih hnext hrest hw'
      replace hstep := hstep.trans (congrArg _ (if_neg (Bool.eq_false_iff.mp hinner)))
      exact ⟨t, (takeCode_succ _ hstep).trans ((if_pos ⟨hnext.phase, hroot⟩).trans ht), htaken.of_enter⟩

/-- Settles O31: the walk stands at the root, and no tree smaller than the root's own hangs there. -/
theorem codewordIsRead : Obligations.CodewordIsRead := by
  intro s l r fuel v rest hs hcur hcap ho htree heod hw hv
  have hwalking : s.Walking (.node l r) :=
    { phase := hs, allocated := hcap, openOut := ho, eod := heod, here := ⟨fuel, hcur ▸ htree⟩
      below := fun fuel' i d hd hlt hi => by
        subst hi
        exact hlt.ne (congrArg _ (treeAt_unique hd htree)) }
  have hunread : s.unread = s.inp.bits.drop s.inp.pos := by simp [unread, heod]
  have hsym : s.walkSym s.unread s.root = some v := by rw [walkSym_eq_walk? htree, hunread, hw]; rfl
  obtain ⟨t, ht, htaken⟩ := takeCode_takes_codeword hwalking rfl hw hv
  refine ⟨t, ?_, htaken.unread, htaken.literal, htaken.pseudoEof, htaken.frame⟩
  rw [← hunread] at ht
  exact (execTokC_decode hv hs).trans ((if_pos ⟨hcur, hsym⟩).trans ht)

end Sys2Proof.Machine
end

section
/-! The step of `COUNT` (R122). -/

namespace Sys2Proof.Machine

variable {s : State}

/-- The table after one byte is counted. -/
theorem freqAt_countByte (h : Memory.wf 0 s.freq = true) (r i : Nat) :
    (s.countByte r).freqAt i = if i = r then s.cntAdd (s.freqAt r) 1 else s.freqAt i :=
  State.freqAt_setFreq h r i _

/-- The table at the end of the input. -/
theorem freqAt_countEnd (h : Memory.wf 0 s.freq = true) (i : Nat) :
    s.countEnd.freqAt i = if i = 256 then 1 else s.freqAt i :=
  State.freqAt_setFreq h 256 i 1

theorem exec_phaseCount_byte {r : Byte} (h : s.Offers r) (hn : s.nsym ≠ s.cfg.maxInput) :
    exec .phaseCount s = .next ((s.afterRead 8).countByte r.toNat) := by
  show execPhaseCount s = _
  simp only [execPhaseCount, h.peek (by decide), if_neg hn, BitVec.toNat_setWidth_of_le (show 8 ≤ 32 by decide)]

theorem exec_phaseCount_tooLong {r : Byte} (h : s.Offers r) (hn : s.nsym = s.cfg.maxInput) :
    exec .phaseCount s = .next ((s.afterRead 8).raise .countOvf) := by
  show execPhaseCount s = _
  simp only [execPhaseCount, h.peek (by decide), if_pos hn]

theorem exec_phaseCount_end (h : s.Exhausted 8) : exec .phaseCount s = .next (s.afterRead 8).countEnd := by
  show execPhaseCount s = _
  simp only [execPhaseCount, h.peek]

/-- Settles O32, by the three outcomes of the step; below `MAX_INPUT` no counter wraps, since none is above `NSYM`. -/
theorem countStep : Obligations.CountStep := by
  intro s hinv hle
  have hwf : Memory.wf 0 (s.afterRead 8).freq = true := hinv.memories.freqWf
  refine ⟨fun r hr hn => ?_, fun r hr hn => ?_, fun he => ?_⟩
  · have hlt : s.nsym < s.cfg.maxInput := Nat.lt_of_le_of_ne hinv.widths.nsym hn
    refine ⟨_, exec_phaseCount_byte hr hn, ?_, fun i hi => ?_, State.cntAdd_one_of_lt hlt,
      hr.inAfter (by decide), rfl⟩
    · rw [freqAt_countByte hwf, if_pos rfl]
      exact State.cntAdd_one_of_lt (Nat.lt_of_le_of_lt (hle _) hlt)
    · rw [freqAt_countByte hwf, if_neg hi]; rfl
  · exact ⟨_, exec_phaseCount_tooLong hr hn, rfl, rfl, hr.inAfter (by decide), rfl⟩
  · refine ⟨_, exec_phaseCount_end he, ?_, fun i hi => ?_, rfl, rfl, he.inAfter, rfl⟩
    · rw [freqAt_countEnd hwf, if_pos rfl]
    · rw [freqAt_countEnd hwf, if_neg hi]; rfl

end Sys2Proof.Machine
end

section
/-! Runs of several steps. -/

namespace Sys2Proof.Machine

variable {m : Nat} {s t u : State}

theorem runSteps_of_step (hs : step s = .next t) (m : Nat) : runSteps (m + 1) s = runSteps m t := by
  simp only [runSteps, hs]

/-- A run that goes on after its first step took that step. -/
theorem exists_step_of_runSteps (h : runSteps (m + 1) s = .next u) :
    ∃ t, step s = .next t ∧ runSteps m t = .next u := by
  unfold runSteps at h
  split at h
  · exact ⟨_, ‹_›, h⟩
  · cases h
  · cases h

/-- A run of `m + n` steps is a run of `m` and, from where it ends, a run of `n`. -/
theorem runSteps_add (h : runSteps m s = .next u) (n : Nat) : runSteps (m + n) s = runSteps n u := by
  induction m generalizing s with
  | zero => cases h; rw [Nat.zero_add]
  | succ m ih =>
    obtain ⟨t, hs, ht⟩ := exists_step_of_runSteps h
    rw [Nat.succ_add, runSteps_of_step hs, ih ht]

/-- A run and one step more. -/
theorem runSteps_succ (h : runSteps m s = .next u) (hs : step u = .next t) : runSteps (m + 1) s = .next t :=
  (runSteps_add h 1).trans (runSteps_of_step hs 0)

end Sys2Proof.Machine
end

section
/-! The phase `COUNT` over a whole input (R120, R126). -/

namespace Sys2Proof

theorem bytesToBits_append (l l' : List Byte) : bytesToBits (l ++ l') = bytesToBits l ++ bytesToBits l' := by
  induction l with
  | nil => rfl
  | cons b l ih => simp only [List.cons_append, bytesToBits, ih, List.append_assoc]

end Sys2Proof

namespace Sys2Proof.Machine

/-- How often symbol `i` stands in `l`. -/
def occurrences (l : List Byte) (i : Nat) : Nat := l.countP fun b => decide (b.toNat = i)

theorem occurrences_le_length (l : List Byte) (i : Nat) : occurrences l i ≤ l.length := List.countP_le_length

theorem occurrences_concat_same (l : List Byte) (b : Byte) : occurrences (l ++ [b]) b.toNat = occurrences l b.toNat + 1 := by
  simp [occurrences]

theorem occurrences_concat_ne {b : Byte} {i : Nat} (l : List Byte) (h : i ≠ b.toNat) :
    occurrences (l ++ [b]) i = occurrences l i := by
  simp [occurrences, h.symm]

/-- No byte is above 255. -/
theorem occurrences_eq_zero (l : List Byte) {i : Nat} (h : 256 ≤ i) : occurrences l i = 0 :=
  List.countP_eq_zero.mpr fun b _ => by have := b.isLt; simp; omega

/-- `count(S)` is the pseudo-EOF's 1 and the occurrences of every other symbol (R120). -/
theorem count_eq (l : List Byte) (i : Nat) : Contract.count l i = if i = 256 then 1 else occurrences l i := by
  show (if i = 256 then 1 else if i < 256 then occurrences l i else 0) = _
  by_cases h : i < 256
  · rw [if_pos h]
  · rw [if_neg h, occurrences_eq_zero l (Nat.not_lt.mp h)]

/-- `t` with all that `COUNT` may write without an error put back to what it is in `s`. -/
def State.countFrame (s t : State) : State :=
  { t with freq := s.freq, nsym := s.nsym, scan := s.scan, phase := s.phase, inp := s.inp, chanLog := s.chanLog }

/-- `t` is `s` after `COUNT` counted the bytes `l` from an empty table. -/
structure State.Counted (s t : State) (l : List Byte) : Prop where
  inv : t.Inv
  freq : ∀ i, t.freqAt i = occurrences l i
  nsym : t.nsym = l.length
  phase : t.phase = s.phase
  inp : t.inp = s.inp.advanced (8 * l.length)
  frame : s.countFrame t = s

/-- `t` is `s` after `COUNT` counted the input `l` and found its end. -/
structure State.CountFinished (s t : State) (l : List Byte) : Prop where
  freq : ∀ i, t.freqAt i = Contract.count l i
  nsym : t.nsym = l.length
  scan : t.scan = 0
  phase : t.phase = .buildInit
  inp : t.inp = s.inp.drained
  frame : s.countFrame t = s

namespace State.Counted

variable {s t u : State} {l rest : List Byte} {b : Byte}

theorem start (hinv : s.Inv) (hfreq : ∀ i, s.freqAt i = 0) (hnsym : s.nsym = 0) : s.Counted s [] where
  inv := hinv
  freq := hfreq
  nsym := hnsym
  phase := rfl
  inp := rfl
  frame := rfl

theorem cfg (h : s.Counted u l) : u.cfg = s.cfg := (congrArg State.cfg h.frame :)

theorem pending (h : s.Counted u l) : u.pending = s.pending := (congrArg State.pending h.frame :)

/-- No counter is above `NSYM` (R123). -/
theorem freq_le_nsym (h : s.Counted u l) (i : Nat) : u.freqAt i ≤ u.nsym := by
  rw [h.freq, h.nsym]; exact occurrences_le_length l i

theorem step_eq (h : s.Counted u l) (hp : s.pending = []) (hs : s.phase = .count) : step u = exec .phaseCount u := by
  rw [step_idleHost (h.pending.trans hp), h.phase, hs]; rfl

/-- The byte after those counted is the next one read. -/
theorem offers (h : s.Counted u l) (hin : s.inp = { bits := bytesToBits (l ++ b :: rest), pos := 0, eod := false }) :
    u.Offers b := by
  have hu : u.inp = { bits := bytesToBits (l ++ b :: rest), pos := 8 * l.length, eod := false } := by
    rw [h.inp, hin, InChan.advanced, Nat.zero_add]
  refine ⟨by rw [hu], bytesToBits rest, ?_⟩
  rw [hu, bytesToBits_append, ← bytesToBits_length, List.drop_left, msbFirst_eq]; rfl

/-- All bytes are counted: none is left to read. -/
theorem exhausted (h : s.Counted u l) (hin : s.inp = { bits := bytesToBits l, pos := 0, eod := false }) :
    u.Exhausted 8 := by
  right
  rw [h.inp, hin]
  simp [InChan.advanced]

/-- One step counts one byte more. -/
theorem step_byte (h : s.Counted u l) (hp : s.pending = []) (hs : s.phase = .count)
    (hin : s.inp = { bits := bytesToBits (l ++ b :: rest), pos := 0, eod := false }) (hlen : l.length < s.cfg.maxInput) :
    ∃ t, step u = .next t ∧ s.Counted t (l ++ [b]) := by
  have hne : u.nsym ≠ u.cfg.maxInput := by rw [h.nsym, h.cfg]; exact hlen.ne
  obtain ⟨t, hx, hsame, hother, hnsym, hinp, hframe⟩ := (countStep u h.inv h.freq_le_nsym).1 b (h.offers hin) hne
  have hstep : step u = .next t := (h.step_eq hp hs).trans hx
  refine ⟨t, hstep, stepKeepsInvariant u t h.inv hstep, fun i => ?_, ?_, ?_, ?_, ?_⟩
  · by_cases hi : i = b.toNat
    · rw [hi, hsame, h.freq, occurrences_concat_same]
    · rw [hother i hi, h.freq, occurrences_concat_ne l hi]
  · rw [hnsym, h.nsym, List.length_append, List.length_singleton]
  · exact (congrArg State.phase hframe :).trans h.phase
  · rw [hinp, h.inp, List.length_append, List.length_singleton, Nat.mul_succ]
    simp only [InChan.advanced, Nat.add_assoc]
  · exact (congrArg s.countFrame hframe).trans h.frame

/-- The step after the last byte completes the table. -/
theorem step_end (h : s.Counted u l) (hp : s.pending = []) (hs : s.phase = .count)
    (hin : s.inp = { bits := bytesToBits l, pos := 0, eod := false }) :
    ∃ t, step u = .next t ∧ s.CountFinished t l := by
  obtain ⟨t, hx, heof, hother, hscan, hphase, hinp, hframe⟩ :=
    (countStep u h.inv h.freq_le_nsym).2.2 (h.exhausted hin)
  refine ⟨t, (h.step_eq hp hs).trans hx, fun i => ?_, ?_, hscan, hphase, ?_, ?_⟩
  · rw [count_eq]
    by_cases hi : i = 256
    · rw [hi, heof, if_pos rfl]
    · rw [hother i hi, h.freq, if_neg hi]
  · exact (congrArg State.nsym hframe :).trans h.nsym
  · rw [hinp, h.inp]; rfl
  · exact (congrArg s.countFrame hframe).trans h.frame

end State.Counted

/-- `COUNT` takes one step per byte (R126): after as many steps as `l` has bytes, where the input begins with
`l`, the bytes of `l` are counted. -/
theorem runSteps_counts {s : State} {input l : List Byte} (h : s.Counted s []) (hp : s.pending = [])
    (hs : s.phase = .count) (hin : s.inp = { bits := bytesToBits input, pos := 0, eod := false })
    (hlen : input.length ≤ s.cfg.maxInput) (hl : l <+: input) :
    ∃ u, runSteps l.length s = .next u ∧ s.Counted u l := by
  induction l using List.reverseRecOn with
  | nil => exact ⟨s, rfl, h⟩
  | append_singleton l b ih =>
    obtain ⟨u, hrun, hu⟩ := ih ((List.prefix_append l [b]).trans hl)
    have hlt : l.length < s.cfg.maxInput := by
      have := hl.length_le
      rw [List.length_append, List.length_singleton] at this
      omega
    obtain ⟨rest, rfl⟩ := hl
    rw [List.append_assoc] at hin
    obtain ⟨t, hstep, ht⟩ := hu.step_byte hp hs hin hlt
    refine ⟨t, ?_, ht⟩
    rw [List.length_append, List.length_singleton]
    exact runSteps_succ hrun hstep

/-- Settles O58, by induction on the bytes already counted, and the step that finds the end of the input. -/
theorem countPhaseRefines : Obligations.CountPhaseRefines := by
  intro s input hinv hp hs hfreq hnsym hin hlen
  obtain ⟨u, hrun, hu⟩ :=
    runSteps_counts (.start hinv hfreq hnsym) hp hs hin hlen (List.prefix_refl input)
  obtain ⟨t, hstep, ht⟩ := hu.step_end hp hs hin
  exact ⟨u, t, hrun, hu.phase.trans hs, hstep, runSteps_succ hrun hstep, ht.freq, ht.nsym, ht.scan, ht.phase⟩

end Sys2Proof.Machine
end

section
/-! The priority structure (R131, R134): `TIE_ORDER` is the order of the nodes' ranks, and `minlive()` the live node of
least rank. -/

namespace Sys2Proof.Machine

namespace State

variable {s : State} {i j k : Nat}

/-! ### `TIE_ORDER` -/

/-- `TIE_ORDER` by its three keys. -/
theorem before_iff : s.before i j = true ↔ (s.nodeAt i).weight < (s.nodeAt j).weight ∨
    (s.nodeAt i).weight = (s.nodeAt j).weight ∧
      (s.tieKeyAt i < s.tieKeyAt j ∨ s.tieKeyAt i = s.tieKeyAt j ∧ i < j) := by
  simp [before]

/-- The keys of a node, in lexicographic order. -/
def rank (s : State) (i : Nat) : ℕ ×ₗ ℕ ×ₗ ℕ := toLex ((s.nodeAt i).weight, toLex (s.tieKeyAt i, i))

theorem before_iff_rank_lt : s.before i j = true ↔ s.rank i < s.rank j := by
  rw [before_iff, rank, rank, Prod.Lex.toLex_lt_toLex, Prod.Lex.toLex_lt_toLex]

/-- The index is the last key, so no two nodes have one rank. -/
theorem rank_injective (s : State) : Function.Injective s.rank := fun _ _ h =>
  congrArg (fun r => (ofLex (ofLex r).2).2) h

theorem before_irrefl (s : State) (i : Nat) : s.before i i = false :=
  Bool.eq_false_iff.mpr fun h => lt_irrefl _ (before_iff_rank_lt.mp h)

theorem before_trans (hij : s.before i j = true) (hjk : s.before j k = true) : s.before i k = true :=
  before_iff_rank_lt.mpr ((before_iff_rank_lt.mp hij).trans (before_iff_rank_lt.mp hjk))

/-- Of two nodes exactly one comes before the other. -/
theorem before_iff_not_before (h : i ≠ j) : s.before i j = true ↔ s.before j i = false := by
  have hne : s.rank i ≠ s.rank j := s.rank_injective.ne h
  rw [← Bool.not_eq_true, before_iff_rank_lt, before_iff_rank_lt, not_lt]
  exact ⟨le_of_lt, fun hle => lt_of_le_of_ne hle hne⟩

theorem before_of_weight_lt (h : (s.nodeAt i).weight < (s.nodeAt j).weight) : s.before i j = true :=
  before_iff.mpr (.inl h)

/-- The default order: ascending weight, then ascending index (R131). -/
theorem before_default (h : s.cfg.tieOrder = 0) : s.before i j = true ↔
    (s.nodeAt i).weight < (s.nodeAt j).weight ∨ (s.nodeAt i).weight = (s.nodeAt j).weight ∧ i < j := by
  simp [before_iff, tieKeyAt, h]

/-! ### `minlive()` -/

/-- In canonical form the live nodes are the listed ones. -/
theorem mem_live_iff (h : Memory.wf false s.live = true) : (i, true) ∈ s.live ↔ s.liveAt i = true := by
  refine ⟨fun hi => Memory.read_of_mem false h hi, fun hi => ?_⟩
  have hmem := Memory.mem_of_read false (m := s.live) (i := i) (Bool.ne_false_iff.mpr hi)
  exact hi ▸ hmem

section

variable {m : List (Nat × Bool)} {l : Bool}

theorem leastLive_cons_none (h : s.leastLive m = none) : s.leastLive ((i, l) :: m) = if l then some i else none := by
  rw [leastLive, h]

theorem leastLive_cons_some (h : s.leastLive m = some j) :
    s.leastLive ((i, l) :: m) = if l && s.before i j then some i else some j := by
  rw [leastLive, h]

/-- A list without a least live index lists no live one. -/
theorem leastLive_eq_none : s.leastLive m = none ↔ ∀ j, (j, true) ∉ m := by
  induction m with
  | nil => simp [leastLive]
  | cons e m ih =>
    obtain ⟨i, l⟩ := e
    cases hm : s.leastLive m with
    | none =>
      rw [leastLive_cons_none hm]
      cases l <;> simp [ih.mp hm]
    | some j =>
      rw [leastLive_cons_some hm]
      have hj := mem_of_leastLive hm
      refine ⟨fun h => ?_, fun h => absurd (List.mem_cons_of_mem _ hj) (h j)⟩
      split at h <;> cases h

/-- The least live index comes before every other live index of the list. -/
theorem before_of_leastLive (h : s.leastLive m = some i) (hk : (k, true) ∈ m) (hne : k ≠ i) :
    s.before i k = true := by
  induction m generalizing i with
  | nil => cases hk
  | cons e m ih =>
    obtain ⟨c, l⟩ := e
    cases hm : s.leastLive m with
    | none =>
      rw [leastLive_cons_none hm] at h
      obtain he | htail := List.mem_cons.mp hk
      · cases he
        exact absurd (Option.some.inj h) hne
      · exact absurd htail (leastLive_eq_none.mp hm k)
    | some j =>
      rw [leastLive_cons_some hm] at h
      split at h <;> cases h
      next hfirst =>
        have hij : s.before i j = true := (Bool.and_eq_true_iff.mp hfirst).2
        obtain he | htail := List.mem_cons.mp hk
        · exact absurd (congrArg Prod.fst he) hne
        · by_cases hkj : k = j
          · exact hkj ▸ hij
          · exact before_trans hij (ih hm htail hkj)
      next hlater =>
        obtain he | htail := List.mem_cons.mp hk
        · cases he
          exact (before_iff_not_before hne.symm).mpr (by simpa using hlater)
        · exact ih hm htail hne

end

theorem minlive_eq_none (h : Memory.wf false s.live = true) : s.minlive = none ↔ ∀ i, s.liveAt i = false := by
  simp only [minlive, leastLive_eq_none, mem_live_iff h, Bool.not_eq_true]

/-- `minlive()` is the live node that comes before every other one (R134). -/
theorem minlive_eq_some (h : Memory.wf false s.live = true) :
    s.minlive = some i ↔ s.liveAt i = true ∧ ∀ j, s.liveAt j = true → j ≠ i → s.before i j = true := by
  refine ⟨fun hi => ⟨(mem_live_iff h).mp (mem_of_leastLive hi),
    fun j hj => before_of_leastLive hi ((mem_live_iff h).mpr hj)⟩, fun ⟨hlive, hleast⟩ => ?_⟩
  cases hm : s.minlive with
  | none => exact absurd hlive (Bool.eq_false_iff.mp ((minlive_eq_none h).mp hm i))
  | some j =>
    by_contra hne
    replace hne : i ≠ j := fun e => hne (congrArg some e.symm)
    have hij := hleast j ((mem_live_iff h).mp (mem_of_leastLive hm)) hne.symm
    have hji := before_of_leastLive hm ((mem_live_iff h).mpr hlive) hne
    exact Bool.eq_false_iff.mp ((before_iff_not_before hne).mp hij) hji

end State

/-- Settles O34: `TIE_ORDER` is the lexicographic order of the ranks, and `minlive()` is its minimum by induction on the
list of live nodes. -/
theorem minliveIsTheLeastLiveNode : Obligations.MinliveIsTheLeastLiveNode := fun s h =>
  ⟨fun _ => State.minlive_eq_some h, State.minlive_eq_none h, s.before_irrefl, fun _ _ => State.before_iff_not_before,
    fun _ _ _ => State.before_trans, fun _ _ => State.before_of_weight_lt, fun hd _ _ => State.before_default hd⟩

end Sys2Proof.Machine
end

section
/-! The step of `BUILD_INIT` (R133). -/

namespace Sys2Proof.Machine

namespace State

variable {s : State}

/-! ### A node joins the priority structure -/

theorem liveAt_insertNode (h : Memory.wf false s.live = true) (i : Nat) :
    s.insertNode.liveAt i = if i = s.nnodes then true else s.liveAt i := liveAt_setLive h s.nnodes i true

/-- Room in the node memory is room in the register (R27). -/
theorem insertNode_nnodes_of_lt (h : s.nnodes < s.cfg.nodeCap) : s.insertNode.nnodes = s.nnodes + 1 := idxInc_of_lt h

/-! ### The end of the step -/

/-- The end of the step moves the symbol register and the phase. -/
theorem nextSymbol_frame (s : State) : { s.nextSymbol with scan := s.scan, phase := s.phase } = s := by
  obtain ⟨-, e⟩ | ⟨-, e⟩ := nextSymbol_cases s <;> rw [e]

theorem nextSymbol_scan (s : State) : s.nextSymbol.scan = if s.scan = eofSym then eofSym else s.scan + 1 := by
  obtain ⟨h, e⟩ | ⟨h, e⟩ := nextSymbol_cases s
  · rw [e, if_pos h]; exact h
  · rw [e, if_neg h]

theorem nextSymbol_phase (s : State) : s.nextSymbol.phase = if s.scan = eofSym then .buildMerge else s.phase := by
  obtain ⟨h, e⟩ | ⟨h, e⟩ := nextSymbol_cases s
  · rw [e, if_pos h]
  · rw [e, if_neg h]

theorem nextSymbol_nodeAt (s : State) (i : Nat) : s.nextSymbol.nodeAt i = s.nodeAt i :=
  (congrArg (fun u => u.nodeAt i) (nextSymbol_frame s) :)

theorem nextSymbol_liveAt (s : State) (i : Nat) : s.nextSymbol.liveAt i = s.liveAt i :=
  (congrArg (fun u => u.liveAt i) (nextSymbol_frame s) :)

theorem nextSymbol_nnodes (s : State) : s.nextSymbol.nnodes = s.nnodes :=
  (congrArg State.nnodes (nextSymbol_frame s) :)

end State

open State

variable {s : State}

theorem exec_phaseBuildInit_noLeaf (hscan : s.scan.toNat ≤ 256) (hf : s.freqAt s.scan.toNat = 0) :
    exec .phaseBuildInit s = .next s.nextSymbol :=
  (if_neg hscan.not_gt).trans (if_pos hf)

theorem exec_phaseBuildInit_leaf (hscan : s.scan.toNat ≤ 256) (hf : s.freqAt s.scan.toNat ≠ 0)
    (hcap : s.nnodes < s.cfg.nodeCap) :
    exec .phaseBuildInit s = .next (s.setNode s.nnodes s.builtLeaf).insertNode.nextSymbol :=
  ((if_neg hscan.not_gt).trans (if_neg hf)).trans (putNode_of_lt hcap)

/-- The new leaf, and then the end of the step, move nothing but these five fields. -/
theorem buildInit_leaf_frame (s : State) (v : NodeEntry) :
    { (s.setNode s.nnodes v).insertNode.nextSymbol with
      node := s.node, live := s.live, nnodes := s.nnodes, scan := s.scan, phase := s.phase } = s :=
  congrArg (fun u : State => { u with node := s.node, live := s.live, nnodes := s.nnodes })
    (nextSymbol_frame (s.setNode s.nnodes v).insertNode)

/-- Settles O33: without a count the step is `nextSymbol` alone; with one, the leaf is written and inserted first. -/
theorem buildInitStep : Obligations.BuildInitStep := by
  intro s hinv
  have hscan : s.scan.toNat ≤ 256 := hinv.widths.scan
  refine ⟨fun hf hne => ?_, fun hf he => ?_, fun hf hcap => ?_⟩
  · exact (exec_phaseBuildInit_noLeaf hscan hf).trans (congrArg _ (if_neg hne))
  · exact (exec_phaseBuildInit_noLeaf hscan hf).trans (congrArg _ (if_pos he))
  · have hnode := nodeAt_setNode hinv.memories.nodeWf s.nnodes
    have hlive := liveAt_insertNode (s := s.setNode s.nnodes s.builtLeaf) hinv.memories.liveWf
    refine ⟨_, exec_phaseBuildInit_leaf hscan hf hcap, ?_, fun i hi => ?_, ?_, fun i hi => ?_, ?_,
      nextSymbol_scan _, nextSymbol_phase _, buildInit_leaf_frame s s.builtLeaf⟩
    · exact (nextSymbol_nodeAt _ _).trans ((hnode _ _).trans (if_pos rfl))
    · exact (nextSymbol_nodeAt _ _).trans ((hnode _ _).trans (if_neg hi))
    · exact (nextSymbol_liveAt _ _).trans ((hlive _).trans (if_pos rfl))
    · exact (nextSymbol_liveAt _ _).trans ((hlive _).trans (if_neg hi))
    · exact (nextSymbol_nnodes _).trans (insertNode_nnodes_of_lt (s := s.setNode s.nnodes s.builtLeaf) hcap)

end Sys2Proof.Machine
end

section
/-! The step of `BUILD_MERGE` (R135). -/

namespace Sys2Proof.Machine

namespace State

variable {s t : State} {a b r : Nat}

/-! ### Removing a live node -/

theorem liveAt_setLive_false (h : Memory.wf false s.live = true) {i : Nat} :
    (s.setLive a false).liveAt i = true ↔ i ≠ a ∧ s.liveAt i = true := by
  rw [liveAt_setLive h]
  split <;> simp_all

theorem wf_setLive (h : Memory.wf false s.live = true) (i : Nat) (v : Bool) :
    Memory.wf false (s.setLive i v).live = true := Memory.wf_write false h i v

theorem popcount_eq_zero (h : Memory.wf false s.live = true) : s.popcount = 0 ↔ ∀ i, s.liveAt i = false := by
  rw [popcount, List.length_eq_zero_iff, List.filter_eq_nil_iff]
  refine ⟨fun hall i => ?_, fun hall e he => ?_⟩
  · exact Bool.eq_false_iff.mpr fun hi => hall _ ((mem_live_iff h).mpr hi) rfl
  · exact Bool.eq_false_iff.mp ((Memory.read_of_mem false h he).symm.trans (hall e.1))

/-- The live node `r` is counted alone exactly when no other node is live. -/
theorem popcount_eq_one (h : Memory.wf false s.live = true) (hr : s.liveAt r = true) :
    s.popcount = 1 ↔ ∀ i, i ≠ r → s.liveAt i = false := by
  rw [← popcount_setLive_false h hr, Nat.add_eq_right, popcount_eq_zero (wf_setLive h r false)]
  simp only [← Bool.not_eq_true, liveAt_setLive_false h, not_and]

theorem content_congr (hnode : t.node = s.node) (depth i : Nat) : t.content depth i = s.content depth i := by
  induction depth generalizing i with
  | zero => rfl
  | succ depth ih =>
    have hn : t.nodeAt i = s.nodeAt i := congrArg (Memory.read NodeEntry.zero · i) hnode
    simp only [content, hn, ih]

/-- The live bits do not enter into `TIE_ORDER`. -/
theorem before_setLive (i : Nat) (v : Bool) : (s.setLive i v).before a b = s.before a b := by
  simp only [before, tieKeyAt, content_congr (setLive_node s i v)]
  rfl

/-- The minimum of what is left after `a` is removed. -/
theorem minlive_setLive_false (h : Memory.wf false s.live = true) (hb : s.liveAt b = true) (hab : b ≠ a)
    (hleast : ∀ j, s.liveAt j = true → j ≠ a → j ≠ b → s.before b j = true) :
    (s.setLive a false).minlive = some b := by
  refine (minlive_eq_some (wf_setLive h a false)).mpr ⟨(liveAt_setLive_false h).mpr ⟨hab, hb⟩, fun j hj hjb => ?_⟩
  obtain ⟨hja, hj⟩ := (liveAt_setLive_false h).mp hj
  exact (before_setLive a false).trans (hleast j hj hja hjb)

/-! ### The two outcomes -/

/-- The stack has an entry for the root (R7). -/
theorem Inv.stackCap_pos (h : s.Inv) : 0 < s.cfg.stackCap := by
  obtain ⟨-, hcap⟩ := Bool.and_eq_true_iff.mp h.config
  exact Nat.lt_of_lt_of_le (by decide) (of_decide_eq_true hcap)

/-- The state after the finishing step. -/
def finished (r : Nat) (s : State) : State :=
  { setStk 0 (StkEntry.start r) { s.setLive r false with root := r } with sp := 1, phase := .derive }

theorem liveAt_finished (h : Memory.wf false s.live = true) (i : Nat) :
    (s.finished r).liveAt i = if i = r then false else s.liveAt i := liveAt_setLive h r i false

theorem stkAt_finished (h : Memory.wf StkEntry.zero s.stk = true) (i : Nat) :
    (s.finished r).stkAt i = if i = 0 then StkEntry.start r else s.stkAt i :=
  stkAt_setStk (s := { s.setLive r false with root := r }) h 0 i _

/-- The state after a merge of `a` and `b`. -/
def merged (a b : Nat) (s : State) : State :=
  (((s.setLive a false).setLive b false).setNode s.nnodes (s.mergedNode a b)).insertNode

theorem nodeAt_merged (h : Memory.wf NodeEntry.zero s.node = true) (i : Nat) :
    (s.merged a b).nodeAt i = if i = s.nnodes then s.mergedNode a b else s.nodeAt i :=
  nodeAt_setNode (s := (s.setLive a false).setLive b false) h s.nnodes i _

theorem liveAt_merged (h : Memory.wf false s.live = true) (i : Nat) :
    (s.merged a b).liveAt i
      = if i = s.nnodes then true else if i = b then false else if i = a then false else s.liveAt i := by
  have hwf := wf_setLive h a false
  rw [← liveAt_setLive h, ← liveAt_setLive hwf]
  exact liveAt_insertNode (s := setNode s.nnodes (s.mergedNode a b) ((s.setLive a false).setLive b false))
    (wf_setLive hwf b false) i

/-- A merge moves nothing but the node memory, the live bits and the node count. -/
theorem merged_frame (s : State) (a b : Nat) :
    { s.merged a b with node := s.node, live := s.live, nnodes := s.nnodes } = s := by
  simp only [merged, insertNode, setNode, setLive]

/-- A sum that fits the register does not wrap (R138). -/
theorem mergedNode_of_lt (h : (s.nodeAt a).weight + (s.nodeAt b).weight < 2 ^ s.cfg.cntW) :
    s.mergedNode a b = { leaf := false, sym := 0, weight := (s.nodeAt a).weight + (s.nodeAt b).weight, left := a,
                         right := b } := by
  rw [mergedNode, cntAdd, Nat.mod_eq_of_lt h]

end State

open State

variable {s : State} {a b r : Nat}

theorem exec_phaseBuildMerge_finish (hmin : s.minlive = some r) (hpop : s.popcount = 1) (hcap : 0 < s.cfg.stackCap) :
    exec .phaseBuildMerge s = .next (s.finished r) := by
  show execPhaseBuildMerge s = _
  simp only [execPhaseBuildMerge, hmin, if_pos hpop]
  exact putStk_of_lt hcap

theorem exec_phaseBuildMerge_merge (hmin : s.minlive = some a) (hpop : s.popcount ≠ 1)
    (hnext : (s.setLive a false).minlive = some b) (hcap : s.nnodes < s.cfg.nodeCap) :
    exec .phaseBuildMerge s = .next (s.merged a b) := by
  show execPhaseBuildMerge s = _
  simp only [execPhaseBuildMerge, hmin, if_neg hpop, merge, hnext]
  exact putNode_of_lt hcap

/-- Settles O35: the number of live nodes is 1 exactly when `r` is the only one, and `minlive()`, before and after `a`
is removed, gives `a`, then `b`. -/
theorem buildMergeStep : Obligations.BuildMergeStep := by
  intro s hinv
  have hwf := hinv.memories.liveWf
  refine ⟨fun r hr honly => ?_, fun a b ha hb hab hleast hnext hsum hcap => ?_⟩
  · have hmin : s.minlive = some r :=
      (minlive_eq_some hwf).mpr ⟨hr, fun j hj hne => absurd hj (Bool.eq_false_iff.mp (honly j hne))⟩
    have hpop : s.popcount = 1 := (popcount_eq_one hwf hr).mpr honly
    refine ⟨_, exec_phaseBuildMerge_finish hmin hpop hinv.stackCap_pos, rfl, fun i => ?_, ?_, fun i hi => ?_, rfl, rfl, rfl⟩
    · rw [liveAt_finished hwf]
      split
      · rfl
      · exact honly i ‹_›
    · rw [stkAt_finished hinv.memories.stkWf, if_pos rfl, StkEntry.start]
    · rw [stkAt_finished hinv.memories.stkWf, if_neg hi]
  · have hmin : s.minlive = some a := (minlive_eq_some hwf).mpr ⟨ha, hleast⟩
    have hpop : s.popcount ≠ 1 := fun h => Bool.eq_false_iff.mp ((popcount_eq_one hwf ha).mp h b hab.symm) hb
    have hsecond := minlive_setLive_false hwf hb hab.symm hnext
    refine ⟨_, exec_phaseBuildMerge_merge hmin hpop hsecond hcap, ?_, fun i hi => ?_, ?_, fun hn => ?_, fun hn => ?_,
      fun i hn hia hib => ?_, idxInc_of_lt hcap, merged_frame s a b⟩
    · rw [nodeAt_merged hinv.memories.nodeWf, if_pos rfl, mergedNode_of_lt hsum]
    · rw [nodeAt_merged hinv.memories.nodeWf, if_neg hi]
    · rw [liveAt_merged hwf, if_pos rfl]
    · rw [liveAt_merged hwf, if_neg hn, if_neg hab, if_pos rfl]
    · rw [liveAt_merged hwf, if_neg hn, if_pos rfl]
    · rw [liveAt_merged hwf, if_neg hn, if_neg hib, if_neg hia]

end Sys2Proof.Machine
end

section
/-! Prefix-freeness of a tree's codes (R147): the walk along a path reads its symbol off the bits. -/

namespace Sys2Proof

/-- Bits that begin with the path of `s` and are the path of `s'` lead a walk to both, so the symbols are one. -/
theorem Tree.eq_of_path?_prefix {t : Sys2Proof.Tree} {s s' : Sym} {p p' : List Bool} (hp : t.path? s = some p)
    (hp' : t.path? s' = some p') (hpre : p <+: p') : s = s' := by
  obtain ⟨q, rfl⟩ := hpre
  have hs : t.walk? (p ++ q) = some (s, q) := walk?_path?_append hp q
  have hs' : t.walk? (p ++ q) = some (s', []) := by simpa using walk?_path?_append hp' []
  exact congrArg Prod.fst (Option.some.inj (hs.symm.trans hs'))

end Sys2Proof

namespace Sys2Proof.Machine

/-- Settles O8: a path that begins with another is a path to the same symbol. -/
theorem codesArePrefixFree : Obligations.CodesArePrefixFree :=
  fun _ _ _ _ _ hp hp' hne hpre => hne (Tree.eq_of_path?_prefix hp hp' hpre)

end Sys2Proof.Machine
end

section
/-! The step of `DERIVE` (R148). -/

namespace Sys2Proof.Machine

namespace State

variable {s : State} {k : Nat}

/-- The top of a stack that fits `STK` is an entry of `STK` (R35). -/
theorem Inv.top_lt_stackCap (h : s.Inv) (hsp : s.sp = k + 1) : k < s.cfg.stackCap := hsp.ge.trans h.widths.sp

/-- The state after the children of node `n` took the place of `n`'s own entry, number `k` of the stack. -/
def pushedChildren (k : Nat) (n : NodeEntry) (s : State) : State :=
  { (s.setStk k ((s.stkAt k).right n.right)).setStk (k + 1) ((s.stkAt k).left n.left) with sp := k + 2 }

theorem stkAt_pushedChildren (h : Memory.wf StkEntry.zero s.stk = true) (n : NodeEntry) (i : Nat) :
    (s.pushedChildren k n).stkAt i
      = if i = k + 1 then (s.stkAt k).left n.left else if i = k then (s.stkAt k).right n.right else s.stkAt i := by
  rw [← stkAt_setStk h]
  exact stkAt_setStk (s := s.setStk k _) (Memory.wf_write _ h k _) (k + 1) i _

end State

open State

variable {s : State} {k : Nat}

theorem exec_phaseDerive_empty (hsp : s.sp = 0) : exec .phaseDerive s = .next { s with phase := .wrMagic } := by
  show execPhaseDerive s = _
  rw [execPhaseDerive, hsp]

theorem exec_phaseDerive_leaf (hsp : s.sp = k + 1) (hk : k < s.cfg.stackCap) (hn : (s.stkAt k).node < s.cfg.nodeCap)
    (hl : (s.nodeAt (s.stkAt k).node).leaf = true) (hsym : (s.nodeAt (s.stkAt k).node).sym.toNat ≤ 256) :
    exec .phaseDerive s
      = .next (setCode (s.nodeAt (s.stkAt k).node).sym.toNat
          { valid := true, len := (s.stkAt k).len, val := (s.stkAt k).val } { s with sp := k }) := by
  show execPhaseDerive s = _
  simp only [execPhaseDerive, hsp, withStk_of_lt hk, withNode_of_lt hn, if_pos hl, recordCode, if_pos hsym]

theorem exec_phaseDerive_internal (hsp : s.sp = k + 1) (hn : (s.stkAt k).node < s.cfg.nodeCap)
    (hl : (s.nodeAt (s.stkAt k).node).leaf = false) (hcap : k + 1 < s.cfg.stackCap) :
    exec .phaseDerive s = .next (s.pushedChildren k (s.nodeAt (s.stkAt k).node)) := by
  show execPhaseDerive s = _
  have hk : k < s.cfg.stackCap := Nat.lt_of_succ_lt hcap
  simp only [execPhaseDerive, hsp, withStk_of_lt hk, withNode_of_lt hn, if_neg (Bool.eq_false_iff.mp hl), putStk_of_lt hk,
    idxInc_of_lt hcap]
  exact putStk_of_lt hcap

/-- Settles O36, by what is on top of the stack: nothing, a leaf, an internal node. -/
theorem deriveStep : Obligations.DeriveStep := by
  intro s hinv
  refine ⟨exec_phaseDerive_empty, fun k hsp hn hl hsym => ?leaf, fun k hsp hn hl hcap => ?internal⟩
  case leaf =>
    have hcode := codeAt_setCode (s := { s with sp := k }) hinv.memories.codeWf
    refine ⟨_, exec_phaseDerive_leaf hsp (hinv.top_lt_stackCap hsp) hn hl hsym, rfl, ?_, fun i hi => ?_, rfl⟩
    · rw [hcode, if_pos rfl]
    · rw [hcode, if_neg hi]; rfl
  case internal =>
    have hstk := stkAt_pushedChildren (k := k) hinv.memories.stkWf (s.nodeAt (s.stkAt k).node)
    refine ⟨_, exec_phaseDerive_internal hsp hn hl hcap, rfl, ?_, ?_, fun i hik hik1 => ?_, rfl⟩
    · rw [hstk, if_neg k.ne_add_one, if_pos rfl, StkEntry.right]
    · rw [hstk, if_pos rfl, StkEntry.left]
    · rw [hstk, if_neg hik1, if_neg hik]

end Sys2Proof.Machine
end

section
/-! The header of a tree: its length (R158), and that `readHeader` gives it back (R155, R156, R170). -/

namespace Sys2Proof

/-- A strict binary tree has one internal node less than leaves (R158). -/
theorem Tree.nodes_add_one (t : Sys2Proof.Tree) : t.nodes + 1 = 2 * t.leaves.length := by
  induction t with
  | leaf s => rfl
  | node l r ihl ihr =>
    rw [Tree.nodes, Tree.leaves, List.length_append]
    omega

end Sys2Proof

namespace Sys2Proof.Machine

open Contract

/-- One bit for each internal node, ten for each leaf (R94, R95, R158). -/
theorem writeHeader_length_add_one (t : Sys2Proof.Tree) : (writeHeader t).length + 1 = 11 * t.leaves.length := by
  induction t with
  | leaf s => simp [writeHeader, Tree.leaves]
  | node l r ihl ihr =>
    rw [writeHeader, Tree.leaves, List.length_cons, List.length_append, List.length_append]
    omega

/-- Settles O6, from the two counts over the tree. -/
theorem headerLength : Obligations.HeaderLength := by
  intro t
  have hnodes := t.nodes_add_one
  have hlength := writeHeader_length_add_one t
  refine ⟨?_, ?_, ?_, ?_⟩ <;> omega

/-- A token `I`, and then the two subtrees (R156). -/
theorem readHeaderIn_node {depth room room' room'' : Nat} {bits bits' bits'' : List Bool} {l r : Sys2Proof.Tree}
    (hl : readHeaderIn depth room bits = .ok (l, bits', room'))
    (hr : readHeaderIn depth room' bits' = .ok (r, bits'', room'')) :
    readHeaderIn (depth + 1) (room + 1) (false :: bits) = .ok (.node l r, bits'', room'') := by
  simp only [readHeaderIn, hl, hr]

/-- A token `L(v)` (R156). -/
theorem readHeaderIn_leaf (depth room : Nat) (v : Sym) (rest : List Bool) :
    readHeaderIn (depth + 1) (room + 1) (true :: bitsMsb 9 v.toNat ++ rest) = .ok (.leaf v, rest, room) := by
  rw [List.cons_append, readHeaderIn, splitBits_append rest (bitsMsb_length 9 _)]
  simp [ofNat_valMsb_bitsMsb]

/-- The header of a tree takes the room of the tree's nodes, and no depth beyond their number (R168, R170). -/
theorem readHeaderIn_writeHeader {depth : Nat} {t : Sys2Proof.Tree} (h : t.nodes ≤ depth) (room : Nat)
    (rest : List Bool) : readHeaderIn depth (t.nodes + room) (writeHeader t ++ rest) = .ok (t, rest, room) := by
  induction t generalizing depth room rest with
  | leaf v =>
    obtain ⟨depth, rfl⟩ := Nat.exists_eq_add_of_le' h
    rw [Tree.nodes, Nat.add_comm 1 room]
    exact readHeaderIn_leaf depth room v rest
  | node l r ihl ihr =>
    rw [Tree.nodes, Nat.add_assoc] at h
    obtain ⟨depth, rfl⟩ := Nat.exists_eq_add_of_le' (Nat.le_of_add_right_le h)
    have hroom : (Tree.node l r).nodes + room = l.nodes + (r.nodes + room) + 1 := by rw [Tree.nodes]; omega
    rw [hroom, writeHeader, List.cons_append, List.append_assoc]
    exact readHeaderIn_node (ihl (by omega) _ _) (ihr (by omega) _ _)

/-- Settles O5: the node memory has the room of the tree's nodes, and the depth allowed is beyond it. -/
theorem headerRoundTrip : Obligations.HeaderRoundTrip := by
  intro c t rest h
  have hread := readHeaderIn_writeHeader (Nat.le_succ_of_le h) (c.nodeCap - t.nodes) rest
  rw [Nat.add_sub_cancel' h] at hread
  rw [readHeader, hread]

end Sys2Proof.Machine
end

section
/-! The step of `WR_TREE` (R161). -/

namespace Sys2Proof.Machine

namespace State

variable {s : State} {k : Nat}

/-- `STK[i].node <- v`, where `i` is an entry of `STK`. -/
def setStkNode (i v : Nat) (s : State) : State := s.setStk i { s.stkAt i with node := v }

theorem putStkNode_of_lt {i v : Nat} {f : State → Result} (h : i < s.cfg.stackCap) :
    s.putStkNode i v f = f (s.setStkNode i v) := putStk_of_lt h

/-- The write of a node field leaves the other fields of every entry. -/
theorem stkAt_setStkNode (h : Memory.wf StkEntry.zero s.stk = true) (i v j : Nat) :
    (s.setStkNode i v).stkAt j = { s.stkAt j with node := if j = i then v else (s.stkAt j).node } := by
  rw [setStkNode, stkAt_setStk h]
  split
  · subst j; rfl
  · rfl

/-- The state after the children of node `n` took the place of `n`'s own index, in entry `k` of the stack. -/
def pushedNodes (k : Nat) (n : NodeEntry) (s : State) : State :=
  { (s.setStkNode k n.right).setStkNode (k + 1) n.left with sp := k + 2 }

theorem stkAt_pushedNodes (h : Memory.wf StkEntry.zero s.stk = true) (n : NodeEntry) (i : Nat) :
    (s.pushedNodes k n).stkAt i = { s.stkAt i with
      node := if i = k + 1 then n.left else if i = k then n.right else (s.stkAt i).node } := by
  have hright := stkAt_setStkNode h k n.right i
  have hleft := stkAt_setStkNode (s := s.setStkNode k n.right) (Memory.wf_write _ h k _) (k + 1) n.left i
  exact hleft.trans (by rw [hright])

end State

open State

variable {s : State} {k : Nat}

theorem exec_phaseWrTree_empty (hsp : s.sp = 0) : exec .phaseWrTree s = .next { s with phase := .rewind } := by
  show execPhaseWrTree s = _
  rw [execPhaseWrTree, hsp]

theorem exec_phaseWrTree_leaf (hsp : s.sp = k + 1) (hk : k < s.cfg.stackCap) (hn : (s.stkAt k).node < s.cfg.nodeCap)
    (hl : (s.nodeAt (s.stkAt k).node).leaf = true) :
    exec .phaseWrTree s = .next { s.writeLeafToken (s.nodeAt (s.stkAt k).node).sym with sp := k } := by
  show execPhaseWrTree s = _
  simp only [execPhaseWrTree, hsp, withStk_of_lt hk, withNode_of_lt hn, if_pos hl]

theorem exec_phaseWrTree_internal (hsp : s.sp = k + 1) (hn : (s.stkAt k).node < s.cfg.nodeCap)
    (hl : (s.nodeAt (s.stkAt k).node).leaf = false) (hcap : k + 1 < s.cfg.stackCap) :
    exec .phaseWrTree s = .next (s.writeInnerToken.pushedNodes k (s.nodeAt (s.stkAt k).node)) := by
  show execPhaseWrTree s = _
  have hk : k < s.cfg.stackCap := Nat.lt_of_succ_lt hcap
  simp only [execPhaseWrTree, hsp, withStk_of_lt hk, withNode_of_lt hn, if_neg (Bool.eq_false_iff.mp hl),
    putStkNode_of_lt (s := s.writeInnerToken) hk, idxInc_of_lt hcap]
  exact putStkNode_of_lt hcap

/-- Settles O38, by what is on top of the stack: nothing, a leaf, an internal node. -/
theorem wrTreeStep : Obligations.WrTreeStep := by
  intro s hinv ho
  refine ⟨exec_phaseWrTree_empty, fun k hsp hn hl => ?leaf, fun k hsp hn hl hcap => ?internal⟩
  case leaf =>
    obtain ⟨hout, hframe⟩ := writeLeafToken_writes ho (s.nodeAt (s.stkAt k).node).sym
    refine ⟨_, exec_phaseWrTree_leaf hsp (hinv.top_lt_stackCap hsp) hn hl, rfl, ?_, congrArg OutChan.bits hout,
      congrArg (fun u : State => { u with sp := s.sp }) hframe⟩
    exact (congrArg OutChan.closed hout).trans ho
  case internal =>
    obtain ⟨hout, hframe⟩ := writeInnerToken_writes ho
    have hstk := stkAt_pushedNodes (s := s.writeInnerToken) (k := k) hinv.memories.stkWf (s.nodeAt (s.stkAt k).node)
    refine ⟨_, exec_phaseWrTree_internal hsp hn hl hcap, rfl, ?_, congrArg OutChan.bits hout, ?_, ?_,
      fun i hik hik1 => ?_, congrArg (fun u : State => { u with stk := s.stk, sp := s.sp }) hframe⟩
    · exact (congrArg OutChan.closed hout).trans ho
    · rw [hstk, if_neg k.ne_add_one, if_pos rfl]; rfl
    · rw [hstk, if_pos rfl]; rfl
    · rw [hstk, if_neg hik1, if_neg hik]; rfl

end Sys2Proof.Machine
end

section
/-! The step of `RD_TREE` on a full memory, on a stream that ends, and on a token `I` (R166, R168). -/

namespace Sys2Proof.Machine

namespace State

variable {s : State}

/-- What is read of the flag of a leaf token (R95). -/
theorem Offers.peek_flag (h : s.Offers 1#1) : s.peek 1 = some 1 := Offers.peek_one (b := true) h

/-- Where a bit 1 is offered and a whole leaf token is not, its symbol is not (R62). -/
theorem Offers.exhausted_symbol (h : s.Offers 1#1) (he : s.Exhausted 10) : (s.afterRead 1).Exhausted 9 := by
  have hshort : s.inp.bits.length < s.inp.pos + 10 := he.resolve_left (by rw [h.1]; exact nofun)
  rw [h.afterRead Nat.one_pos]
  exact .inr hshort

/-- The state after the node of a token `I` joined the node memory and the stack. -/
def pushedInner (s : State) : State :=
  { (s.setNode s.nnodes s.readInner).setStk s.sp { node := s.nnodes, side := false, len := 0, val := 0 } with
    sp := s.sp + 1, nnodes := s.nnodes + 1 }

theorem takeInner_of_lt (hn : s.nnodes < s.cfg.nodeCap) (hsp : s.sp < s.cfg.stackCap) :
    s.takeInner = .next s.pushedInner := by
  rw [takeInner, putNode_of_lt hn, idxInc_of_lt hn, idxInc_of_lt hsp]
  exact putStk_of_lt hsp

theorem nodeAt_pushedInner (h : Memory.wf NodeEntry.zero s.node = true) (i : Nat) :
    s.pushedInner.nodeAt i = if i = s.nnodes then s.readInner else s.nodeAt i := nodeAt_setNode h s.nnodes i _

theorem stkAt_pushedInner (h : Memory.wf StkEntry.zero s.stk = true) (i : Nat) :
    s.pushedInner.stkAt i
      = if i = s.sp then { node := s.nnodes, side := false, len := 0, val := 0 } else s.stkAt i :=
  stkAt_setStk (s := s.setNode s.nnodes s.readInner) h s.sp i _

/-- The new node moves nothing but the two memories and their counts. -/
theorem pushedInner_frame (s : State) :
    { s.pushedInner with node := s.node, stk := s.stk, sp := s.sp, nnodes := s.nnodes } = s := by
  simp only [pushedInner, setNode, setStk]

end State

open State

variable {s : State}

theorem exec_phaseRdTree_full (h : s.nnodes = s.cfg.nodeCap) : exec .phaseRdTree s = .next (s.raise .treeOvf) :=
  if_pos h

section
variable (hn : s.nnodes ≠ s.cfg.nodeCap)
include hn

theorem exec_phaseRdTree_noFlag (h : s.Exhausted 1) : exec .phaseRdTree s = .next ((s.afterRead 1).raise .header) := by
  show execPhaseRdTree s = _
  simp only [execPhaseRdTree, if_neg hn, h.peek]

theorem exec_phaseRdTree_inner (h : s.Offers 0#1) : exec .phaseRdTree s = (s.afterRead 1).takeInner := by
  show execPhaseRdTree s = _
  simp only [execPhaseRdTree, if_neg hn, h.peek Nat.one_pos]
  exact if_pos rfl

theorem exec_phaseRdTree_noSymbol (h : s.Offers 1#1) (he : (s.afterRead 1).Exhausted 9) :
    exec .phaseRdTree s = .next (((s.afterRead 1).afterRead 9).raise .header) := by
  show execPhaseRdTree s = _
  simp only [execPhaseRdTree, if_neg hn, h.peek_flag, if_neg (show (1 : Word) ≠ 0 by decide), he.peek]

theorem exec_phaseRdTree_leaf {v : Sym} (h : s.Offers (1#1 ++ v)) :
    exec .phaseRdTree s = ((s.afterRead 1).afterRead 9).takeLeaf v := by
  obtain ⟨hflag, hsymbol⟩ := h.leafToken
  have hv : (v.setWidth 32).setWidth 9 = v := by simp
  show execPhaseRdTree s = _
  simp only [execPhaseRdTree, if_neg hn, hflag.peek_flag, if_neg (show (1 : Word) ≠ 0 by decide),
    hsymbol.peek (by decide), hv]

end

/-- Settles O45: the memory is full, the stream ends before the flag or after it, or the token is `I`. -/
theorem rdTreeStep : Obligations.RdTreeStep := by
  intro s hinv hsp
  refine ⟨exec_phaseRdTree_full, fun hn hend => ?ends, fun hn h => ?inner⟩
  case ends =>
    obtain he | ⟨h, he⟩ := hend
    · exact ⟨_, exec_phaseRdTree_noFlag hn he, rfl, rfl, he.inAfter, rfl⟩
    · have he' := h.exhausted_symbol he
      have hinp : (s.afterRead 1).inAfter 9 = s.inp.drained := by
        rw [he'.inAfter, afterRead_inp, h.inAfter Nat.one_pos]; rfl
      exact ⟨_, exec_phaseRdTree_noSymbol hn h he', rfl, rfl, hinp, rfl⟩
  case inner =>
    have hlt : s.nnodes < s.cfg.nodeCap := Nat.lt_of_le_of_ne hinv.widths.nnodes hn
    have hnode := nodeAt_pushedInner (s := s.afterRead 1) hinv.memories.nodeWf
    have hstk := stkAt_pushedInner (s := s.afterRead 1) hinv.memories.stkWf
    have hstep : exec .phaseRdTree s = .next (s.afterRead 1).pushedInner :=
      (exec_phaseRdTree_inner hn h).trans (takeInner_of_lt (s := s.afterRead 1) hlt (Nat.lt_of_le_of_lt hsp hlt))
    refine ⟨_, hstep, ?_, fun i hi => ?_, ?_, fun i hi => ?_, rfl, rfl, h.inAfter Nat.one_pos,
      congrArg (fun u : State => { u with inp := s.inp, chanLog := s.chanLog }) (pushedInner_frame (s.afterRead 1))⟩
    · exact (hnode _).trans (if_pos rfl)
    · exact (hnode _).trans (if_neg hi)
    · exact (hstk _).trans (if_pos rfl)
    · exact (hstk _).trans (if_neg hi)

end Sys2Proof.Machine
end

section
/-! The step of `RD_TREE` on a token `L(v)`: the link-upward loop in closed form (R165 to R167). -/

namespace Sys2Proof.Machine

namespace State

variable {s t u : State} {d k m : Nat}

/-! ### The waiting nodes -/

/-- The waiting node `i` entries below the top of the stack (R165). -/
def waiting (s : State) (i : Nat) : Nat := (s.stkAt (s.sp - 1 - i)).node

/-- The child that the loop, started on node `d`, gives to the waiting node `i` entries below the top: `d` itself, then
the node popped before. -/
def linked (s : State) (d i : Nat) : Nat := if i = 0 then d else (s.stkAt (s.sp - i)).node

theorem linked_succ (s : State) (d i : Nat) : s.linked d (i + 1) = s.waiting i := by
  rw [linked, if_neg i.succ_ne_zero, waiting, Nat.sub_sub, Nat.add_comm]

/-- The stack fits `STK`, and its entries name nodes of `NODE`, each a node of its own (R165, R168). -/
structure Stacked (s : State) : Prop where
  fits : s.sp ≤ s.cfg.stackCap
  node : ∀ j, j < s.sp → (s.stkAt j).node < s.cfg.nodeCap
  distinct : ∀ j j', j < s.sp → j' < s.sp → (s.stkAt j).node = (s.stkAt j').node → j = j'

theorem Stacked.waiting_ne {i j : Nat} (h : s.Stacked) (hi : i < s.sp) (hj : j < s.sp) (hne : i ≠ j) :
    s.waiting i ≠ s.waiting j := by
  intro e
  have hij : s.sp - 1 - i = s.sp - 1 - j := h.distinct _ _ (by omega) (by omega) e
  omega

/-! ### One turn of the loop -/

/-- The state after the waiting node in entry `k` got its right child and was popped. -/
def linkRight (k d : Nat) (s : State) : State :=
  { s.setNode (s.stkAt k).node { s.nodeAt (s.stkAt k).node with right := d } with sp := k }

/-- The state after the waiting node in entry `k` got its left child and waits for its right one. -/
def linkLeft (k d : Nat) (s : State) : State :=
  (({ s with sp := k + 1 } : State).setNode (s.stkAt k).node { s.nodeAt (s.stkAt k).node with left := d }).setStk k
    { s.stkAt k with side := true }

theorem linkUp_of_right (hk : k < s.cfg.stackCap) (hn : (s.stkAt k).node < s.cfg.nodeCap)
    (hside : (s.stkAt k).side = true) : linkUp (k + 1) d s = linkUp k (s.stkAt k).node (s.linkRight k d) := by
  rw [linkUp, withStk_of_lt hk, withNode_of_lt hn, if_pos hside, linkRight]

theorem linkUp_of_left (hk : k < s.cfg.stackCap) (hn : (s.stkAt k).node < s.cfg.nodeCap)
    (hside : (s.stkAt k).side = false) : linkUp (k + 1) d s = .next (s.linkLeft k d) := by
  rw [linkUp, withStk_of_lt hk, withNode_of_lt hn, if_neg (Bool.eq_false_iff.mp hside), linkLeft]

section
variable (h : Memory.wf NodeEntry.zero s.node = true)
include h

theorem nodeAt_linkRight (n : Nat) : (s.linkRight k d).nodeAt n
    = if n = (s.stkAt k).node then { s.nodeAt (s.stkAt k).node with right := d } else s.nodeAt n :=
  nodeAt_setNode h (s.stkAt k).node n _

theorem nodeAt_linkLeft (n : Nat) : (s.linkLeft k d).nodeAt n
    = if n = (s.stkAt k).node then { s.nodeAt (s.stkAt k).node with left := d } else s.nodeAt n :=
  nodeAt_setNode (s := { s with sp := k + 1 }) h (s.stkAt k).node n _

end

theorem stkAt_linkLeft (h : Memory.wf StkEntry.zero s.stk = true) (j : Nat) :
    (s.linkLeft k d).stkAt j = if j = k then { s.stkAt k with side := true } else s.stkAt j :=
  stkAt_setStk (s := setNode (s.stkAt k).node _ { s with sp := k + 1 }) h k j _

/-! ### The turns that pop -/

/-- `u` is `s` after `m` turns of the loop, started on node `d`, that each gave a right child. -/
structure RightsLinked (s u : State) (d m : Nat) : Prop where
  loop : linkUp s.sp d s = linkUp (s.sp - m) (s.linked d m) u
  frame : { u with node := s.node, sp := s.sp } = s
  nodeWf : Memory.wf NodeEntry.zero u.node = true
  right : ∀ i, i < m → u.nodeAt (s.waiting i) = { s.nodeAt (s.waiting i) with right := s.linked d i }
  other : ∀ n, (∀ i, i < m → n ≠ s.waiting i) → u.nodeAt n = s.nodeAt n

namespace RightsLinked

theorem cfg (h : s.RightsLinked u d m) : u.cfg = s.cfg := (congrArg State.cfg h.frame :)

theorem stk (h : s.RightsLinked u d m) : u.stk = s.stk := (congrArg State.stk h.frame :)

theorem stkAt (h : s.RightsLinked u d m) (j : Nat) : u.stkAt j = s.stkAt j := (congrArg (State.stkAt · j) h.frame :)

/-- Before the first turn. -/
theorem zero (hwf : Memory.wf NodeEntry.zero s.node = true) (d : Nat) : s.RightsLinked s d 0 where
  loop := rfl
  frame := rfl
  nodeWf := hwf
  right := fun _ hi => absurd hi (Nat.not_lt_zero _)
  other := fun _ _ => rfl

section
variable (h : s.RightsLinked u d m) (hs : s.Stacked) (hm : m < s.sp)
include h hs hm

/-- The next waiting node has not been touched. -/
theorem nodeAt_waiting : u.nodeAt (s.waiting m) = s.nodeAt (s.waiting m) :=
  h.other _ fun _ hi => hs.waiting_ne hm (hi.trans hm) hi.ne'

/-- One turn more. -/
theorem succ (hside : (s.stkAt (s.sp - 1 - m)).side = true) :
    s.RightsLinked (u.linkRight (s.sp - 1 - m) (s.linked d m)) d (m + 1) := by
  have hlt : s.sp - 1 - m < s.sp := by omega
  have hnode : (u.stkAt (s.sp - 1 - m)).node = s.waiting m := by rw [h.stkAt, waiting]
  have hread := nodeAt_linkRight (k := s.sp - 1 - m) (d := s.linked d m) h.nodeWf
  rw [hnode] at hread
  refine ⟨?loop, h.frame, Memory.wf_write _ h.nodeWf _ _, fun i hi => ?right, fun n hn => ?other⟩
  case loop =>
    have hturn := linkUp_of_right (s := u) (k := s.sp - 1 - m) (d := s.linked d m)
      (by rw [h.cfg]; exact hlt.trans_le hs.fits) (by rw [h.cfg, h.stkAt]; exact hs.node _ hlt)
      (by rw [h.stkAt]; exact hside)
    rw [h.loop, linked_succ, ← hnode, show s.sp - m = s.sp - 1 - m + 1 by omega, hturn,
      show s.sp - (m + 1) = s.sp - 1 - m by omega]
  case right =>
    rw [hread]
    obtain hi | rfl := Nat.lt_succ_iff_lt_or_eq.mp hi
    · rw [if_neg (hs.waiting_ne (hi.trans hm) hm hi.ne), h.right i hi]
    · rw [if_pos rfl, h.nodeAt_waiting hs hm]
  case other =>
    rw [hread, if_neg (hn m m.lt_succ_self)]
    exact h.other n fun i hi => hn i (Nat.lt_succ_of_lt hi)

end

end RightsLinked

/-- As many turns as there are topmost nodes that wait for their right child. -/
theorem exists_rightsLinked (hs : s.Stacked) (hwf : Memory.wf NodeEntry.zero s.node = true) (d : Nat) (hm : m ≤ s.sp)
    (hright : ∀ i, i < m → (s.stkAt (s.sp - 1 - i)).side = true) : ∃ u, s.RightsLinked u d m := by
  induction m with
  | zero => exact ⟨s, .zero hwf d⟩
  | succ m ih =>
    obtain ⟨u, hu⟩ := ih (Nat.le_of_succ_le hm) fun i hi => hright i (Nat.lt_succ_of_lt hi)
    exact ⟨_, hu.succ hs hm (hright m m.lt_succ_self)⟩

/-! ### The whole loop -/

/-- `t` is `s` after the loop, started on node `d` with `m` topmost nodes that wait for their right child. -/
structure LinkedUp (s t : State) (d m : Nat) : Prop where
  right : ∀ i, i < m → t.nodeAt (s.waiting i) = { s.nodeAt (s.waiting i) with right := s.linked d i }
  other : ∀ n, (∀ i, i ≤ m → i < s.sp → n ≠ s.waiting i) → t.nodeAt n = s.nodeAt n
  waits : m < s.sp → t.nodeAt (s.waiting m) = { s.nodeAt (s.waiting m) with left := s.linked d m } ∧
    t.stkAt (s.sp - 1 - m) = { s.stkAt (s.sp - 1 - m) with side := true } ∧
    (∀ j, j ≠ s.sp - 1 - m → t.stkAt j = s.stkAt j) ∧ t.sp = s.sp - m ∧ t.root = s.root ∧ t.cur = s.cur ∧
    t.phase = s.phase
  done : m = s.sp → t.sp = 0 ∧ t.stk = s.stk ∧ t.root = s.linked d m ∧ t.cur = s.linked d m ∧ t.phase = .decode

/-- The node below waits for its left child, and gets it. -/
theorem RightsLinked.linkedUp_left (h : s.RightsLinked u d m) (hs : s.Stacked)
    (hwf : Memory.wf StkEntry.zero s.stk = true) (hm : m < s.sp) :
    s.LinkedUp (u.linkLeft (s.sp - 1 - m) (s.linked d m)) d m := by
  have hnode : (u.stkAt (s.sp - 1 - m)).node = s.waiting m := by rw [h.stkAt, waiting]
  have hread := nodeAt_linkLeft (k := s.sp - 1 - m) (d := s.linked d m) h.nodeWf
  rw [hnode] at hread
  have hstk := stkAt_linkLeft (s := u) (k := s.sp - 1 - m) (d := s.linked d m) (by rw [h.stk]; exact hwf)
  refine ⟨fun i hi => ?right, fun n hn => ?other, fun _ => ?waits, fun e => absurd e hm.ne⟩
  case right => rw [hread, if_neg (hs.waiting_ne (hi.trans hm) hm hi.ne), h.right i hi]
  case other =>
    rw [hread, if_neg (hn m le_rfl hm)]
    exact h.other n fun i hi => hn i hi.le (hi.trans hm)
  case waits =>
    refine ⟨?_, ?_, fun j hj => ?_, ?_, (congrArg State.root h.frame :), (congrArg State.cur h.frame :),
      (congrArg State.phase h.frame :)⟩
    · rw [hread, if_pos rfl, h.nodeAt_waiting hs hm]
    · rw [hstk, if_pos rfl, h.stkAt]
    · rw [hstk, if_neg hj, h.stkAt]
    · show s.sp - 1 - m + 1 = s.sp - m
      omega

/-- No node waits any more, and the tree is done (R167). -/
theorem RightsLinked.linkedUp_done (h : s.RightsLinked u d m) (hm : m = s.sp) :
    s.LinkedUp (State.treeDone (s.linked d m) { u with sp := 0 }) d m where
  right := h.right
  other := fun n hn => h.other n fun i hi => hn i hi.le (hi.trans_eq hm)
  waits := fun hlt => absurd hm hlt.ne
  done := fun _ => ⟨rfl, h.stk, rfl, rfl, rfl⟩

/-- The loop gives `m` right children, and then a left one or the tree (R166). -/
theorem exists_linkedUp (hs : s.Stacked) (hnode : Memory.wf NodeEntry.zero s.node = true)
    (hstk : Memory.wf StkEntry.zero s.stk = true) (d : Nat) (hm : m ≤ s.sp)
    (hright : ∀ i, i < m → (s.stkAt (s.sp - 1 - i)).side = true)
    (hleft : m < s.sp → (s.stkAt (s.sp - 1 - m)).side = false) :
    ∃ t, linkUp s.sp d s = .next t ∧ s.LinkedUp t d m := by
  obtain ⟨u, hu⟩ := exists_rightsLinked hs hnode d hm hright
  obtain hlt | heq := Nat.lt_or_eq_of_le hm
  · have hk : s.sp - 1 - m < s.sp := by omega
    have hturn := linkUp_of_left (s := u) (k := s.sp - 1 - m) (d := s.linked d m)
      (by rw [hu.cfg]; exact hk.trans_le hs.fits) (by rw [hu.cfg, hu.stkAt]; exact hs.node _ hk)
      (by rw [hu.stkAt]; exact hleft hlt)
    refine ⟨_, ?_, hu.linkedUp_left hs hstk hlt⟩
    rw [hu.loop, show s.sp - m = s.sp - 1 - m + 1 by omega, hturn]
  · refine ⟨_, ?_, hu.linkedUp_done heq⟩
    rw [hu.loop, heq, Nat.sub_self, linkUp]

/-! ### The new leaf -/

/-- The state after the leaf of a token `L(v)` joined the node memory. -/
def pushedLeaf (v : Sym) (s : State) : State :=
  { s.setNode s.nnodes (s.readLeaf v) with nnodes := s.nnodes + 1 }

theorem takeLeaf_of_lt (v : Sym) (hn : s.nnodes < s.cfg.nodeCap) :
    s.takeLeaf v = linkUp s.sp s.nnodes (s.pushedLeaf v) := by
  rw [takeLeaf, putNode_of_lt hn, idxInc_of_lt hn, pushedLeaf]

theorem nodeAt_pushedLeaf (h : Memory.wf NodeEntry.zero s.node = true) (v : Sym) (i : Nat) :
    (s.pushedLeaf v).nodeAt i = if i = s.nnodes then s.readLeaf v else s.nodeAt i := nodeAt_setNode h s.nnodes i _

/-- The new leaf moves nothing but the node memory and its count. -/
theorem pushedLeaf_frame (v : Sym) (s : State) : { s.pushedLeaf v with node := s.node, nnodes := s.nnodes } = s := by
  simp only [pushedLeaf, setNode]

end State

open State

variable {s : State} {v : Sym}

/-- The two reads of a leaf token consume its ten bits (R95), and the loop starts with the new leaf. -/
theorem exec_phaseRdTree_loop (hn : s.nnodes < s.cfg.nodeCap) (h : s.Offers (1#1 ++ v)) :
    ∃ log, exec .phaseRdTree s
      = linkUp s.sp s.nnodes { s.pushedLeaf v with inp := s.inp.advanced 10, chanLog := log } := by
  obtain ⟨hflag, hsymbol⟩ := h.leafToken
  have hloop := takeLeaf_of_lt (s := (s.afterRead 1).afterRead 9) v hn
  rw [exec_phaseRdTree_leaf hn.ne h, hloop, hsymbol.afterRead (by decide), hflag.afterRead Nat.one_pos]
  exact ⟨_, rfl⟩

/-- Settles O46: the leaf is written, and the loop links it upwards; it is none of the waiting nodes. -/
theorem rdTreeLeafStep : Obligations.RdTreeLeafStep := by
  intro s v m hinv hn hoffer halloc hdistinct hm hright hleft linked
  have hlt : s.nnodes < s.cfg.nodeCap := Nat.lt_of_le_of_ne hinv.widths.nnodes hn
  obtain ⟨log, hstart⟩ := exec_phaseRdTree_loop hlt hoffer
  have hread := nodeAt_pushedLeaf (s := s) hinv.memories.nodeWf v
  obtain ⟨t, hloop, hlinkRight, hother, hwaits, hdone⟩ := exists_linkedUp
    (s := { s.pushedLeaf v with inp := s.inp.advanced 10, chanLog := log })
    ⟨hinv.widths.sp, fun j hj => (halloc j hj).trans hlt, hdistinct⟩ (Memory.wf_write _ hinv.memories.nodeWf _ _)
    hinv.memories.stkWf s.nnodes hm hright hleft
  have hne : ∀ i, i < s.sp → s.waiting i ≠ s.nnodes := fun i hi => (halloc _ (by omega)).ne
  have hold : ∀ n, n ≠ s.nnodes → (s.pushedLeaf v).nodeAt n = s.nodeAt n := fun n hn => (hread n).trans (if_neg hn)
  have hframe := linkUp_frame hloop
  refine ⟨t, hstart.trans hloop, (congrArg State.nnodes hframe :), (congrArg State.inp hframe :), ?leaf,
    fun i hi => ?right, fun n hn hni => (hother n hni).trans (hold n hn), fun hm => ?left, hdone, ?frame⟩
  case leaf => exact (hother _ fun i _ hi => (hne i hi).symm).trans ((hread _).trans (if_pos rfl))
  case right =>
    exact (hlinkRight i hi).trans (congrArg (fun n : NodeEntry => { n with right := linked i })
      (hold _ (hne i (hi.trans_le hm))))
  case left =>
    obtain ⟨hlinkLeft, hrest⟩ := hwaits hm
    exact ⟨hlinkLeft.trans (congrArg (fun n : NodeEntry => { n with left := linked m }) (hold _ (hne m hm))), hrest⟩
  case frame =>
    exact (congrArg (fun u : State => { u with
      node := s.node, nnodes := s.nnodes, inp := s.inp, chanLog := s.chanLog }) hframe :).trans (pushedLeaf_frame v s)

end Sys2Proof.Machine
end

section
/-! The compressor's own steps (R177 to R183). -/

namespace Sys2Proof.Machine

open State

variable {s : State}

/-! ### `WR_MAGIC` -/

/-- The state after `WR_MAGIC`. -/
def State.magicWritten (s : State) : State :=
  { setStk 0 (StkEntry.start s.root) s.writeMagic with sp := 1, phase := .wrTree }

theorem stkAt_magicWritten (h : Memory.wf StkEntry.zero s.stk = true) (i : Nat) :
    s.magicWritten.stkAt i = if i = 0 then StkEntry.start s.root else s.stkAt i :=
  stkAt_setStk (s := s.writeMagic) h 0 i _

theorem exec_phaseWrMagic (hcap : 0 < s.cfg.stackCap) : exec .phaseWrMagic s = .next s.magicWritten := by
  show execPhaseWrMagic s = _
  rw [execPhaseWrMagic, putStk_of_lt (s := s.writeMagic) hcap]
  rfl

/-- Settles O37: the magic is written and the stack holds the root alone. -/
theorem wrMagicStep : Obligations.WrMagicStep := by
  intro s hinv ho
  obtain ⟨hout, hframe⟩ := writeMagic_writes ho
  have hstk := stkAt_magicWritten hinv.memories.stkWf
  refine ⟨_, exec_phaseWrMagic hinv.stackCap_pos, congrArg OutChan.bits hout, (congrArg OutChan.closed hout).trans ho,
    ?_, fun i hi => ?_, rfl, rfl,
    congrArg (fun u : State => { u with stk := s.stk, sp := s.sp, phase := s.phase }) hframe⟩
  · rw [hstk, if_pos rfl, StkEntry.start]
  · rw [hstk, if_neg hi]

/-! ### `REWIND` -/

/-- Settles O39: the step is `IN.reset()` and the change of phase. -/
theorem rewindStep : Obligations.RewindStep := fun s => ⟨{ s.resetIn with phase := .encode }, rfl, rfl, rfl, rfl⟩

/-! ### `emit(c)`, `ENCODE` and `WR_EOF` -/

/-- Settles O41: bits and log are those of the code, and an empty code has none. -/
theorem emitWritesOneBitPerTransaction : Obligations.EmitWritesOneBitPerTransaction := by
  intro s c ho
  refine ⟨emit_open c ho, ?_, fun hlen => ?_, emit_frame c ho⟩
  · rw [stream_eq]
    exact (emitBits_log c.val c.len.toNat ho).1
  · rw [emit, hlen]; rfl

theorem exec_phaseEncode_byte {r : Byte} (h : s.Offers r) (hc : (s.codeAt r.toNat).valid = true) :
    exec .phaseEncode s = .next ((s.afterRead 8).emit (s.codeAt r.toNat)) := by
  show execPhaseEncode s = _
  simp only [execPhaseEncode, h.peek (by decide), BitVec.toNat_setWidth_of_le (show 8 ≤ 32 by decide), if_pos hc]

theorem exec_phaseEncode_noCode {r : Byte} (h : s.Offers r) (hc : (s.codeAt r.toNat).valid = false) :
    exec .phaseEncode s = .next ((s.afterRead 8).raise .noCode) := by
  show execPhaseEncode s = _
  simp only [execPhaseEncode, h.peek (by decide), BitVec.toNat_setWidth_of_le (show 8 ≤ 32 by decide),
    if_neg (Bool.eq_false_iff.mp hc)]

theorem exec_phaseEncode_end (h : s.Exhausted 8) :
    exec .phaseEncode s = .next { s.afterRead 8 with phase := .wrEof } := by
  show execPhaseEncode s = _
  simp only [execPhaseEncode, h.peek]

/-- Settles O40, by what the read finds: a byte with a code, a byte without one, the end of the input. -/
theorem encodeStep : Obligations.EncodeStep := by
  intro s ho
  refine ⟨fun r hr hc => ?byte, fun r hr hc => ?noCode, fun he => ?theEnd⟩
  case byte =>
    obtain ⟨hout, hframe⟩ := emit_writes (s := s.afterRead 8) ho (s.codeAt r.toNat)
    refine ⟨_, exec_phaseEncode_byte hr hc, congrArg OutChan.bits hout, (congrArg OutChan.closed hout).trans ho,
      (emit_inp _ _).trans (hr.inAfter (by decide)), ?_⟩
    exact congrArg (fun u : State => { u with inp := s.inp, chanLog := s.chanLog }) hframe
  case noCode => exact ⟨_, exec_phaseEncode_noCode hr hc, rfl, rfl, hr.inAfter (by decide), rfl⟩
  case theEnd => exact ⟨_, exec_phaseEncode_end he, rfl, he.inAfter, rfl⟩

/-- Settles O42: the step is one `emit` and the change of phase. -/
theorem wrEofStep : Obligations.WrEofStep := by
  intro s ho
  obtain ⟨hout, hframe⟩ := emit_writes ho (s.codeAt 256)
  exact ⟨{ s.emit (s.codeAt 256) with phase := .close }, rfl, congrArg OutChan.bits hout,
    (congrArg OutChan.closed hout).trans ho, rfl, congrArg (fun u : State => { u with phase := s.phase }) hframe⟩

/-! ### `CLOSE` -/

/-- Settles O43: the step is `OUT.close()` and the change of phase, of which the flags are functions. -/
theorem closeStep : Obligations.CloseStep := fun s ho =>
  ⟨{ s.closeOut with phase := .done }, rfl, closeOut_open ho, rfl, rfl, rfl,
    congrArg (fun u : State => { u with phase := s.phase }) (closeOut_frame ho)⟩

end Sys2Proof.Machine
end

section
/-! `build(F)` on its lists of items (R130 to R132): the leaves inserted, the minima removed, the leaves of the tree. -/

namespace Sys2Proof.Machine.Contract

variable {c : Config} {freq : Nat → Nat}

/-! ### The leaves inserted -/

/-- The symbols of a list that get a leaf: those of non-zero count (R132). -/
def present (freq : Nat → Nat) (symbols : List Nat) : List Nat := symbols.filter fun i => decide (freq i ≠ 0)

theorem leafItems_cons_zero {i : Nat} (h : freq i = 0) (j : Nat) (l : List Nat) :
    leafItems c freq j (i :: l) = leafItems c freq j l := if_pos h

theorem leafItems_cons_ne {i : Nat} (h : freq i ≠ 0) (j : Nat) (l : List Nat) :
    leafItems c freq j (i :: l) = leafItem c freq j i :: leafItems c freq (j + 1) l := if_neg h

theorem present_cons_zero {i : Nat} (h : freq i = 0) (l : List Nat) : present freq (i :: l) = present freq l := by
  simp [present, h]

theorem present_cons_ne {i : Nat} (h : freq i ≠ 0) (l : List Nat) : present freq (i :: l) = i :: present freq l := by
  simp [present, h]

/-- What an item holds besides its index is a function of its symbol. -/
theorem map_leafItems {β : Type} {f : Item → β} {g : Nat → β} (hf : ∀ j i, f (leafItem c freq j i) = g i) (j : Nat)
    (l : List Nat) : (leafItems c freq j l).map f = (present freq l).map g := by
  induction l generalizing j with
  | nil => rfl
  | cons i l ih =>
    by_cases h : freq i = 0
    · rw [leafItems_cons_zero h, present_cons_zero h, ih]
    · rw [leafItems_cons_ne h, present_cons_ne h, List.map_cons, List.map_cons, hf, ih]

theorem leafItems_length (j : Nat) (l : List Nat) : (leafItems c freq j l).length = (present freq l).length := by
  have h := congrArg List.length (map_leafItems (c := c) (freq := freq) (f := fun _ => ()) (fun _ _ => rfl) j l)
  rwa [List.length_map, List.length_map] at h

/-- One symbol more is one insertion more, after those before it. -/
theorem leafItems_concat (j : Nat) (l : List Nat) (i : Nat) :
    leafItems c freq j (l ++ [i])
      = leafItems c freq j l ++ leafItems c freq (j + (leafItems c freq j l).length) [i] := by
  induction l generalizing j with
  | nil => rfl
  | cons x l ih =>
    by_cases h : freq x = 0
    · rw [List.cons_append, leafItems_cons_zero h, leafItems_cons_zero h, ih]
    · rw [List.cons_append, leafItems_cons_ne h, leafItems_cons_ne h, ih, List.cons_append, List.length_cons,
        Nat.add_assoc j 1, Nat.add_comm 1]

/-! ### The minima removed -/

section

variable {a m : Item} {items rest : List Item}

theorem removeMin_cons_none (h : removeMin c items = none) : removeMin c (a :: items) = some (a, []) := by
  rw [removeMin, h]

theorem removeMin_cons_some (h : removeMin c items = some (m, rest)) :
    removeMin c (a :: items) = if a.before c m then some (a, m :: rest) else some (m, a :: rest) := by
  rw [removeMin, h]

theorem removeMin_eq_none : removeMin c items = none ↔ items = [] := by
  cases items with
  | nil => simp [removeMin]
  | cons a items =>
    refine iff_of_false (fun h => ?_) (List.cons_ne_nil a items)
    cases hm : removeMin c items with
    | none => rw [removeMin_cons_none hm] at h; cases h
    | some r => rw [removeMin_cons_some hm] at h; split at h <;> cases h

theorem exists_removeMin (h : items ≠ []) : ∃ m rest, removeMin c items = some (m, rest) := by
  cases hm : removeMin c items with
  | none => exact absurd (removeMin_eq_none.mp hm) h
  | some r => exact ⟨r.1, r.2, rfl⟩

/-- Removing the minimum loses no item. -/
theorem removeMin_perm (h : removeMin c items = some (m, rest)) : items.Perm (m :: rest) := by
  induction items generalizing m rest with
  | nil => cases h
  | cons a items ih =>
    cases hm : removeMin c items with
    | none =>
      rw [removeMin_cons_none hm] at h
      cases h
      rw [removeMin_eq_none.mp hm]
    | some r =>
      rw [removeMin_cons_some hm] at h
      split at h <;> cases h
      · exact (ih hm).cons a
      · exact ((ih hm).cons a).trans (.swap ..)

end

/-! ### The merges -/

section

variable {a b : Item} {items rest rest' : List Item} {fuel next : Nat}

theorem mergeAll_last (ha : removeMin c items = some (a, [])) : mergeAll c (fuel + 1) next items = some a.tree := by
  simp only [mergeAll, ha, removeMin]

theorem mergeAll_merge (ha : removeMin c items = some (a, rest)) (hb : removeMin c rest = some (b, rest')) :
    mergeAll c (fuel + 1) next items = mergeAll c fuel (next + 1) (rest' ++ [mergedItem next a b]) := by
  simp only [mergeAll, ha, hb]

/-- The two items that a merge removes, and the rest. -/
theorem perm_of_merge (ha : removeMin c items = some (a, rest)) (hb : removeMin c rest = some (b, rest')) :
    items.Perm (a :: b :: rest') :=
  (removeMin_perm ha).trans ((removeMin_perm hb).cons a)

/-- The leaves of the items' trees. -/
def leavesOf (items : List Item) : List Sym := items.flatMap fun a => a.tree.leaves

/-- The sum of the items' weights. -/
def weightOf (items : List Item) : Nat := (items.map Item.weight).sum

theorem weightOf_perm (h : items.Perm rest) : weightOf items = weightOf rest := (h.map Item.weight).sum_eq

/-- A merge keeps the leaves. -/
theorem leavesOf_merged (ha : removeMin c items = some (a, rest)) (hb : removeMin c rest = some (b, rest')) :
    (leavesOf (rest' ++ [mergedItem next a b])).Perm (leavesOf items) := by
  have hnew : leavesOf (rest' ++ [mergedItem next a b]) = leavesOf rest' ++ (a.tree.leaves ++ b.tree.leaves) := by
    simp [leavesOf, mergedItem, Tree.leaves]
  have hold : leavesOf (a :: b :: rest') = (a.tree.leaves ++ b.tree.leaves) ++ leavesOf rest' := by
    simp [leavesOf]
  rw [hnew]
  exact (List.perm_append_comm.trans (.of_eq hold.symm)).trans ((perm_of_merge ha hb).symm.flatMap_right _)

/-- A merge keeps the sum of the weights. -/
theorem weightOf_merged (ha : removeMin c items = some (a, rest)) (hb : removeMin c rest = some (b, rest')) :
    weightOf (rest' ++ [mergedItem next a b]) = weightOf items := by
  rw [weightOf_perm (perm_of_merge ha hb)]
  simp only [weightOf, mergedItem, List.map_append, List.map_cons, List.map_nil, List.sum_append, List.sum_cons,
    List.sum_nil]
  omega

/-- A merge leaves one item less. -/
theorem length_merged (ha : removeMin c items = some (a, rest)) (hb : removeMin c rest = some (b, rest')) :
    (rest' ++ [mergedItem next a b]).length + 1 = items.length := by
  rw [(perm_of_merge ha hb).length_eq, List.length_append]; rfl

/-- The leaves of the tree built are those of the items (R130). -/
theorem mergeAll_leaves {t : Sys2Proof.Tree} (h : mergeAll c fuel next items = some t) : t.leaves.Perm (leavesOf items) := by
  induction fuel generalizing next items with
  | zero => cases h
  | succ fuel ih =>
    cases ha : removeMin c items with
    | none => rw [mergeAll, ha] at h; cases h
    | some r =>
      obtain ⟨a, rest⟩ := r
      cases hb : removeMin c rest with
      | none =>
        obtain rfl := removeMin_eq_none.mp hb
        rw [mergeAll_last ha] at h
        cases h
        refine .trans ?_ ((removeMin_perm ha).symm.flatMap_right _)
        simp
      | some r' =>
        obtain ⟨b, rest'⟩ := r'
        rw [mergeAll_merge ha hb] at h
        exact (ih h).trans (leavesOf_merged ha hb)

end

/-! ### The leaves of the tree built -/

/-- The leaves of the tree built are the symbols of non-zero count, each once (R130, R132). -/
theorem build_leaves {t : Sys2Proof.Tree} (h : build c freq = some t) :
    t.leaves.Perm ((present freq (List.range Config.nsyms)).map (BitVec.ofNat 9)) := by
  refine (mergeAll_leaves h).trans (.of_eq ?_)
  have hmap := map_leafItems (c := c) (freq := freq) (f := fun a => a.tree.leaves) (g := fun i => [BitVec.ofNat 9 i])
    (fun _ _ => rfl) 0 (List.range Config.nsyms)
  rw [leavesOf, List.flatMap, hmap]
  exact List.map_eq_flatMap.symm

variable {t : Sys2Proof.Tree}

theorem build_leaves_length (h : build c freq = some t) :
    t.leaves.length = (present freq (List.range Config.nsyms)).length := by
  rw [(build_leaves h).length_eq, List.length_map]

theorem mem_build_leaves (h : build c freq = some t) {v : Sym} :
    v ∈ t.leaves ↔ v.toNat < Config.nsyms ∧ freq v.toNat ≠ 0 := by
  rw [(build_leaves h).mem_iff, List.mem_map]
  simp only [present, List.mem_filter, List.mem_range, decide_eq_true_eq]
  constructor
  · rintro ⟨i, ⟨hi, hf⟩, rfl⟩
    rw [BitVec.toNat_ofNat, Nat.mod_eq_of_lt (hi.trans (by decide))]
    exact ⟨hi, hf⟩
  · exact fun hv => ⟨v.toNat, hv, BitVec.ofNat_toNat 9 v ▸ by simp⟩

theorem build_leaves_nodup (h : build c freq = some t) : t.leaves.Nodup := by
  refine (build_leaves h).nodup_iff.mpr (List.Nodup.map_on (fun i hi j hj e => ?_) (List.nodup_range.filter _))
  have hlt : ∀ k ∈ present freq (List.range Config.nsyms), k < 512 := fun k hk =>
    (List.mem_range.mp (List.mem_of_mem_filter hk)).trans (by decide)
  have e' := congrArg BitVec.toNat e
  rwa [BitVec.toNat_ofNat, BitVec.toNat_ofNat, Nat.mod_eq_of_lt (hlt i hi), Nat.mod_eq_of_lt (hlt j hj)] at e'

end Sys2Proof.Machine.Contract
end

section
/-! The sum of `count(S)` (R120): the length of the input and the pseudo-EOF's 1. -/

namespace Sys2Proof.Machine

open Contract

/-- Every byte occurs as one of the 256 literals. -/
theorem sum_occurrences (l : List Byte) : ∑ i ∈ Finset.range 256, occurrences l i = l.length := by
  have hcount : ∀ i, occurrences l i = Multiset.count i (l.map BitVec.toNat : Multiset Nat) := fun i => by
    rw [Multiset.coe_count, List.count, List.countP_map]
    rfl
  have hrange : ∀ i ∈ (l.map BitVec.toNat : Multiset Nat), i ∈ Finset.range 256 := by
    intro i hi
    obtain ⟨b, -, rfl⟩ := List.mem_map.mp (Multiset.mem_coe.mp hi)
    exact Finset.mem_range.mpr b.isLt
  rw [Finset.sum_congr rfl fun i _ => hcount i, Multiset.sum_count_eq_card hrange, Multiset.coe_card, List.length_map]

/-- The symbols without a count add nothing. -/
theorem sum_map_present (freq : Nat → Nat) (l : List Nat) : ((present freq l).map freq).sum = (l.map freq).sum := by
  induction l with
  | nil => rfl
  | cons i l ih =>
    by_cases h : freq i = 0
    · rw [present_cons_zero h, ih, List.map_cons, List.sum_cons, h, Nat.zero_add]
    · rw [present_cons_ne h, List.map_cons, List.map_cons, List.sum_cons, List.sum_cons, ih]

/-- The weights of the leaves of `S` sum to `N + 1` (R138). -/
theorem weightOf_leafItems_count (c : Config) (input : List Byte) :
    weightOf (leafItems c (count input) 0 (List.range Config.nsyms)) = input.length + 1 := by
  rw [weightOf, map_leafItems (g := count input) (fun _ _ => rfl), sum_map_present]
  calc ((List.range 257).map (count input)).sum
    _ = ∑ i ∈ Finset.range 257, count input i := rfl
    _ = ∑ i ∈ Finset.range 256, occurrences input i + 1 := by
      rw [Finset.sum_range_succ, count_eq, if_pos rfl]
      refine congrArg (· + 1) (Finset.sum_congr rfl fun i hi => ?_)
      rw [count_eq, if_neg (Finset.mem_range.mp hi).ne]
    _ = input.length + 1 := by rw [sum_occurrences]

end Sys2Proof.Machine
end

section
/-! The items of `build(F)` in the node memory: what a live node holds, and the priority structure as a whole (R32,
R134 to R139). -/

namespace Sys2Proof.Machine

open Contract

namespace State

variable {s t : State} {a b x : Item} {items rest : List Item}

/-- What a node holds does not change when nodes are added after it. -/
theorem treeAt_content_extend (hnode : ∀ i, i < s.nnodes → t.nodeAt i = s.nodeAt i) (hnn : s.nnodes ≤ t.nnodes)
    {fuel i : Nat} {d : Sys2Proof.Tree} (h : s.treeAt fuel i = some d) :
    t.treeAt fuel i = some d ∧ t.content fuel i = s.content fuel i := by
  induction fuel generalizing i d with
  | zero => cases h
  | succ fuel ih =>
    have hi : i < s.nnodes := treeAt_lt h
    have hn := hnode i hi
    obtain ⟨hl, rfl⟩ | ⟨hl, l, r, rfl, hleft, hright⟩ := treeAt_succ h
    · simp only [treeAt, content, hn, hl, if_true, if_pos (hi.trans_le hnn), and_self]
    · obtain ⟨htl, hcl⟩ := ih hleft
      obtain ⟨htr, hcr⟩ := ih hright
      simp only [treeAt, content, hn, hl, if_pos (hi.trans_le hnn), htl, htr, hcl, hcr, and_self, Bool.false_eq_true,
        if_false]

/-- Node `a.index` is the root of the item's tree, with its weight and its content. -/
structure Holds (s : State) (a : Item) : Prop where
  weight : (s.nodeAt a.index).weight = a.weight
  tree : ∀ fuel, a.index < fuel → s.treeAt fuel a.index = some a.tree
  content : ∀ fuel, a.index < fuel → s.content fuel a.index = a.content

namespace Holds

theorem index_lt (h : s.Holds a) : a.index < s.nnodes := treeAt_lt (h.tree _ a.index.lt_succ_self)

theorem extend (h : s.Holds a) (hnode : ∀ i, i < s.nnodes → t.nodeAt i = s.nodeAt i) (hnn : s.nnodes ≤ t.nnodes) :
    t.Holds a where
  weight := by rw [hnode _ h.index_lt, h.weight]
  tree fuel hf := (treeAt_content_extend hnode hnn (h.tree fuel hf)).1
  content fuel hf := ((treeAt_content_extend hnode hnn (h.tree fuel hf)).2).trans (h.content fuel hf)

/-- The item of a leaf (R132). -/
theorem leafItem {freq : Nat → Nat} {j i : Nat} (hj : j < s.nnodes)
    (hn : s.nodeAt j = { leaf := true, sym := BitVec.ofNat 9 i, weight := freq i, left := s.cfg.nil,
                         right := s.cfg.nil }) : s.Holds (leafItem s.cfg freq j i) where
  weight := congrArg NodeEntry.weight hn
  tree fuel hf := by
    obtain ⟨fuel, rfl⟩ := Nat.exists_eq_add_of_lt hf
    show s.treeAt (j + fuel + 1) j = _
    simp only [treeAt, hn, if_pos hj, if_true]
    rfl
  content fuel hf := by
    obtain ⟨fuel, rfl⟩ := Nat.exists_eq_add_of_lt hf
    show s.content (j + fuel + 1) j = _
    simp only [State.content, hn, if_true]
    rfl

/-- The item of a merge (R135, R136). -/
theorem mergedItem {n : Nat} (ha : s.Holds a) (hb : s.Holds b) (han : a.index < n) (hbn : b.index < n) (hn : n < s.nnodes)
    (hnode : s.nodeAt n = { leaf := false, sym := 0, weight := a.weight + b.weight, left := a.index,
                            right := b.index }) : s.Holds (mergedItem n a b) where
  weight := congrArg NodeEntry.weight hnode
  tree fuel hf := by
    obtain ⟨fuel, rfl⟩ := Nat.exists_eq_add_of_lt hf
    show s.treeAt (n + fuel + 1) n = _
    simp only [treeAt, hnode, if_pos hn, ha.tree _ (han.trans_le (Nat.le_add_right n fuel)),
      hb.tree _ (hbn.trans_le (Nat.le_add_right n fuel)), Bool.false_eq_true, if_false]
    rfl
  content fuel hf := by
    obtain ⟨fuel, rfl⟩ := Nat.exists_eq_add_of_lt hf
    show s.content (n + fuel + 1) n = _
    simp only [State.content, hnode, ha.content _ (han.trans_le (Nat.le_add_right n fuel)),
      hb.content _ (hbn.trans_le (Nat.le_add_right n fuel)), Bool.false_eq_true, if_false]
    rfl

/-- `TIE_ORDER` on nodes is `TIE_ORDER` on the items they hold (R131). -/
theorem before_eq (ha : s.Holds a) (hb : s.Holds b) : s.before a.index b.index = a.before s.cfg b := by
  simp only [before, Item.before, tieKeyAt, Item.tieKey, ha.weight, hb.weight, ha.content _ a.index.lt_succ_self,
    hb.content _ b.index.lt_succ_self]
  rfl

end Holds

/-- The minimum removed comes before all that is left (R134). -/
theorem before_of_removeMin {m : Item} (hholds : ∀ a ∈ items, s.Holds a) (hnodup : (items.map Item.index).Nodup)
    (h : removeMin s.cfg items = some (m, rest)) (hx : x ∈ rest) : s.before m.index x.index = true := by
  induction items generalizing m rest x with
  | nil => cases h
  | cons a items ih =>
    have ha := hholds a List.mem_cons_self
    have hitems := fun b hb => hholds b (List.mem_cons_of_mem a hb)
    obtain ⟨hnotin, hnodup⟩ := List.nodup_cons.mp hnodup
    cases hm : removeMin s.cfg items with
    | none =>
      rw [removeMin_cons_none hm] at h
      cases h; cases hx
    | some r =>
      obtain ⟨j, rest'⟩ := r
      have hj : j ∈ items := (removeMin_perm hm).mem_iff.mpr List.mem_cons_self
      have hne : a.index ≠ j.index := fun e => hnotin (e ▸ List.mem_map_of_mem hj)
      rw [removeMin_cons_some hm, ← ha.before_eq (hitems j hj)] at h
      split at h <;> cases h
      next hfirst =>
        obtain rfl | hx := List.mem_cons.mp hx
        · exact hfirst
        · exact before_trans hfirst (ih hitems hnodup hm hx)
      next hlater =>
        obtain rfl | hx := List.mem_cons.mp hx
        · exact (before_iff_not_before hne.symm).mpr (Bool.eq_false_iff.mpr hlater)
        · exact ih hitems hnodup hm hx

/-- The live nodes are those of the items (R32). -/
structure Queued (s : State) (items : List Item) : Prop where
  live : ∀ i, s.liveAt i = true ↔ i ∈ items.map Item.index
  nodup : (items.map Item.index).Nodup
  holds : ∀ a ∈ items, s.Holds a

namespace Queued

theorem index_lt (h : s.Queued items) {i : Nat} (hi : i ∈ items.map Item.index) : i < s.nnodes := by
  obtain ⟨a, ha, rfl⟩ := List.mem_map.mp hi
  exact (h.holds a ha).index_lt

theorem perm (h : s.Queued items) (hp : items.Perm rest) : s.Queued rest where
  live i := (h.live i).trans (hp.map Item.index).mem_iff
  nodup := (hp.map Item.index).nodup_iff.mp h.nodup
  holds a ha := h.holds a (hp.mem_iff.mpr ha)

/-- Items in other states of the same memory. -/
theorem congr (h : s.Queued items) (hnode : t.node = s.node) (hlive : t.live = s.live) (hnn : t.nnodes = s.nnodes) :
    t.Queued items where
  live i := (Iff.of_eq (congrArg (Memory.read false · i = true) hlive)).trans (h.live i)
  nodup := h.nodup
  holds a ha := (h.holds a ha).extend (fun i _ => congrArg (Memory.read NodeEntry.zero · i) hnode) hnn.ge

/-- Some items leave the priority structure and the new node joins it. -/
theorem replace {removed : List Item} (h : s.Queued (removed ++ rest)) (hx : t.Holds x) (hindex : x.index = s.nnodes)
    (hnode : ∀ i, i < s.nnodes → t.nodeAt i = s.nodeAt i) (hnn : s.nnodes ≤ t.nnodes)
    (hlive : ∀ i, t.liveAt i = true ↔ i = s.nnodes ∨ (s.liveAt i = true ∧ i ∉ removed.map Item.index)) :
    t.Queued (rest ++ [x]) := by
  have hnodup := h.nodup
  rw [List.map_append] at hnodup
  obtain ⟨-, hrest, hdisj⟩ := List.nodup_append'.mp hnodup
  refine ⟨fun i => ?_, ?_, fun a ha => ?_⟩
  · rw [hlive, h.live, List.map_append, List.map_append, List.mem_append, List.mem_append, List.map_singleton,
      List.mem_singleton, hindex, or_comm]
    refine or_congr_left ⟨fun ⟨hi, hn⟩ => hi.resolve_left hn, fun hi => ⟨.inr hi, fun hr => hdisj hr hi⟩⟩
  · rw [List.map_append, List.map_singleton, hindex]
    refine List.nodup_append'.mpr ⟨hrest, List.nodup_singleton _, fun i hi hn => ?_⟩
    obtain rfl := List.mem_singleton.mp hn
    exact lt_irrefl _ (h.index_lt (by rw [List.map_append]; exact List.mem_append_right _ hi))
  · obtain ha | ha := List.mem_append.mp ha
    · exact (h.holds a (List.mem_append_right _ ha)).extend hnode hnn
    · rwa [List.mem_singleton.mp ha]

end Queued

end State

end Sys2Proof.Machine
end

section
/-! Runs of the sequencer alone. -/

namespace Sys2Proof.Machine.State

variable {c : Config} {m n : Nat} {s t u : State}

/-- A state of configuration `c` that meets the invariant and in which no host access is waiting. -/
structure Undisturbed (s : State) (c : Config) : Prop where
  inv : s.Inv
  cfg : s.cfg = c
  pending : s.pending = []

/-- The sequencer alone takes `n` steps from `s` to `t`. -/
structure Runs (c : Config) (n : Nat) (s t : State) : Prop where
  run : runSteps n s = .next t
  undisturbed : t.Undisturbed c

/-- A phase's step is a run of one step. -/
theorem Undisturbed.runs_one (h : s.Undisturbed c) {p : Phase} (hs : s.phase = p)
    (hx : exec (phaseInstr p) s = .next t) : Runs c 1 s t := by
  subst hs
  have hstep : step s = .next t := (step_idleHost h.pending).trans hx
  have hkept := Phase.Permits.exec_phase hx
  exact ⟨runSteps_of_step hstep 0, stepKeepsInvariant s t h.inv hstep, hkept.cfg.trans h.cfg,
    hkept.pending.trans h.pending⟩

namespace Runs

theorem refl (h : s.Undisturbed c) : Runs c 0 s s := ⟨rfl, h⟩

theorem trans (h : Runs c m s u) (h' : Runs c n u t) : Runs c (m + n) s t :=
  ⟨(runSteps_add h.run n).trans h'.run, h'.undisturbed⟩

/-- A run of one step is a step. -/
theorem step (h : Runs c 1 s t) : Machine.step s = .next t := by
  obtain ⟨u, hs, hu⟩ := exists_step_of_runSteps h.run
  cases hu
  exact hs

end Runs

/-- The node memory holds a tree of 257 leaves (R7). -/
theorem Inv.nodeCap_ge (h : s.Inv) : 513 ≤ s.cfg.nodeCap := by
  obtain ⟨-, hcap⟩ := Bool.and_eq_true_iff.mp h.config
  exact of_decide_eq_true hcap

end Sys2Proof.Machine.State
end

section
/-! The phase `BUILD_INIT` over the whole alphabet (R132, R133). -/

namespace Sys2Proof.Machine

open Contract

namespace State

variable {c : Config} {k : Nat} {s t u : State}

/-- `t` with all that `BUILD_INIT` writes put back to what it is in `s`. -/
def insertFrame (s t : State) : State :=
  { t with node := s.node, live := s.live, nnodes := s.nnodes, scan := s.scan, phase := s.phase }

/-- The leaves of the symbols below `k`, in order of insertion. -/
def leavesBelow (s : State) (k : Nat) : List Item := leafItems s.cfg s.freqAt 0 (List.range k)

/-- `t` is `s` after `BUILD_INIT` examined the symbols below `k`. -/
structure Inserted (s t : State) (k : Nat) : Prop where
  queued : t.Queued (s.leavesBelow k)
  nnodes : t.nnodes = (s.leavesBelow k).length
  scan : k ≤ 256 → t.scan = BitVec.ofNat 9 k
  phase : t.phase = if k ≤ 256 then .buildInit else .buildMerge
  frame : s.insertFrame t = s

/-- A leaf of the symbol examined joins the priority structure (R133). -/
theorem Queued.insertLeaf {items : List Item} (h : u.Queued items) (hinv : u.Inv) (hcap : u.nnodes < u.cfg.nodeCap) :
    (u.setNode u.nnodes u.builtLeaf).insertNode.Queued
      (items ++ [leafItem u.cfg u.freqAt u.nnodes u.scan.toNat]) := by
  have hnn := insertNode_nnodes_of_lt (s := u.setNode u.nnodes u.builtLeaf) hcap
  have hnode := nodeAt_setNode hinv.memories.nodeWf u.nnodes
  have hlive := liveAt_insertNode (s := u.setNode u.nnodes u.builtLeaf) hinv.memories.liveWf
  refine Queued.replace (removed := []) h ?_ rfl (fun i hi => (hnode i _).trans (if_neg hi.ne))
    (hnn ▸ Nat.le_succ _) fun i => ?_
  · refine Holds.leafItem (hnn ▸ Nat.lt_succ_self _) ((hnode u.nnodes _).trans ((if_pos rfl).trans ?_))
    rw [BitVec.ofNat_toNat, BitVec.setWidth_eq]
    rfl
  · rw [hlive]
    show (if i = u.nnodes then true else u.liveAt i) = true ↔ _
    by_cases hi : i = u.nnodes <;> simp [hi]

namespace Inserted

theorem start (hlive : s.live = []) (hnn : s.nnodes = 0) (hscan : s.scan = 0) (hs : s.phase = .buildInit) :
    s.Inserted s 0 where
  queued := ⟨fun i => by simp [liveAt, hlive, leavesBelow, leafItems], List.nodup_nil, fun _ ha => nomatch ha⟩
  nnodes := hnn
  scan _ := hscan
  phase := hs
  frame := rfl

theorem cfg (h : s.Inserted u k) : u.cfg = s.cfg := (congrArg State.cfg h.frame :)

theorem freqAt (h : s.Inserted u k) (i : Nat) : u.freqAt i = s.freqAt i := (congrArg (State.freqAt · i) h.frame :)

theorem scan_toNat (h : s.Inserted u k) (hk : k ≤ 256) : u.scan.toNat = k := by
  rw [h.scan hk, BitVec.toNat_ofNat]
  omega

theorem nnodes_le (h : s.Inserted u k) : u.nnodes ≤ k := by
  rw [h.nnodes, leavesBelow, leafItems_length]
  exact (List.length_filter_le _ _).trans_eq List.length_range

theorem leavesBelow_succ (h : s.Inserted u k) :
    s.leavesBelow (k + 1) = s.leavesBelow k ++ leafItems s.cfg s.freqAt u.nnodes [k] := by
  rw [leavesBelow, List.range_succ, leafItems_concat, Nat.zero_add, h.nnodes]
  rfl

/-- The node of symbol `k`, if it gets one, before the step ends with the next symbol. -/
theorem exists_inserted (h : s.Inserted u k) (hu : u.Inv) (hk : k ≤ 256) :
    ∃ v, exec .phaseBuildInit u = .next v.nextSymbol ∧ v.Queued (s.leavesBelow (k + 1)) ∧
      v.nnodes = (s.leavesBelow (k + 1)).length ∧ v.scan = u.scan ∧ v.phase = u.phase ∧ s.insertFrame v = s := by
  have hscan := h.scan_toNat hk
  have hf : u.freqAt u.scan.toNat = s.freqAt k := by rw [hscan, h.freqAt]
  by_cases hzero : s.freqAt k = 0
  · have hsame : s.leavesBelow (k + 1) = s.leavesBelow k := by
      rw [h.leavesBelow_succ, leafItems_cons_zero hzero]
      exact List.append_nil _
    rw [hsame]
    exact ⟨u, exec_phaseBuildInit_noLeaf hu.widths.scan (hf.trans hzero), h.queued, h.nnodes, rfl, rfl, h.frame⟩
  · have hcap : u.nnodes < u.cfg.nodeCap := by
      have := h.nnodes_le
      have := hu.nodeCap_ge
      omega
    have hsucc : s.leavesBelow (k + 1) = s.leavesBelow k ++ [leafItem u.cfg u.freqAt u.nnodes u.scan.toNat] := by
      rw [h.leavesBelow_succ, leafItems_cons_ne hzero, hscan, h.cfg, funext h.freqAt]
      rfl
    rw [hsucc]
    refine ⟨_, exec_phaseBuildInit_leaf hu.widths.scan (fun e => hzero (hf.symm.trans e)) hcap,
      h.queued.insertLeaf hu hcap, ?_, rfl, rfl, h.frame⟩
    rw [insertNode_nnodes_of_lt (s := u.setNode u.nnodes u.builtLeaf) hcap, List.length_append, ← h.nnodes]
    rfl

/-- One step examines one symbol more. -/
theorem step (h : s.Inserted u k) (hu : u.Undisturbed c) (hk : k ≤ 256) :
    ∃ t, Runs c 1 u t ∧ s.Inserted t (k + 1) := by
  obtain ⟨v, hx, hqueued, hnn, hscan, hphase, hframe⟩ := h.exists_inserted hu.inv hk
  have hend : u.scan = eofSym ↔ k = 256 := by
    rw [← BitVec.toNat_inj, h.scan_toNat hk]
    rfl
  have hnext := nextSymbol_frame v
  refine ⟨_, hu.runs_one (h.phase.trans (if_pos hk)) hx, ?_, (nextSymbol_nnodes v).trans hnn, fun hk1 => ?_, ?_,
    (congrArg s.insertFrame hnext).trans hframe⟩
  · exact hqueued.congr (congrArg State.node hnext :) (congrArg State.live hnext :) (nextSymbol_nnodes v)
  · rw [nextSymbol_scan, hscan, if_neg (mt hend.mp (by omega)), h.scan hk]
    exact BitVec.eq_of_toNat_eq (by simp)
  · rw [nextSymbol_phase, hscan, hphase, h.phase, if_pos hk]
    by_cases he : k = 256
    · rw [if_pos (hend.mpr he), if_neg (by omega)]
    · rw [if_neg (mt hend.mp he), if_pos (by omega)]

end Inserted

/-- `BUILD_INIT` takes one step per symbol (R133). -/
theorem Undisturbed.runs_inserts (hs : s.Undisturbed c) (h : s.Inserted s 0) (hk : k ≤ 257) :
    ∃ t, Runs c k s t ∧ s.Inserted t k := by
  induction k with
  | zero => exact ⟨s, .refl hs, h⟩
  | succ k ih =>
    obtain ⟨u, hrun, hu⟩ := ih (by omega)
    obtain ⟨t, hstep, ht⟩ := hu.step hrun.undisturbed (by omega)
    exact ⟨t, hrun.trans hstep, ht⟩

end State

end Sys2Proof.Machine
end

section
/-! The phase `BUILD_MERGE` to the end of the tree (R130, R135 to R138). -/

namespace Sys2Proof.Machine

open Contract

namespace State

variable {c : Config} {s t u : State} {a b r : Item} {items rest rest' : List Item}

/-- `t` with all that `BUILD_MERGE` writes put back to what it is in `s`. -/
def mergeFrame (s t : State) : State :=
  { t with node := s.node, live := s.live, nnodes := s.nnodes, root := s.root, stk := s.stk, sp := s.sp,
           phase := s.phase }

/-- The two items that a merge removes are the first two in `TIE_ORDER` (R134, R135). -/
theorem Queued.twoMinima (h : s.Queued items) (ha : removeMin s.cfg items = some (a, rest))
    (hb : removeMin s.cfg rest = some (b, rest')) :
    s.Queued (a :: b :: rest') ∧ (∀ x ∈ b :: rest', s.before a.index x.index = true) ∧
      ∀ x ∈ rest', s.before b.index x.index = true := by
  have hrest := removeMin_perm hb
  have hfirst : s.Queued (a :: rest) := h.perm (removeMin_perm ha)
  refine ⟨h.perm (perm_of_merge ha hb), fun x hx => ?_, fun x hx => ?_⟩
  · exact before_of_removeMin h.holds h.nodup ha (hrest.mem_iff.mpr hx)
  · exact before_of_removeMin (fun y hy => hfirst.holds y (List.mem_cons_of_mem a hy))
      (List.nodup_cons.mp hfirst.nodup).2 hb hx

/-- Every live node but the first item's is one of the others. -/
theorem Queued.exists_of_live {j : Nat} (h : s.Queued (a :: rest)) (hj : s.liveAt j = true) (hne : j ≠ a.index) :
    ∃ x ∈ rest, x.index = j := by
  obtain ⟨x, hx, rfl⟩ := List.mem_map.mp ((h.live j).mp hj)
  obtain rfl | hx := List.mem_cons.mp hx
  · exact absurd rfl hne
  · exact ⟨x, hx, rfl⟩

/-- With two items or more the step merges the two minima (R135). -/
theorem Undisturbed.runs_merge (hs : s.Undisturbed c) (hp : s.phase = .buildMerge) (h : s.Queued items)
    (ha : removeMin c items = some (a, rest)) (hb : removeMin c rest = some (b, rest'))
    (hsum : weightOf items < 2 ^ c.cntW) (hcap : s.nnodes < c.nodeCap) :
    ∃ t, Runs c 1 s t ∧ t.Queued (rest' ++ [mergedItem s.nnodes a b]) ∧ t.nnodes = s.nnodes + 1 ∧
      t.phase = .buildMerge ∧ s.mergeFrame t = s := by
  obtain rfl := hs.cfg
  obtain ⟨hq, hfirst, hsecond⟩ := h.twoMinima ha hb
  have hholdsA := hq.holds a List.mem_cons_self
  have hholdsB := hq.holds b (List.mem_cons_of_mem a List.mem_cons_self)
  obtain ⟨hnotA, hnodup⟩ := List.nodup_cons.mp hq.nodup
  have hne : a.index ≠ b.index := fun e => hnotA (e ▸ List.mem_cons_self)
  have hweight : (s.nodeAt a.index).weight + (s.nodeAt b.index).weight < 2 ^ s.cfg.cntW := by
    refine lt_of_le_of_lt ?_ hsum
    rw [weightOf_perm (perm_of_merge ha hb), hholdsA.weight, hholdsB.weight]
    simp only [weightOf, List.map_cons, List.sum_cons]
    omega
  obtain ⟨t, hx, hnew, hold, hliveN, hliveA, hliveB, hlive, hnn, hframe⟩ := (buildMergeStep s hs.inv).2 a.index b.index
    ((hq.live _).mpr List.mem_cons_self) ((hq.live _).mpr (List.mem_cons_of_mem _ List.mem_cons_self)) hne
    (fun j hj hja => by
      obtain ⟨x, hx, rfl⟩ := hq.exists_of_live hj hja
      exact hfirst x hx)
    (fun j hj hja hjb => by
      obtain ⟨x, hx, rfl⟩ := hq.exists_of_live hj hja
      obtain rfl | hx := List.mem_cons.mp hx
      · exact absurd rfl hjb
      · exact hsecond x hx)
    hweight hcap
  have hkept : ∀ i, i < s.nnodes → t.nodeAt i = s.nodeAt i := fun i hi => hold i hi.ne
  have hle : s.nnodes ≤ t.nnodes := hnn ▸ s.nnodes.le_succ
  refine ⟨t, hs.runs_one hp hx, ?_, hnn, (congrArg State.phase hframe :).trans hp,
    (congrArg s.mergeFrame hframe :)⟩
  refine Queued.replace (removed := [a, b]) hq ?_ rfl hkept hle fun i => ?_
  · refine Holds.mergedItem (hholdsA.extend hkept hle) (hholdsB.extend hkept hle) hholdsA.index_lt hholdsB.index_lt
      (hnn ▸ s.nnodes.lt_succ_self) ?_
    rw [hnew, hholdsA.weight, hholdsB.weight]
  · by_cases hn : i = s.nnodes
    · simp [hn, hliveN]
    by_cases hia : i = a.index
    · rw [hia, hliveA hholdsA.index_lt.ne]
      simp [hholdsA.index_lt.ne]
    by_cases hib : i = b.index
    · rw [hib, hliveB hholdsB.index_lt.ne]
      simp [hholdsB.index_lt.ne]
    · rw [hlive i hn hia hib]
      simp [hn, hia, hib]

/-- The tree is finished: `d` stands at the root, and the root alone on the stack (R135). -/
structure Rooted (s : State) (d : Sys2Proof.Tree) : Prop where
  phase : s.phase = .derive
  tree : ∃ fuel, s.treeAt fuel s.root = some d
  sp : s.sp = 1
  top : s.stkAt 0 = StkEntry.start s.root

/-- With one item the step finishes the tree (R135). -/
theorem Undisturbed.runs_finish (hs : s.Undisturbed c) (hp : s.phase = .buildMerge) (h : s.Queued [r]) :
    ∃ t, Runs c 1 s t ∧ t.Rooted r.tree ∧ t.nnodes = s.nnodes ∧ s.mergeFrame t = s := by
  obtain ⟨t, hx, hroot, -, hstk, -, hsp, hphase, hframe⟩ := (buildMergeStep s hs.inv).1 r.index
    ((h.live _).mpr List.mem_cons_self)
    (fun i hi => Bool.eq_false_iff.mpr fun hlive => by
      obtain ⟨x, hx, -⟩ := h.exists_of_live hlive hi
      cases hx)
  have hnn : t.nnodes = s.nnodes := (congrArg State.nnodes hframe :)
  refine ⟨t, hs.runs_one hp hx, ⟨hphase, ⟨r.index + 1, ?_⟩, hsp, ?_⟩, hnn, (congrArg s.mergeFrame hframe :)⟩
  · rw [treeAt_congr (s := s) (t := t) (congrArg State.node hframe :) hnn, hroot]
    exact (h.holds r List.mem_cons_self).tree _ r.index.lt_succ_self
  · rw [hstk, hroot, StkEntry.start]

/-- `BUILD_MERGE` takes one step per item and grows the tree of `build(F)` (R130, R137). -/
theorem Undisturbed.runs_merges {fuel : Nat} (hs : s.Undisturbed c) (hp : s.phase = .buildMerge) (h : s.Queued items)
    (hne : items ≠ []) (hfuel : items.length ≤ fuel) (hsum : weightOf items < 2 ^ c.cntW)
    (hcap : s.nnodes + items.length ≤ c.nodeCap + 1) :
    ∃ t d, mergeAll c fuel s.nnodes items = some d ∧ Runs c items.length s t ∧
      t.Rooted d ∧ t.nnodes + 1 = s.nnodes + items.length ∧ s.mergeFrame t = s := by
  induction fuel generalizing s items with
  | zero => exact absurd (List.length_eq_zero_iff.mp (Nat.le_zero.mp hfuel)) hne
  | succ fuel ih =>
    obtain ⟨a, rest, ha⟩ := exists_removeMin (c := c) hne
    cases hb : removeMin c rest with
    | none =>
      obtain rfl := removeMin_eq_none.mp hb
      have hone := removeMin_perm ha
      obtain ⟨t, hrun, hrooted, hnn, hframe⟩ := hs.runs_finish hp (h.perm hone)
      rw [hone.length_eq]
      exact ⟨t, a.tree, mergeAll_last ha, hrun, hrooted, congrArg (· + 1) hnn, hframe⟩
    | some m =>
      obtain ⟨b, rest'⟩ := m
      have hlen := length_merged (next := s.nnodes) ha hb
      have htwo : 0 < (rest' ++ [mergedItem s.nnodes a b]).length := by simp
      obtain ⟨u, hstep, hq, hnn, hpu, hframe⟩ := hs.runs_merge hp h ha hb hsum (by omega)
      obtain ⟨t, d, hbuild, hrun, hrooted, hnodes, hkept⟩ := ih hstep.undisturbed hpu hq (by simp) (by omega)
        (by rwa [weightOf_merged ha hb]) (by omega)
      refine ⟨t, d, ?_, ?_, hrooted, by omega, (congrArg s.mergeFrame hkept :).trans hframe⟩
      · rw [mergeAll_merge ha hb, ← hnn, hbuild]
      · rw [← hlen, Nat.add_comm]
        exact hstep.trans hrun

end State

end Sys2Proof.Machine
end

section
/-! Paths in a tree (R96, R146): how long they are, and the table and stack entries that hold them (R33, R99). -/

namespace Sys2Proof

/-- A symbol with a path has a leaf. -/
theorem Tree.mem_leaves_of_path? {t : Sys2Proof.Tree} {v : Sym} {p : List Bool} (h : t.path? v = some p) :
    v ∈ t.leaves := by
  induction t generalizing p with
  | leaf s =>
    rw [Tree.path?] at h
    split at h
    · exact List.mem_singleton.mpr (Eq.symm ‹_›)
    · cases h
  | node l r ihl ihr =>
    rw [Tree.path?] at h
    split at h
    · exact List.mem_append_left _ (ihl ‹_›)
    · obtain ⟨q, hr, -⟩ := Option.map_eq_some_iff.mp h
      exact List.mem_append_right _ (ihr hr)

theorem Tree.leaves_length_pos (t : Sys2Proof.Tree) : 0 < t.leaves.length := by
  have := t.nodes_add_one
  omega

theorem Tree.nodes_pos (t : Sys2Proof.Tree) : 0 < t.nodes := by
  have := t.nodes_add_one
  have := t.leaves_length_pos
  omega

/-- A path has fewer edges than the tree has leaves (R146). -/
theorem Tree.path?_length_lt {t : Sys2Proof.Tree} {v : Sym} {p : List Bool} (h : t.path? v = some p) :
    p.length < t.leaves.length := by
  induction t generalizing p with
  | leaf s =>
    rw [Tree.path?] at h
    split at h <;> cases h
    exact Nat.one_pos
  | node l r ihl ihr =>
    have := l.leaves_length_pos
    have := r.leaves_length_pos
    rw [Tree.path?] at h
    rw [Tree.leaves, List.length_append]
    split at h
    · cases h
      have := ihl ‹_›
      rw [List.length_cons]
      omega
    · obtain ⟨q, hr, rfl⟩ := Option.map_eq_some_iff.mp h
      have := ihr hr
      rw [List.length_cons]
      omega

/-- One bit more at the end of a value. -/
theorem valMsb_concat (p : List Bool) (b : Bool) : valMsb (p ++ [b]) = 2 * valMsb p + b.toNat := by
  rw [valMsb, List.foldl_append]; rfl

end Sys2Proof

namespace Sys2Proof.Machine

/-- The entry of `CODE` that holds the path `p` (R33). -/
def CodeEntry.ofPath (p : List Bool) : CodeEntry :=
  { valid := true, len := BitVec.ofNat 9 p.length, val := BitVec.ofNat 256 (valMsb p) }

/-- The stack entry of node `i`, reached by the path `p` (R99). -/
def StkEntry.ofPath (i : Nat) (p : List Bool) : StkEntry :=
  { node := i, side := false, len := BitVec.ofNat 9 p.length, val := BitVec.ofNat 256 (valMsb p) }

theorem StkEntry.ofPath_nil (i : Nat) : StkEntry.ofPath i [] = StkEntry.start i := rfl

/-- A path that fits the entry is the code it holds (R33). -/
theorem CodeEntry.stream_ofPath {p : List Bool} (h : p.length ≤ 256) : (CodeEntry.ofPath p).stream = p := by
  have hval : valMsb p < 2 ^ 256 := (valMsb_lt p).trans_le (Nat.pow_le_pow_right (by decide) h)
  rw [stream_eq, ofPath, BitVec.toNat_ofNat, BitVec.toNat_ofNat, Nat.mod_eq_of_lt (h.trans_lt (by decide)),
    Nat.mod_eq_of_lt hval, bitsMsb_valMsb]

/-- The entry of the right child, one edge further (R148). -/
theorem StkEntry.ofPath_right (i : Nat) (p : List Bool) :
    StkEntry.ofPath i (p ++ [true]) = { node := i, side := false, len := BitVec.ofNat 9 p.length + 1,
                                        val := 2 * BitVec.ofNat 256 (valMsb p) + 1 } := by
  rw [ofPath, valMsb_concat, List.length_append, BitVec.ofNat_add, BitVec.ofNat_add, BitVec.ofNat_mul]
  rfl

/-- The entry of the left child, one edge further (R148). -/
theorem StkEntry.ofPath_left (i : Nat) (p : List Bool) :
    StkEntry.ofPath i (p ++ [false]) = { node := i, side := false, len := BitVec.ofNat 9 p.length + 1,
                                         val := 2 * BitVec.ofNat 256 (valMsb p) } := by
  rw [ofPath, valMsb_concat, List.length_append, BitVec.ofNat_add, Bool.toNat_false, Nat.add_zero, BitVec.ofNat_mul]
  rfl

end Sys2Proof.Machine
end

section
/-! The trees that wait on the stack in a traversal (R35, R145, R155). -/

namespace Sys2Proof.Machine.State

variable {s t : State} {d l r : Sys2Proof.Tree} {i j k fuel : Nat}

theorem treeAt_leaf {v : Sym} (hd : s.treeAt fuel i = some (.leaf v)) :
    (s.nodeAt i).leaf = true ∧ (s.nodeAt i).sym = v := by
  cases fuel with
  | zero => cases hd
  | succ fuel =>
    obtain ⟨hl, e⟩ | ⟨-, l, r, e, -⟩ := treeAt_succ hd <;> cases e
    exact ⟨hl, rfl⟩

theorem treeAt_node (hd : s.treeAt fuel i = some (.node l r)) :
    (s.nodeAt i).leaf = false ∧
      ∃ fuel, s.treeAt fuel (s.nodeAt i).left = some l ∧ s.treeAt fuel (s.nodeAt i).right = some r := by
  cases fuel with
  | zero => cases hd
  | succ fuel =>
    obtain ⟨-, e⟩ | ⟨hl, l', r', e, hleft, hright⟩ := treeAt_succ hd <;> cases e
    exact ⟨hl, fuel, hleft, hright⟩

/-- Entry `k` of the stack is for a node whose tree is `d`. -/
def Waits (s : State) (k : Nat) (d : Sys2Proof.Tree) : Prop := ∃ fuel, s.treeAt fuel (s.stkAt k).node = some d

/-- A node that waits is a node of the memory (R31). -/
theorem Waits.lt_nodeCap (h : s.Waits k d) (hinv : s.Inv) : (s.stkAt k).node < s.cfg.nodeCap := by
  obtain ⟨fuel, hd⟩ := h
  exact (treeAt_lt hd).trans_le hinv.widths.nnodes

theorem Waits.leaf {v : Sym} (h : s.Waits k (.leaf v)) :
    (s.nodeAt (s.stkAt k).node).leaf = true ∧ (s.nodeAt (s.stkAt k).node).sym = v := by
  obtain ⟨fuel, hd⟩ := h
  exact treeAt_leaf hd

theorem Waits.node_leaf (h : s.Waits k (.node l r)) : (s.nodeAt (s.stkAt k).node).leaf = false := by
  obtain ⟨fuel, hd⟩ := h
  exact (treeAt_node hd).1

/-- What waits goes on waiting while its entry names the same node and the node memory stays. -/
theorem Waits.of_node_eq (h : s.Waits k d) (hstk : (t.stkAt j).node = (s.stkAt k).node) (hnode : t.node = s.node)
    (hnn : t.nnodes = s.nnodes) : t.Waits j d := by
  obtain ⟨fuel, hd⟩ := h
  exact ⟨fuel, by rw [hstk, treeAt_congr hnode hnn, hd]⟩

theorem Waits.left (h : s.Waits k (.node l r)) (hstk : (t.stkAt j).node = (s.nodeAt (s.stkAt k).node).left)
    (hnode : t.node = s.node) (hnn : t.nnodes = s.nnodes) : t.Waits j l := by
  obtain ⟨fuel, hd⟩ := h
  obtain ⟨-, fuel', hleft, -⟩ := treeAt_node hd
  exact ⟨fuel', by rw [hstk, treeAt_congr hnode hnn, hleft]⟩

theorem Waits.right (h : s.Waits k (.node l r)) (hstk : (t.stkAt j).node = (s.nodeAt (s.stkAt k).node).right)
    (hnode : t.node = s.node) (hnn : t.nnodes = s.nnodes) : t.Waits j r := by
  obtain ⟨fuel, hd⟩ := h
  obtain ⟨-, fuel', -, hright⟩ := treeAt_node hd
  exact ⟨fuel', by rw [hstk, treeAt_congr hnode hnn, hright]⟩

end Sys2Proof.Machine.State
end

section
/-! The phase `DERIVE` over a whole tree (R145 to R149). -/

namespace Sys2Proof.Machine.State

variable {c : Config} {s t u v w : State} {d l r : Sys2Proof.Tree} {p : List Bool} {k : Nat}

/-- `t` with all that `DERIVE` writes short of its end put back to what it is in `s`. -/
def deriveFrame (s t : State) : State := { t with code := s.code, stk := s.stk, sp := s.sp }

/-- The tree `d` is on top of a stack of `k + 1` entries, reached by the path `p`. -/
structure AtPath (s : State) (k : Nat) (d : Sys2Proof.Tree) (p : List Bool) : Prop where
  sp : s.sp = k + 1
  waits : s.Waits k d
  path : s.stkAt k = StkEntry.ofPath (s.stkAt k).node p

/-- `t` is `s` after the tree `d` on top of a stack of `k + 1` entries, reached by the path `p`, is traversed. -/
structure Derived (s t : State) (k : Nat) (d : Sys2Proof.Tree) (p : List Bool) : Prop where
  sp : t.sp = k
  below : ∀ j, j < k → t.stkAt j = s.stkAt j
  code : ∀ v q, d.path? v = some q → t.codeAt v.toNat = CodeEntry.ofPath (p ++ q)
  other : ∀ v : Sym, v ∉ d.leaves → t.codeAt v.toNat = s.codeAt v.toNat
  frame : s.deriveFrame t = s

/-- A leaf is popped and its path recorded (R148). -/
theorem Undisturbed.runs_deriveLeaf {x : Sym} (hs : s.Undisturbed c) (hp : s.phase = .derive)
    (h : s.AtPath k (.leaf x) p) (hx : x.toNat ≤ 256) : ∃ t, Runs c 1 s t ∧ s.Derived t k (.leaf x) p := by
  obtain ⟨hl, hsym⟩ := h.waits.leaf
  obtain ⟨t, hexec, hsp, hcode, hother, hframe⟩ :=
    (deriveStep s hs.inv).2.1 k h.sp (h.waits.lt_nodeCap hs.inv) hl (by rwa [hsym])
  rw [hsym] at hcode hother
  refine ⟨t, hs.runs_one hp hexec, hsp, fun j _ => (congrArg (State.stkAt · j) hframe :), fun y q hq => ?_,
    fun y hy => hother _ fun e => hy (List.mem_singleton.mpr (BitVec.eq_of_toNat_eq e)),
    (congrArg s.deriveFrame hframe :)⟩
  obtain rfl := List.mem_singleton.mp (Tree.mem_leaves_of_path? hq)
  rw [Tree.path?, if_pos rfl] at hq
  cases hq
  rw [hcode, h.path, List.append_nil]
  rfl

/-- `v` is `s` after the children of the internal node on top took its place, the left one on top (R148). -/
structure ChildrenAtPath (s v : State) (k : Nat) (l r : Sys2Proof.Tree) (p : List Bool) : Prop where
  left : v.AtPath (k + 1) l (p ++ [false])
  right : v.Waits k r
  rightPath : v.stkAt k = StkEntry.ofPath (v.stkAt k).node (p ++ [true])
  below : ∀ j, j < k → v.stkAt j = s.stkAt j
  code : v.code = s.code
  phase : v.phase = s.phase
  frame : s.deriveFrame v = s

theorem Undisturbed.runs_deriveNode (hs : s.Undisturbed c) (hp : s.phase = .derive) (h : s.AtPath k (.node l r) p)
    (hroom : k + 1 < s.cfg.stackCap) : ∃ v, Runs c 1 s v ∧ s.ChildrenAtPath v k l r p := by
  obtain ⟨v, hexec, hsp, hright, hleft, hbelow, hframe⟩ :=
    (deriveStep s hs.inv).2.2 k h.sp (h.waits.lt_nodeCap hs.inv) h.waits.node_leaf hroom
  have hnode : v.node = s.node := (congrArg State.node hframe :)
  have hnn : v.nnodes = s.nnodes := (congrArg State.nnodes hframe :)
  have hlen : (s.stkAt k).len = BitVec.ofNat 9 p.length := congrArg StkEntry.len h.path
  have hval : (s.stkAt k).val = BitVec.ofNat 256 (valMsb p) := congrArg StkEntry.val h.path
  rw [hlen, hval] at hright hleft
  rw [← StkEntry.ofPath_right] at hright
  rw [← StkEntry.ofPath_left] at hleft
  exact ⟨v, hs.runs_one hp hexec,
    { left := ⟨hsp, h.waits.left (congrArg StkEntry.node hleft) hnode hnn, by rw [hleft]; rfl⟩
      right := h.waits.right (congrArg StkEntry.node hright) hnode hnn
      rightPath := by rw [hright]; rfl
      below := fun j hj => hbelow j hj.ne (Nat.lt_succ_of_lt hj).ne
      code := (congrArg State.code hframe :)
      phase := (congrArg State.phase hframe :)
      frame := (congrArg s.deriveFrame hframe :) }⟩

/-- After the left subtree the right one is on top. -/
theorem ChildrenAtPath.right_top (h : s.ChildrenAtPath v k l r p) (hl : v.Derived w (k + 1) l (p ++ [false])) :
    w.AtPath k r (p ++ [true]) where
  sp := hl.sp
  waits := h.right.of_node_eq (congrArg StkEntry.node (hl.below k k.lt_succ_self)) (congrArg State.node hl.frame :)
    (congrArg State.nnodes hl.frame :)
  path := by rw [hl.below k k.lt_succ_self, ← h.rightPath]

/-- The two subtrees of an internal node are traversed (R145). -/
theorem ChildrenAtPath.derived (h : s.ChildrenAtPath v k l r p) (hdisj : List.Disjoint l.leaves r.leaves)
    (hl : v.Derived w (k + 1) l (p ++ [false])) (hr : w.Derived t k r (p ++ [true])) :
    s.Derived t k (.node l r) p where
  sp := hr.sp
  below j hj := ((hr.below j hj).trans (hl.below j (Nat.lt_succ_of_lt hj))).trans (h.below j hj)
  code x q hq := by
    rw [Tree.path?] at hq
    split at hq
    · rename_i q' hq'
      cases hq
      rw [hr.other x fun hx => hdisj (Tree.mem_leaves_of_path? hq') hx, hl.code x q' hq', List.append_assoc]
      rfl
    · obtain ⟨q', hq', rfl⟩ := Option.map_eq_some_iff.mp hq
      rw [hr.code x q' hq', List.append_assoc]
      rfl
  other x hx := by
    rw [Tree.leaves, List.mem_append, not_or] at hx
    rw [hr.other x hx.2, hl.other x hx.1]
    exact congrArg (Memory.read CodeEntry.zero · x.toNat) h.code
  frame := ((congrArg s.deriveFrame hr.frame :).trans (congrArg s.deriveFrame hl.frame :)).trans h.frame

/-- `DERIVE` takes one step per node of the tree on top of the stack and records the paths of its leaves (R145). The
traversal never needs more entries than the tree has nodes (R163). -/
theorem Undisturbed.runs_derive (hs : s.Undisturbed c) (hp : s.phase = .derive) (h : s.AtPath k d p)
    (hsym : ∀ x ∈ d.leaves, x.toNat ≤ 256) (hnodup : d.leaves.Nodup) (hroom : k + d.nodes ≤ c.stackCap) :
    ∃ t, Runs c d.nodes s t ∧ s.Derived t k d p := by
  induction d generalizing s k p with
  | leaf x => exact hs.runs_deriveLeaf hp h (hsym x List.mem_cons_self)
  | node l r ihl ihr =>
    obtain ⟨hnodupL, hnodupR, hdisj⟩ := List.nodup_append'.mp hnodup
    rw [Tree.nodes] at hroom ⊢
    have := l.nodes_pos
    obtain ⟨v, hpush, hchildren⟩ := hs.runs_deriveNode hp h (by rw [hs.cfg]; omega)
    obtain ⟨w, hleft, hw⟩ := ihl hpush.undisturbed (hchildren.phase.trans hp) hchildren.left
      (fun x hx => hsym x (List.mem_append_left _ hx)) hnodupL (by omega)
    have hpw : w.phase = .derive := ((congrArg State.phase hw.frame :).trans hchildren.phase).trans hp
    obtain ⟨t, hright, ht⟩ := ihr hleft.undisturbed hpw (hchildren.right_top hw)
      (fun x hx => hsym x (List.mem_append_right _ hx)) hnodupR (by omega)
    exact ⟨t, (hpush.trans hleft).trans hright, hchildren.derived hdisj hw ht⟩

end Sys2Proof.Machine.State
end

section
/-! The phase `WR_TREE` over a whole tree (R155, R161). -/

namespace Sys2Proof.Machine.State

open Contract

variable {c : Config} {s t u v w : State} {d l r : Sys2Proof.Tree} {k : Nat}

/-- `t` with all that `WR_TREE` writes short of its end put back to what it is in `s`. -/
def serializeFrame (s t : State) : State := { t with out := s.out, chanLog := s.chanLog, stk := s.stk, sp := s.sp }

/-- `t` is `s` after the header of a tree on top of a stack of `k + 1` entries went to an open `OUT`. -/
structure Serialized (s t : State) (k : Nat) (header : List Bool) : Prop where
  sp : t.sp = k
  below : ∀ j, j < k → t.stkAt j = s.stkAt j
  bits : t.out.bits = s.out.bits ++ header
  closed : t.out.closed = false
  frame : s.serializeFrame t = s

/-- A leaf is popped and its token written (R161). -/
theorem Undisturbed.runs_writeLeaf {x : Sym} (hs : s.Undisturbed c) (hp : s.phase = .wrTree) (ho : s.out.closed = false)
    (hsp : s.sp = k + 1) (h : s.Waits k (.leaf x)) :
    ∃ t, Runs c 1 s t ∧ s.Serialized t k (writeHeader (.leaf x)) := by
  obtain ⟨hl, hsym⟩ := h.leaf
  obtain ⟨t, hexec, hspT, hclosed, hbits, hframe⟩ :=
    (wrTreeStep s hs.inv ho).2.1 k hsp (h.lt_nodeCap hs.inv) hl
  rw [hsym, msbFirst_eq] at hbits
  exact ⟨t, hs.runs_one hp hexec, hspT, fun j _ => (congrArg (State.stkAt · j) hframe :), hbits, hclosed,
    (congrArg s.serializeFrame hframe :)⟩

/-- `v` is `s` after the token of the internal node on top is written and its children took its place, the left one on
top (R161). -/
structure ChildrenWait (s v : State) (k : Nat) (l r : Sys2Proof.Tree) : Prop where
  sp : v.sp = k + 2
  left : v.Waits (k + 1) l
  right : v.Waits k r
  below : ∀ j, j < k → v.stkAt j = s.stkAt j
  bits : v.out.bits = s.out.bits ++ [false]
  closed : v.out.closed = false
  phase : v.phase = s.phase
  frame : s.serializeFrame v = s

theorem Undisturbed.runs_writeNode (hs : s.Undisturbed c) (hp : s.phase = .wrTree) (ho : s.out.closed = false)
    (hsp : s.sp = k + 1) (h : s.Waits k (.node l r)) (hroom : k + 1 < s.cfg.stackCap) :
    ∃ v, Runs c 1 s v ∧ s.ChildrenWait v k l r := by
  obtain ⟨v, hexec, hspV, hclosed, hbits, hright, hleft, hbelow, hframe⟩ :=
    (wrTreeStep s hs.inv ho).2.2 k hsp (h.lt_nodeCap hs.inv) h.node_leaf hroom
  have hnode : v.node = s.node := (congrArg State.node hframe :)
  have hnn : v.nnodes = s.nnodes := (congrArg State.nnodes hframe :)
  exact ⟨v, hs.runs_one hp hexec,
    { sp := hspV
      left := h.left (congrArg StkEntry.node hleft) hnode hnn
      right := h.right (congrArg StkEntry.node hright) hnode hnn
      below := fun j hj => hbelow j hj.ne (Nat.lt_succ_of_lt hj).ne
      bits := hbits
      closed := hclosed
      phase := (congrArg State.phase hframe :)
      frame := (congrArg s.serializeFrame hframe :) }⟩

/-- After the left subtree the right one waits on top. -/
theorem ChildrenWait.right_top {header : List Bool} (h : s.ChildrenWait v k l r)
    (hl : v.Serialized w (k + 1) header) : w.Waits k r :=
  h.right.of_node_eq (congrArg StkEntry.node (hl.below k k.lt_succ_self)) (congrArg State.node hl.frame :)
    (congrArg State.nnodes hl.frame :)

/-- The token of an internal node and the headers of its subtrees are the header of the node (R155). -/
theorem ChildrenWait.serialized (h : s.ChildrenWait v k l r) (hl : v.Serialized w (k + 1) (writeHeader l))
    (hr : w.Serialized t k (writeHeader r)) : s.Serialized t k (writeHeader (.node l r)) where
  sp := hr.sp
  below j hj := ((hr.below j hj).trans (hl.below j (Nat.lt_succ_of_lt hj))).trans (h.below j hj)
  bits := by
    rw [hr.bits, hl.bits, h.bits, List.append_assoc, List.append_assoc]
    rfl
  closed := hr.closed
  frame := ((congrArg s.serializeFrame hr.frame :).trans (congrArg s.serializeFrame hl.frame :)).trans h.frame

/-- `WR_TREE` takes one step per node of the tree on top of the stack and writes the tree's header (R155). -/
theorem Undisturbed.runs_serialize (hs : s.Undisturbed c) (hp : s.phase = .wrTree) (ho : s.out.closed = false)
    (hsp : s.sp = k + 1) (h : s.Waits k d) (hroom : k + d.nodes ≤ c.stackCap) :
    ∃ t, Runs c d.nodes s t ∧ s.Serialized t k (writeHeader d) := by
  induction d generalizing s k with
  | leaf x => exact hs.runs_writeLeaf hp ho hsp h
  | node l r ihl ihr =>
    rw [Tree.nodes] at hroom ⊢
    have := l.nodes_pos
    obtain ⟨v, hpush, hchildren⟩ := hs.runs_writeNode hp ho hsp h (by rw [hs.cfg]; omega)
    obtain ⟨w, hleft, hw⟩ := ihl hpush.undisturbed (hchildren.phase.trans hp) hchildren.closed hchildren.sp
      hchildren.left (by omega)
    have hpw : w.phase = .wrTree := ((congrArg State.phase hw.frame :).trans hchildren.phase).trans hp
    obtain ⟨t, hright, ht⟩ := ihr hleft.undisturbed hpw hw.closed hw.sp (hchildren.right_top hw) (by omega)
    exact ⟨t, (hpush.trans hleft).trans hright, hchildren.serialized hw ht⟩

end Sys2Proof.Machine.State
end

section
/-! The phase `ENCODE` over a whole input (R97, R180). -/

namespace Sys2Proof.Machine.State

open Contract

variable {c : Config} {s t u : State} {d : Sys2Proof.Tree} {input l rest : List Byte} {b : Byte}

/-- The code table holds the code of every symbol of the tree (R145). -/
def Coded (s : State) (d : Sys2Proof.Tree) : Prop :=
  ∀ v ∈ d.leaves, (s.codeAt v.toNat).valid = true ∧ (s.codeAt v.toNat).stream = Contract.code d v

theorem Coded.of_code_eq (h : s.Coded d) (hcode : t.code = s.code) : t.Coded d := fun v hv => by
  have e : t.codeAt v.toNat = s.codeAt v.toNat := congrArg (Memory.read CodeEntry.zero · v.toNat) hcode
  rw [e]
  exact h v hv

/-- A table that holds every path as an entry has the codes of a tree of at most 257 leaves (R33, R146). -/
theorem coded_of_paths (h : ∀ v q, d.path? v = some q → s.codeAt v.toNat = CodeEntry.ofPath q)
    (hlen : d.leaves.length ≤ 257) : s.Coded d := by
  intro v hv
  obtain ⟨q, hq⟩ := Tree.exists_path?_of_mem_leaves hv
  have := Tree.path?_length_lt hq
  rw [h v q hq, CodeEntry.stream_ofPath (by omega), Contract.code, hq]
  exact ⟨rfl, rfl⟩

/-- `t` with all that `ENCODE` writes without an error put back to what it is in `s`. -/
def encodeFrame (s t : State) : State :=
  { t with out := s.out, inp := s.inp, phase := s.phase, chanLog := s.chanLog }

/-- The codes of the bytes `l`, one after the other. -/
def codewords (d : Sys2Proof.Tree) (l : List Byte) : List Bool := l.flatMap fun b => Contract.code d (b.setWidth 9)

/-- `t` is `s` after `ENCODE` encoded the bytes `l` from the start of the input. -/
structure Encoded (s t : State) (d : Sys2Proof.Tree) (l : List Byte) : Prop where
  phase : t.phase = s.phase
  inp : t.inp = s.inp.advanced (8 * l.length)
  bits : t.out.bits = s.out.bits ++ codewords d l
  closed : t.out.closed = false
  frame : s.encodeFrame t = s

/-- The byte after those read is the next one. -/
theorem offers_byte (h : u.inp = { bits := bytesToBits (l ++ b :: rest), pos := 8 * l.length, eod := false }) :
    u.Offers b := by
  refine ⟨by rw [h], bytesToBits rest, ?_⟩
  rw [h, bytesToBits_append, ← bytesToBits_length, List.drop_left, msbFirst_eq]
  rfl

namespace Encoded

theorem start (ho : s.out.closed = false) : s.Encoded s d [] := ⟨rfl, rfl, (List.append_nil _).symm, ho, rfl⟩

theorem codeAt (h : s.Encoded u d l) (i : Nat) : u.codeAt i = s.codeAt i := (congrArg (State.codeAt · i) h.frame :)

/-- One step encodes one byte more. -/
theorem step (h : s.Encoded u d l) (hu : u.Undisturbed c) (hp : s.phase = .encode) (hd : s.Coded d)
    (hb : b.setWidth 9 ∈ d.leaves)
    (hin : s.inp = { bits := bytesToBits (l ++ b :: rest), pos := 0, eod := false }) :
    ∃ t, Runs c 1 u t ∧ s.Encoded t d (l ++ [b]) := by
  have hoffers : u.Offers b := offers_byte (by rw [h.inp, hin, InChan.advanced, Nat.zero_add])
  obtain ⟨hvalid, hstream⟩ := hd _ hb
  rw [BitVec.toNat_setWidth_of_le (by decide), ← h.codeAt] at hvalid hstream
  obtain ⟨t, hx, hbits, hclosed, hinp, hframe⟩ := (encodeStep u h.closed).1 b hoffers hvalid
  refine ⟨t, hu.runs_one (h.phase.trans hp) hx, (congrArg State.phase hframe :).trans h.phase, ?_, ?_, hclosed,
    (congrArg s.encodeFrame hframe :).trans h.frame⟩
  · rw [hinp, h.inp, List.length_append, List.length_singleton, Nat.mul_succ]
    simp only [InChan.advanced, Nat.add_assoc]
  · rw [hbits, h.bits, hstream, codewords, codewords, List.flatMap_append, List.flatMap_singleton, List.append_assoc]

end Encoded

/-- `ENCODE` takes one step per byte: after as many steps as `l` has bytes, where the input begins with `l`, the codes of
the bytes of `l` are written (R97). -/
theorem Undisturbed.runs_encodes (hs : s.Undisturbed c) (hp : s.phase = .encode) (ho : s.out.closed = false)
    (hd : s.Coded d) (hin : s.inp = { bits := bytesToBits input, pos := 0, eod := false })
    (hleaves : ∀ b ∈ input, b.setWidth 9 ∈ d.leaves) (hl : l <+: input) :
    ∃ t, Runs c l.length s t ∧ s.Encoded t d l := by
  induction l using List.reverseRecOn with
  | nil => exact ⟨s, .refl hs, .start ho⟩
  | append_singleton l b ih =>
    obtain ⟨u, hrun, hu⟩ := ih ((List.prefix_append l [b]).trans hl)
    have hb := hleaves b (hl.mem (List.mem_append_right l List.mem_cons_self))
    obtain ⟨rest, rfl⟩ := hl
    rw [List.append_assoc] at hin
    obtain ⟨t, hstep, ht⟩ := hu.step hrun.undisturbed hp hd hb hin
    refine ⟨t, ?_, ht⟩
    rw [List.length_append, List.length_singleton]
    exact hrun.trans hstep

/-- After the last byte `ENCODE` finds the end of the input (R180). -/
theorem Encoded.runs_end (h : s.Encoded u d input) (hu : u.Undisturbed c) (hp : s.phase = .encode)
    (hin : s.inp = { bits := bytesToBits input, pos := 0, eod := false }) :
    ∃ t, Runs c 1 u t ∧ t.phase = .wrEof ∧ t.out = u.out ∧ s.encodeFrame t = s := by
  have hend : u.Exhausted 8 := .inr (by rw [h.inp, hin]; simp [InChan.advanced])
  obtain ⟨t, hx, hpt, -, hframe⟩ := (encodeStep u h.closed).2.2 hend
  exact ⟨t, hu.runs_one (h.phase.trans hp) hx, hpt, (congrArg State.out hframe :),
    (congrArg s.encodeFrame hframe :).trans h.frame⟩

end Sys2Proof.Machine.State
end

section
/-! A whole compress (R175, R187): the stages of the operation, each a run from the state the one before left. -/

namespace Sys2Proof.Machine

open Contract

namespace State

variable {c : Config} {s t u v w : State} {d : Sys2Proof.Tree} {input : List Byte} {fuel : Nat}

/-! ### Counting -/

/-- `COUNT` takes one step per byte and one for the end of the input (R126). -/
theorem Undisturbed.runs_count (hs : s.Undisturbed c) (hp : s.phase = .count) (hfreq : ∀ i, s.freqAt i = 0)
    (hnsym : s.nsym = 0) (hin : s.inp = { bits := bytesToBits input, pos := 0, eod := false })
    (hlen : input.length ≤ c.maxInput) : ∃ t, Runs c (input.length + 1) s t ∧ s.CountFinished t input := by
  obtain ⟨u, hrun, hu⟩ := runSteps_counts (.start hs.inv hfreq hnsym) hs.pending hp hin (by rwa [hs.cfg])
    (List.prefix_refl input)
  obtain ⟨t, hstep, ht⟩ := hu.step_end hs.pending hp hin
  exact ⟨t, ⟨runSteps_succ hrun hstep, stepKeepsInvariant u t hu.inv hstep, (congrArg State.cfg ht.frame :).trans hs.cfg,
    (congrArg State.pending ht.frame :).trans hs.pending⟩, ht⟩

/-! ### The tree -/

/-- A counter holds 0 and 1 at least (R7). -/
theorem Inv.two_le_two_pow_cntW (h : s.Inv) : 2 ≤ 2 ^ s.cfg.cntW :=
  Nat.one_lt_two_pow (Nat.one_le_iff_ne_zero.mp (of_decide_eq_true (Bool.and_eq_true_iff.mp h.config).1))

/-- `t` with all that the builder writes put back to what it is in `s`. -/
def buildFrame (s t : State) : State :=
  { t with node := s.node, live := s.live, nnodes := s.nnodes, root := s.root, scan := s.scan, stk := s.stk, sp := s.sp,
           phase := s.phase }

/-- The number of symbols that get a leaf for an input: the distinct bytes and the pseudo-EOF. -/
def leafCount (input : List Byte) : Nat := (present (count input) (List.range Config.nsyms)).length

theorem leafCount_pos (input : List Byte) : 0 < leafCount input :=
  List.length_pos_of_mem (a := 256) (List.mem_filter.mpr ⟨List.mem_range.mpr (by decide), by
    rw [count_eq, if_pos rfl]; rfl⟩)

theorem leafCount_le (input : List Byte) : leafCount input ≤ 257 :=
  (List.length_filter_le _ _).trans_eq List.length_range

/-- The builder takes one step per symbol of the alphabet and one per leaf; it grows the tree of `build(F)`. -/
theorem Undisturbed.runs_build (hs : s.Undisturbed c) (hp : s.phase = .buildInit) (hscan : s.scan = 0)
    (hlive : s.live = []) (hnn : s.nnodes = 0) (hfreq : ∀ i, s.freqAt i = count input i)
    (hlen : input.length ≤ c.maxInput) :
    ∃ t d, build c (count input) = some d ∧ Runs c (257 + leafCount input) s t ∧ t.Rooted d ∧
      t.nnodes + 1 = 2 * leafCount input ∧ s.buildFrame t = s := by
  obtain ⟨u, hinsert, hu⟩ := hs.runs_inserts (k := 257) (.start hlive hnn hscan hp) (le_refl _)
  have hitems : s.leavesBelow 257 = leafItems c (count input) 0 (List.range Config.nsyms) := by
    rw [leavesBelow, hs.cfg, funext hfreq]
    rfl
  have hcount : (s.leavesBelow 257).length = leafCount input := by rw [hitems, leafItems_length]; rfl
  have hweight : weightOf (s.leavesBelow 257) < 2 ^ c.cntW := by
    rw [hitems, weightOf_leafItems_count]
    rw [Config.maxInput, ← hs.cfg] at hlen
    have := hs.inv.two_le_two_pow_cntW
    rw [← hs.cfg]
    omega
  have hpos := leafCount_pos input
  have hle := leafCount_le input
  have hcap := hs.cfg ▸ hs.inv.nodeCap_ge
  have hnodes := hu.nnodes
  obtain ⟨t, d, hbuild, hmerge, hrooted, hnnT, hframe⟩ := hinsert.undisturbed.runs_merges hu.phase hu.queued
    (List.length_pos_iff.mp (by omega)) (Nat.le_succ _) hweight (by omega)
  rw [hcount] at hmerge
  refine ⟨t, d, ?_, hinsert.trans hmerge, hrooted, by omega,
    (congrArg s.buildFrame hframe :).trans (congrArg s.buildFrame hu.frame :)⟩
  rw [build, ← hitems, ← hu.nnodes, ← hbuild, hu.nnodes]

/-! ### The codes -/

/-- `t` with all that the compressor writes from `DERIVE` on put back to what it is in `s`. -/
def streamFrame (s t : State) : State :=
  { t with code := s.code, out := s.out, inp := s.inp, stk := s.stk, sp := s.sp, phase := s.phase,
           chanLog := s.chanLog }

theorem Rooted.atPath (h : s.Rooted d) : s.AtPath 0 d [] where
  sp := h.sp
  waits := by
    obtain ⟨fuel, hd⟩ := h.tree
    exact ⟨fuel, by rw [h.top]; exact hd⟩
  path := by rw [h.top, StkEntry.ofPath_nil]; rfl

/-- `DERIVE` takes one step per node and one for the empty stack (R149). -/
theorem Undisturbed.runs_codes (hs : s.Undisturbed c) (h : s.Rooted d) (hsym : ∀ x ∈ d.leaves, x.toNat ≤ 256)
    (hnodup : d.leaves.Nodup) (hlen : d.leaves.length ≤ 257) (hroom : d.nodes ≤ c.stackCap) :
    ∃ t, Runs c (d.nodes + 1) s t ∧ t.phase = .wrMagic ∧ t.Coded d ∧ t.out = s.out ∧ t.inp = s.inp ∧
      s.streamFrame t = s := by
  obtain ⟨u, hrun, hu⟩ := hs.runs_derive h.phase h.atPath hsym hnodup (by rwa [Nat.zero_add])
  have hend := (deriveStep u hrun.undisturbed.inv).1 hu.sp
  have hpu : u.phase = .derive := (congrArg State.phase hu.frame :).trans h.phase
  have hcoded : u.Coded d := coded_of_paths hu.code hlen
  exact ⟨_, hrun.trans (hrun.undisturbed.runs_one hpu hend), rfl, hcoded, (congrArg State.out hu.frame :),
    (congrArg State.inp hu.frame :), (congrArg s.streamFrame hu.frame :)⟩

/-! ### Magic and header -/

/-- `WR_MAGIC`, `WR_TREE` and `REWIND` take a step per node and three more; they write magic and header, and `IN` is at
its start again (R93, R155, R179). -/
theorem Undisturbed.runs_header (hs : s.Undisturbed c) (hp : s.phase = .wrMagic) (ho : s.out.closed = false)
    (hd : s.treeAt fuel s.root = some d) (hroom : d.nodes ≤ c.stackCap) :
    ∃ t, Runs c (d.nodes + 3) s t ∧ t.phase = .encode ∧
      t.out.bits = s.out.bits ++ (bitsMsb 32 c.magic.toNat ++ writeHeader d) ∧ t.out.closed = false ∧
      t.inp = { bits := s.inp.bits, pos := 0, eod := false } ∧ t.code = s.code ∧ s.streamFrame t = s := by
  obtain ⟨u, hx, hbits, hclosed, htop, -, hsp, hpu, hframe⟩ := wrMagicStep s hs.inv ho
  have hu := hs.runs_one hp hx
  have hwaits : u.Waits 0 d := ⟨fuel, by
    rw [htop, treeAt_congr (s := s) (t := u) (congrArg State.node hframe :) (congrArg State.nnodes hframe :), hd]⟩
  obtain ⟨v, hrun, hv⟩ := hu.undisturbed.runs_serialize hpu hclosed hsp hwaits (by rwa [Nat.zero_add])
  have hpv : v.phase = .wrTree := (congrArg State.phase hv.frame :).trans hpu
  have hw := hrun.undisturbed.runs_one hpv ((wrTreeStep v hrun.undisturbed.inv hv.closed).1 hv.sp)
  obtain ⟨t, hxt, hinp, hpt, hframeT⟩ := rewindStep { v with phase := .rewind }
  have hout : t.out = v.out := (congrArg State.out hframeT :)
  have hcount : d.nodes + 3 = 1 + d.nodes + 1 + 1 := by omega
  rw [hcount]
  refine ⟨t, ((hu.trans hrun).trans hw).trans (hw.undisturbed.runs_one rfl hxt), hpt, ?_, ?_, ?_, ?_, ?_⟩
  · rw [hout, hv.bits, hbits, hs.cfg, msbFirst_eq, List.append_assoc]
  · rw [hout, hv.closed]
  · rw [hinp]
    exact congrArg (fun i : InChan => { i with pos := 0, eod := false })
      ((congrArg State.inp hv.frame :).trans (congrArg State.inp hframe :))
  · exact ((congrArg State.code hframeT :).trans (congrArg State.code hv.frame :)).trans (congrArg State.code hframe :)
  · exact ((congrArg s.streamFrame hframeT :).trans (congrArg s.streamFrame hv.frame :)).trans
      (congrArg s.streamFrame hframe :)

/-! ### Payload -/

/-- `ENCODE` and `WR_EOF` take one step per byte and two more; they write the payload (R97, R180, R182). -/
theorem Undisturbed.runs_payload (hs : s.Undisturbed c) (hp : s.phase = .encode) (ho : s.out.closed = false)
    (hd : s.Coded d) (hin : s.inp = { bits := bytesToBits input, pos := 0, eod := false })
    (hleaves : ∀ b ∈ input, b.setWidth 9 ∈ d.leaves) (heof : eofSym ∈ d.leaves) :
    ∃ t, Runs c (input.length + 2) s t ∧ t.phase = .close ∧ t.out.bits = s.out.bits ++ payload d input ∧
      t.out.closed = false ∧ s.streamFrame t = s := by
  obtain ⟨u, hrun, hu⟩ := hs.runs_encodes hp ho hd hin hleaves (List.prefix_refl input)
  obtain ⟨v, hend, hpv, hout, hframe⟩ := hu.runs_end hrun.undisturbed hp hin
  obtain ⟨t, hx, hbits, hclosed, hpt, hframeT⟩ := wrEofStep v (by rw [hout, hu.closed])
  have hcode : v.codeAt 256 = s.codeAt 256 := (congrArg (State.codeAt · 256) hframe :)
  refine ⟨t, (hrun.trans hend).trans (hend.undisturbed.runs_one hpv hx), hpt, ?_, hclosed, ?_⟩
  · rw [hbits, hout, hu.bits, hcode, List.append_assoc]
    exact congrArg (fun l => s.out.bits ++ (codewords d input ++ l)) (hd eofSym heof).2
  · exact (congrArg s.streamFrame hframeT :).trans (congrArg s.streamFrame hframe :)

/-- From the finished tree to `CLOSE`: the whole stream before its padding (R90, R175). -/
theorem Undisturbed.runs_stream (hs : s.Undisturbed c) (h : s.Rooted d) (hsym : ∀ x ∈ d.leaves, x.toNat ≤ 256)
    (hnodup : d.leaves.Nodup) (hlen : d.leaves.length ≤ 257) (hroom : d.nodes ≤ c.stackCap)
    (hout : s.out = { bits := [], closed := false }) (hin : s.inp.bits = bytesToBits input)
    (hleaves : ∀ b ∈ input, b.setWidth 9 ∈ d.leaves) (heof : eofSym ∈ d.leaves) :
    ∃ t, Runs c (2 * d.nodes + input.length + 6) s t ∧ t.phase = .close ∧
      t.out.bits = unpadded c d input ∧ t.out.closed = false ∧ s.streamFrame t = s := by
  obtain ⟨u, hcodes, hpu, hcoded, houtU, hinU, hframeU⟩ := hs.runs_codes h hsym hnodup hlen hroom
  obtain ⟨fuel, hd⟩ := h.tree
  have hroot : u.root = s.root := (congrArg State.root hframeU :)
  have hdU : u.treeAt fuel u.root = some d := by
    rw [treeAt_congr (s := s) (t := u) (congrArg State.node hframeU :) (congrArg State.nnodes hframeU :), hroot, hd]
  obtain ⟨v, hheader, hpv, hbitsV, hclosedV, hinV, hcodeV, hframeV⟩ :=
    hcodes.undisturbed.runs_header hpu (by rw [houtU, hout]) hdU hroom
  obtain ⟨t, hpayload, hpt, hbits, hclosed, hframe⟩ :=
    hheader.undisturbed.runs_payload hpv hclosedV (hcoded.of_code_eq hcodeV) (by rw [hinV, hinU, hin]) hleaves heof
  have hcount : 2 * d.nodes + input.length + 6 = d.nodes + 1 + (d.nodes + 3) + (input.length + 2) := by omega
  rw [hcount]
  refine ⟨t, (hcodes.trans hheader).trans hpayload, hpt, ?_, hclosed,
    ((congrArg s.streamFrame hframe :).trans (congrArg s.streamFrame hframeV :)).trans hframeU⟩
  rw [hbits, hbitsV, houtU, hout, unpadded]
  rfl

/-! ### The operation -/

/-- The bytes of the input and the pseudo-EOF are the leaves of its tree (R132). -/
theorem mem_leaves_of_mem_input {b : Byte} (h : build c (count input) = some d) (hb : b ∈ input) :
    b.setWidth 9 ∈ d.leaves := by
  have hlt := b.isLt
  rw [mem_build_leaves h, BitVec.toNat_setWidth_of_le (by decide), count_eq, if_neg (by omega)]
  exact ⟨hlt.trans (by decide), (List.countP_pos_iff.mpr ⟨b, hb, by simp⟩).ne'⟩

theorem eofSym_mem_leaves (h : build c (count input) = some d) : eofSym ∈ d.leaves :=
  (mem_build_leaves h).mpr ⟨by decide, ((count_eq input 256).trans (if_pos rfl)).trans_ne one_ne_zero⟩

end State

open State

/-- Settles O59: counting, the tree, the stream and `CLOSE` are runs that follow on each other. -/
theorem compressRefines : Obligations.CompressRefines := by
  intro s input leaves hinv hpending hphase hin hout hlen hleaves
  obtain rfl : leaves = leafCount input := hleaves
  have hstart : (s.accept .compress .count).Undisturbed s.cfg :=
    ⟨hinv.accept (by decide) (fun _ => rfl) (by decide), rfl, hpending⟩
  obtain ⟨a, hcount, ha⟩ := hstart.runs_count rfl (fun _ => rfl) rfl hin hlen
  obtain ⟨b, d, hbuild, htree, hrooted, hnnodes, hframeB⟩ := hcount.undisturbed.runs_build ha.phase ha.scan
    (congrArg State.live ha.frame :) (congrArg State.nnodes ha.frame :) ha.freq hlen
  have houtB : b.out = s.out := (congrArg State.out hframeB :).trans (congrArg State.out ha.frame :)
  have hinp : b.inp = a.inp := (congrArg State.inp hframeB :)
  have hinB : b.inp.bits = bytesToBits input := by
    rw [hinp, ha.inp]
    exact congrArg InChan.bits hin
  have hsyms : ∀ x ∈ d.leaves, x.toNat ≤ 256 := fun x hx => Nat.le_of_lt_succ ((mem_build_leaves hbuild).mp hx).1
  have hleafCount : d.leaves.length = leafCount input := build_leaves_length hbuild
  have hsize := leafCount_le input
  have hnodes := d.nodes_add_one
  have hroom : d.nodes ≤ s.cfg.stackCap := le_trans (by omega) hinv.nodeCap_ge
  obtain ⟨v, hstream, hpv, hbits, hclosed, hframeV⟩ := htree.undisturbed.runs_stream hrooted hsyms
    (build_leaves_nodup hbuild) (by omega) hroom (houtB.trans hout) hinB (fun _ => mem_leaves_of_mem_input hbuild)
    (eofSym_mem_leaves hbuild)
  have hrun := (hcount.trans htree).trans hstream
  obtain ⟨t, hx, houtT, hpt, -, -, hframeT⟩ := closeStep v hclosed
  have hclose := hrun.undisturbed.runs_one hpv hx
  have htotal : input.length + 1 + (257 + leafCount input) + (2 * d.nodes + input.length + 6)
      = 2 * input.length + 5 * leafCount input + 262 := by omega
  have hnnodesT : t.nnodes = b.nnodes := (congrArg State.nnodes hframeT :).trans (congrArg State.nnodes hframeV :)
  have hnsym : t.nsym = a.nsym := ((congrArg State.nsym hframeT :).trans (congrArg State.nsym hframeV :)).trans
    (congrArg State.nsym hframeB :)
  refine ⟨_, v, t, congrArg Host.Outcome.next (if_pos ?_), htotal ▸ hrun.run, hpv, hclose.step, hpt, ?_,
    hnsym.trans ha.nsym, by omega, by rw [houtT]; rfl, ?_⟩
  · obtain e | e := hphase <;> rw [e] <;> rfl
  · by_contra he
    rw [(hclose.undisturbed.inv.errcode.mp he)] at hpt
    cases hpt
  · rw [houtT, closedOut, hbits, hrun.undisturbed.cfg, compress, hbuild]
    rfl

end Sys2Proof.Machine
end

section
/-! The walk of `decompress(bits)` along the codewords of a stream (R195, R207), and the round trip of a whole stream
(R208). -/

namespace Sys2Proof

/-- The first edge of a path, and the path from there on (R96). -/
theorem Tree.path?_of_cons {l r : Sys2Proof.Tree} {v : Sym} {b : Bool} {p : List Bool}
    (h : (Tree.node l r).path? v = some (b :: p)) : (if b then r else l).path? v = some p := by
  rw [Tree.path?] at h
  split at h
  · cases h; assumption
  · obtain ⟨q, hr, e⟩ := Option.map_eq_some_iff.mp h
    cases e; exact hr

/-- An internal node is no symbol's leaf. -/
theorem Tree.path?_node_ne_nil (l r : Sys2Proof.Tree) (v : Sym) : (Tree.node l r).path? v ≠ some [] := by
  intro h
  rw [Tree.path?] at h
  split at h
  · cases h
  · obtain ⟨q, -, e⟩ := Option.map_eq_some_iff.mp h
    cases e

end Sys2Proof

namespace Sys2Proof.Machine.Contract

variable {c : Config} {t l r : Sys2Proof.Tree} {v : Sym} {b : Bool} {p bits rest : List Bool} {input : List Byte}

/-! ### The walk -/

/-- What the walk does on a leaf of symbol `v` (R203): a literal byte, and then again from the root of `t`. -/
def arrival (t : Sys2Proof.Tree) (v : Sym) (rest : List Bool) : ErrCode × List Byte :=
  if v = eofSym then (.none, [])
  else if 256 < v.toNat then (.symRange, [])
  else ((walk t t rest).1, v.setWidth 8 :: (walk t t rest).2)

theorem walk_nil (t d : Sys2Proof.Tree) : walk t d [] = (.trunc, []) := by
  cases d <;> rfl

theorem walk_to_leaf (h : (if b then r else l) = .leaf v) : walk t (.node l r) (b :: bits) = arrival t v bits := by
  rw [walk, h]; rfl

theorem walk_to_node {l' r' : Sys2Proof.Tree} (h : (if b then r else l) = .node l' r') :
    walk t (.node l r) (b :: bits) = walk t (.node l' r') bits := by
  rw [walk, h]

theorem arrival_pseudoEof (t : Sys2Proof.Tree) (rest : List Bool) : arrival t eofSym rest = (.none, []) := if_pos rfl

theorem arrival_reserved (h : 256 < v.toNat) : arrival t v rest = (.symRange, []) := by
  have hne : v ≠ eofSym := by rintro rfl; exact absurd h (by decide)
  rw [arrival, if_neg hne, if_pos h]

theorem arrival_literal (h : v.toNat < 256) :
    arrival t v rest = ((walk t t rest).1, v.setWidth 8 :: (walk t t rest).2) := by
  have hne : v ≠ eofSym := by rintro rfl; exact absurd h (by decide)
  rw [arrival, if_neg hne, if_neg h.not_gt]

/-- Along the path of a symbol the walk arrives at the symbol's leaf (R202). -/
theorem walk_path (h : (Tree.node l r).path? v = some p) : walk t (.node l r) (p ++ rest) = arrival t v rest := by
  induction p generalizing l r with
  | nil => exact absurd h (Tree.path?_node_ne_nil l r v)
  | cons b p ih =>
    replace h := Tree.path?_of_cons h
    rw [List.cons_append]
    cases hchild : (if b then r else l) with
    | leaf s =>
      rw [hchild, Tree.path?] at h
      split at h <;> cases h
      subst s
      exact walk_to_leaf hchild
    | node l' r' =>
      rw [hchild] at h
      rw [walk_to_node hchild, ih h]

/-! ### The payload -/

theorem payload_cons (t : Sys2Proof.Tree) (x : Byte) (input : List Byte) :
    payload t (x :: input) = code t (x.setWidth 9) ++ payload t input := by
  rw [payload, payload, List.flatMap_cons, List.append_assoc]

theorem code_of_path? (h : t.path? v = some p) : code t v = p := by rw [code, h]; rfl

/-- The walk along the code of a symbol of the tree arrives at the symbol (R96). -/
theorem walk_code (h : v ∈ (Tree.node l r).leaves) :
    walk (.node l r) (.node l r) (code (.node l r) v ++ rest) = arrival (.node l r) v rest := by
  obtain ⟨p, hp⟩ := Tree.exists_path?_of_mem_leaves h
  rw [code_of_path? hp, walk_path hp]

/-- The walk reads the input off its payload, and nothing after the pseudo-EOF's code (R207, R208). -/
theorem walk_payload (hinput : ∀ x ∈ input, x.setWidth 9 ∈ (Tree.node l r).leaves)
    (heof : eofSym ∈ (Tree.node l r).leaves) (tail : List Bool) :
    walk (.node l r) (.node l r) (payload (.node l r) input ++ tail) = (.none, input) := by
  induction input with
  | nil => exact (walk_code heof).trans (arrival_pseudoEof _ _)
  | cons x input ih =>
    have hlit : (x.setWidth 9).toNat < 256 := by
      rw [BitVec.toNat_setWidth_of_le (by decide)]
      exact x.isLt
    have hbyte : (x.setWidth 9).setWidth 8 = x := by simp
    rw [payload_cons, List.append_assoc, walk_code (hinput x List.mem_cons_self), arrival_literal hlit, hbyte,
      ih fun y hy => hinput y (List.mem_cons_of_mem x hy)]

/-! ### `decompress(bits)`, by what stands at the start of the stream (R195) -/

theorem decompress_short (h : bits.length < 32) : decompress c bits = (.format, []) := by
  rw [decompress, splitBits_of_short h]

theorem decompress_otherWord {w : Word} (h : w ≠ c.magic) (rest : List Bool) :
    decompress c (bitsMsb 32 w.toNat ++ rest) = (.format, []) := by
  rw [decompress, splitBits_append rest (bitsMsb_length 32 _)]
  simp [ofNat_valMsb_bitsMsb, h]

theorem decompress_headerError {e : ErrCode} (h : readHeader c rest = .error e) :
    decompress c (bitsMsb 32 c.magic.toNat ++ rest) = (e, []) := by
  simp [decompress, splitBits_append rest (bitsMsb_length 32 _), ofNat_valMsb_bitsMsb, h]

theorem decompress_leafRoot {rest' : List Bool} (h : readHeader c rest = .ok (.leaf v, rest')) :
    decompress c (bitsMsb 32 c.magic.toNat ++ rest) = if v = eofSym then (.none, []) else (.leafRoot, []) := by
  simp [decompress, splitBits_append rest (bitsMsb_length 32 _), ofNat_valMsb_bitsMsb, h]

theorem decompress_walk {rest' : List Bool} (h : readHeader c rest = .ok (.node l r, rest')) :
    decompress c (bitsMsb 32 c.magic.toNat ++ rest) = walk (.node l r) (.node l r) rest' := by
  simp [decompress, splitBits_append rest (bitsMsb_length 32 _), ofNat_valMsb_bitsMsb, h]

/-- A stream whose tree has leaves for the bytes of the input and for the pseudo-EOF (R208). -/
theorem decompress_unpadded (hcap : t.nodes ≤ c.nodeCap) (hinput : ∀ x ∈ input, x.setWidth 9 ∈ t.leaves)
    (heof : eofSym ∈ t.leaves) (tail : List Bool) : decompress c (unpadded c t input ++ tail) = (.none, input) := by
  have hread := headerRoundTrip c t (payload t input ++ tail) hcap
  rw [unpadded, List.append_assoc, List.append_assoc]
  cases t with
  | leaf v =>
    obtain rfl : eofSym = v := List.mem_singleton.mp heof
    have hnil : input = [] := List.eq_nil_iff_forall_not_mem.mpr fun x hx => by
      have h256 := congrArg BitVec.toNat (List.mem_singleton.mp (hinput x hx))
      rw [BitVec.toNat_setWidth_of_le (by decide)] at h256
      exact absurd x.isLt h256.not_lt
    rw [decompress_leafRoot hread, if_pos rfl, hnil]
  | node l r => rw [decompress_walk hread, walk_payload hinput heof]

/-! ### `build(F)` has a tree -/

/-- Enough merges leave one item (R130). -/
theorem exists_mergeAll {fuel : Nat} {items : List Item} (hne : items ≠ []) (hfuel : items.length ≤ fuel) (next : Nat) :
    ∃ t, mergeAll c fuel next items = some t := by
  induction fuel generalizing next items with
  | zero => exact absurd (List.length_eq_zero_iff.mp (Nat.le_zero.mp hfuel)) hne
  | succ fuel ih =>
    obtain ⟨a, rest, ha⟩ := exists_removeMin (c := c) hne
    by_cases hrest : rest = []
    · subst hrest
      exact ⟨_, mergeAll_last ha⟩
    · obtain ⟨b, rest', hb⟩ := exists_removeMin (c := c) hrest
      have hlength := length_merged (next := next) ha hb
      rw [mergeAll_merge ha hb]
      exact ih (List.append_ne_nil_of_right_ne_nil _ (List.cons_ne_nil _ _)) (by omega) (next + 1)

theorem exists_build_count (c : Config) (input : List Byte) : ∃ t, build c (count input) = some t := by
  have hlength : (leafItems c (count input) 0 (List.range Config.nsyms)).length = State.leafCount input :=
    leafItems_length ..
  have hpos := State.leafCount_pos input
  exact exists_mergeAll (List.length_pos_iff.mp (hlength ▸ hpos)) (Nat.le_succ _) _

/-- A node memory of the least size holds every tree built (R7, R140). -/
theorem build_nodes_le (hc : c.wf = true) (h : build c (count input) = some t) : t.nodes ≤ c.nodeCap := by
  have hcap : 513 ≤ c.nodeCap := of_decide_eq_true (Bool.and_eq_true_iff.mp hc).2
  have hleaves : t.leaves.length = State.leafCount input := build_leaves_length h
  have hcount := State.leafCount_le input
  have hnodes := t.nodes_add_one
  omega

/-- Settles O9: `build` has a tree for the input, its header is read back, and the walk reads the payload. -/
theorem streamRoundTrip : Obligations.StreamRoundTrip := by
  intro c input hc
  obtain ⟨t, ht⟩ := exists_build_count c input
  refine ⟨t, ht, by rw [compress, ht]; rfl, fun tail => ?_⟩
  exact decompress_unpadded (build_nodes_le hc ht) (fun _ => State.mem_leaves_of_mem_input ht)
    (State.eofSym_mem_leaves ht) tail

end Sys2Proof.Machine.Contract
end

section
/-! The decompressor's own steps (R197 to R204). -/

namespace Sys2Proof.Machine

open State

variable {s : State}

/-! ### `RD_MAGIC` -/

theorem exec_phaseRdMagic_magic (h : s.Offers s.cfg.magic) :
    exec .phaseRdMagic s = .next { s.afterRead 32 with sp := 0, phase := .rdTree } :=
  if_pos ((h.peek (by decide)).trans (congrArg some (BitVec.setWidth_eq _)))

theorem exec_phaseRdMagic_otherWord {v : Word} (h : s.Offers v) (hv : v ≠ s.cfg.magic) :
    exec .phaseRdMagic s = .next ((s.afterRead 32).raise .format) := by
  have hread : s.peek 32 = some v := (h.peek (by decide)).trans (congrArg some (BitVec.setWidth_eq _))
  exact if_neg fun e => hv (Option.some.inj (hread.symm.trans e))

theorem exec_phaseRdMagic_short (h : s.Exhausted 32) :
    exec .phaseRdMagic s = .next ((s.afterRead 32).raise .format) :=
  if_neg (by rw [h.peek]; exact nofun)

/-- Settles O44, by what the read of 32 bits finds. -/
theorem rdMagicStep : Obligations.RdMagicStep := fun _ =>
  ⟨fun h => ⟨_, exec_phaseRdMagic_magic h, rfl, rfl, h.inAfter (by decide), rfl⟩,
    fun _ h hv => ⟨_, exec_phaseRdMagic_otherWord h hv, rfl, rfl, h.inAfter (by decide), rfl⟩,
    fun h => ⟨_, exec_phaseRdMagic_short h, rfl, rfl, h.inAfter, rfl⟩⟩

/-! ### `DECODE` -/

theorem exec_phaseDecode_leaf (hcur : s.cur < s.cfg.nodeCap) (hl : (s.nodeAt s.cur).leaf = true) :
    exec .phaseDecode s = .next (s.leafRoot (s.nodeAt s.cur).sym) := by
  show execPhaseDecode s = _
  simp only [execPhaseDecode, withNode_of_lt hcur, if_pos hl]

/-- Settles O47, by the symbol of the leaf. -/
theorem decodeLeafRootStep : Obligations.DecodeLeafRootStep := by
  intro s hcur hl ho
  refine ⟨fun hsym => ?_, fun hsym => ?_⟩
  · exact ⟨s.finishDecode, (exec_phaseDecode_leaf hcur hl).trans (congrArg _ (if_pos hsym)), closeOut_open ho, rfl,
      congrArg (fun u : State => { u with phase := s.phase }) (closeOut_frame ho)⟩
  · exact (exec_phaseDecode_leaf hcur hl).trans (congrArg _ (if_neg hsym))

theorem exec_phaseDecode_end (hcur : s.cur < s.cfg.nodeCap) (hl : (s.nodeAt s.cur).leaf = false) (h : s.Exhausted 1) :
    exec .phaseDecode s = .next ((s.afterRead 1).raise .trunc) := by
  show execPhaseDecode s = _
  simp only [execPhaseDecode, withNode_of_lt hcur, if_neg (Bool.eq_false_iff.mp hl), h.peek]

/-- The edge of a bit read, 0 left and 1 right (R202). -/
theorem NodeEntry.child_eq (n : NodeEntry) (b : Bool) :
    n.child b = if BitVec.ofBool b = 0 then n.left else n.right := by
  cases b <;> rfl

theorem exists_eq_ofBool (b : BitVec 1) : ∃ x, b = BitVec.ofBool x := by
  obtain rfl | rfl := BitVec.eq_zero_or_eq_one b
  · exact ⟨false, rfl⟩
  · exact ⟨true, rfl⟩

namespace State

theorem leafAction_pseudoEof (s : State) : s.leafAction eofSym = s.finishDecode := if_pos rfl

theorem leafAction_reserved {v : Sym} (h : 256 < v.toNat) : s.leafAction v = s.raise .symRange := by
  have hne : v ≠ eofSym := by rintro rfl; exact absurd h (by decide)
  rw [leafAction, if_neg hne, if_pos h]

theorem leafAction_literal {v : Sym} (h : v.toNat < 256) :
    s.leafAction v = { s.writeBits 8 (v.setWidth 32) with cur := s.root } := by
  have hne : v ≠ eofSym := by rintro rfl; exact absurd h (by decide)
  rw [leafAction, if_neg hne, if_neg h.not_gt]

/-- No action on a leaf reads anything (R203). -/
theorem leafAction_inp (s : State) (v : Sym) : (s.leafAction v).inp = s.inp := by
  obtain ⟨-, e⟩ | ⟨-, -, e⟩ | ⟨-, e⟩ := leafAction_cases s v <;> rw [e] <;> rfl

/-- A literal is written in eight bits (R203). -/
theorem writeLiteral_out (h : s.out.closed = false) (v : Sym) :
    (s.writeBits 8 (v.setWidth 32)).out = { s.out with bits := s.out.bits ++ msbFirst (v.setWidth 8) } := by
  rw [writeBits_open h, bitsMsb_setWidth, BitVec.setWidth_setWidth_of_le v (by decide)]

/-- The state after the walk read a bit, moved to node `c` and acted on it if it is a leaf (R201). -/
def arrived (c : Nat) (s : State) : State :=
  if (s.nodeAt c).leaf then (s.enter c).leafAction (s.nodeAt c).sym else s.enter c

theorem arrived_inner {c : Nat} (h : (s.nodeAt c).leaf = false) : s.arrived c = s.enter c :=
  if_neg (Bool.eq_false_iff.mp h)

theorem arrived_leaf {c : Nat} (h : (s.nodeAt c).leaf = true) :
    s.arrived c = (s.enter c).leafAction (s.nodeAt c).sym := if_pos h

theorem arrived_inp (c : Nat) (s : State) : (s.arrived c).inp = s.inAfter 1 := by
  unfold arrived
  split
  · exact leafAction_inp _ _
  · rfl

end State

/-- Settles O48: the end of the stream, or a bit and the node its edge leads to. -/
theorem decodeStep : Obligations.DecodeStep := by
  intro s hcur hl ho
  refine ⟨fun he => ⟨_, exec_phaseDecode_end hcur hl he, rfl, rfl, he.inAfter, rfl⟩, fun b c hb hedge hc => ?_⟩
  obtain ⟨x, rfl⟩ := exists_eq_ofBool b
  have hchild : (s.nodeAt s.cur).child x = c := (NodeEntry.child_eq _ x).trans hedge.symm
  refine ⟨s.arrived c, execPhaseDecode_edge hcur hl hb hchild hc, (arrived_inp c s).trans (hb.inAfter Nat.one_pos),
    fun hn => ?inner, fun hn hlit => ?literal, fun hn heof => ?pseudoEof, fun hn hres => ?reserved⟩
  case inner =>
    rw [arrived_inner hn]
    exact ⟨rfl, rfl⟩
  case literal =>
    rw [arrived_leaf hn, leafAction_literal hlit]
    exact ⟨rfl, writeLiteral_out (s := s.enter c) ho _,
      congrArg (fun u : State => { u with cur := s.cur, inp := s.inp, chanLog := s.chanLog })
        (writeBits_frame (s := s.enter c) ho 8 _)⟩
  case pseudoEof =>
    rw [arrived_leaf hn, heof, leafAction_pseudoEof]
    exact ⟨rfl, closeOut_open (s := s.enter c) ho, rfl,
      congrArg (fun u : State => { u with cur := s.cur, phase := s.phase, inp := s.inp, chanLog := s.chanLog })
        (closeOut_frame (s := s.enter c) ho)⟩
  case reserved =>
    rw [arrived_leaf hn, leafAction_reserved hres]
    exact ⟨rfl, rfl, rfl, rfl⟩

end Sys2Proof.Machine
end

section
/-! `readHeader(bits)` inverted (R156, R168): what it reads is the header of its tree, and how it fails. -/

namespace Sys2Proof

/-- Enough bits begin with the bits of a value. -/
theorem exists_bitsMsb_append {n : Nat} {bits : List Bool} (h : n ≤ bits.length) :
    ∃ (v : BitVec n) (rest : List Bool), bits = bitsMsb n v.toNat ++ rest := by
  have hlen : (bits.take n).length = n := List.length_take_of_le h
  have hval : valMsb (bits.take n) < 2 ^ n := by simpa only [hlen] using valMsb_lt (bits.take n)
  refine ⟨BitVec.ofNat n (valMsb (bits.take n)), bits.drop n, ?_⟩
  have hbits : bitsMsb n (valMsb (bits.take n)) = bits.take n := by
    simpa only [hlen] using bitsMsb_valMsb (bits.take n)
  rw [BitVec.toNat_ofNat, Nat.mod_eq_of_lt hval, hbits, List.take_append_drop]

/-- What can stand where a token of the tree field is expected (R94, R95, R101). -/
theorem treeToken_cases (bits : List Bool) :
    bits = [] ∨ (∃ rest, bits = false :: rest) ∨ (∃ rest, bits = true :: rest ∧ rest.length < 9) ∨
    ∃ (v : Sym) (rest : List Bool), bits = true :: bitsMsb 9 v.toNat ++ rest := by
  obtain _ | ⟨_ | _, rest⟩ := bits
  · exact .inl rfl
  · exact .inr (.inl ⟨rest, rfl⟩)
  · obtain hshort | hlong := Nat.lt_or_ge rest.length 9
    · exact .inr (.inr (.inl ⟨rest, rfl, hshort⟩))
    · obtain ⟨v, rest', rfl⟩ := exists_bitsMsb_append hlong
      exact .inr (.inr (.inr ⟨v, rest', rfl⟩))

end Sys2Proof

namespace Sys2Proof.Machine.Contract

variable {depth room room' : Nat} {bits rest : List Bool} {d : Sys2Proof.Tree} {e : ErrCode}

theorem readHeaderIn_full (depth : Nat) (bits : List Bool) : readHeaderIn depth 0 bits = .error .treeOvf := by
  cases depth <;> rfl

theorem readHeaderIn_shortLeaf (h : bits.length < 9) :
    readHeaderIn (depth + 1) (room + 1) (true :: bits) = .error .header := by
  rw [readHeaderIn, splitBits_of_short h]

theorem readHeaderIn_leftError (h : readHeaderIn depth room bits = .error e) :
    readHeaderIn (depth + 1) (room + 1) (false :: bits) = .error e := by
  simp only [readHeaderIn, h]

theorem readHeaderIn_rightError (hl : readHeaderIn depth room bits = .ok (d, rest, room'))
    (hr : readHeaderIn depth room' rest = .error e) :
    readHeaderIn (depth + 1) (room + 1) (false :: bits) = .error e := by
  simp only [readHeaderIn, hl, hr]

/-- The bits read are the header of the tree (R155), and the room taken is that of its nodes. -/
theorem eq_writeHeader_of_readHeaderIn (h : readHeaderIn depth room bits = .ok (d, rest, room')) :
    bits = writeHeader d ++ rest ∧ room = d.nodes + room' := by
  induction depth generalizing room bits d rest room' with
  | zero => cases h
  | succ depth ih =>
    cases room with
    | zero => cases h
    | succ room =>
      obtain rfl | ⟨bits, rfl⟩ | ⟨bits, rfl, hshort⟩ | ⟨v, bits, rfl⟩ := treeToken_cases bits
      · cases h
      · cases hl : readHeaderIn depth room bits with
        | error e => rw [readHeaderIn_leftError hl] at h; cases h
        | ok x =>
          obtain ⟨l, bits', room₁⟩ := x
          cases hr : readHeaderIn depth room₁ bits' with
          | error e => rw [readHeaderIn_rightError hl hr] at h; cases h
          | ok y =>
            obtain ⟨r, rest', room₂⟩ := y
            rw [readHeaderIn_node hl hr] at h
            cases h
            obtain ⟨rfl, rfl⟩ := ih hl
            obtain ⟨rfl, rfl⟩ := ih hr
            refine ⟨by rw [writeHeader, List.cons_append, List.append_assoc], ?_⟩
            rw [Tree.nodes]; omega
      · rw [readHeaderIn_shortLeaf hshort] at h; cases h
      · rw [readHeaderIn_leaf] at h
        cases h
        exact ⟨rfl, Nat.add_comm _ _⟩

/-- One header bit per node at least (R158). -/
theorem nodes_le_writeHeader_length (d : Sys2Proof.Tree) : d.nodes ≤ (writeHeader d).length := by
  have := d.nodes_add_one
  have := writeHeader_length_add_one d
  omega

end Sys2Proof.Machine.Contract
end

section
/-! What is left of the input, and how a decompress ends. -/

namespace Sys2Proof.Machine.State

variable {s t : State} {bits rest : List Bool} {n : Nat}

/-- No end-of-data is pending, and `bits` are left to read (R61). -/
structure Remaining (s : State) (bits : List Bool) : Prop where
  eod : s.inp.eod = false
  unread : s.inp.bits.drop s.inp.pos = bits

namespace Remaining

theorem offers {v : BitVec n} (h : s.Remaining (msbFirst v ++ rest)) : s.Offers v := ⟨h.eod, rest, h.unread.symm⟩

theorem exhausted (h : s.Remaining bits) (hlen : bits.length < n) : s.Exhausted n := by
  right
  have hdrop := congrArg List.length h.unread
  rw [List.length_drop] at hdrop
  omega

/-- The bits consumed are the first of those left. -/
theorem advanced {l : List Bool} (h : s.Remaining (l ++ rest)) (ht : t.inp = s.inp.advanced l.length) :
    t.Remaining rest := by
  refine ⟨by rw [ht]; exact h.eod, ?_⟩
  rw [ht]
  show s.inp.bits.drop (s.inp.pos + l.length) = rest
  rw [← List.drop_drop, h.unread, List.drop_left]

theorem of_inp_eq (h : s.Remaining bits) (ht : t.inp = s.inp) : t.Remaining bits := by
  refine ⟨?_, ?_⟩ <;> rw [ht]
  · exact h.eod
  · exact h.unread

end Remaining

/-- `t` is where an operation ends that has the outcome and the output bytes of the contract (R195, R211). -/
structure Ended (t : State) (outcome : ErrCode × List Byte) : Prop where
  errcode : t.errcode = outcome.1
  phase : t.phase = if outcome.1 = .none then .done else .fault
  closed : t.out.closed = decide (t.phase = .done)
  bits : t.out.bits = bytesToBits outcome.2

/-- An error leaves `OUT` open, with the bytes written so far (R240). -/
theorem Ended.of_fault {l : List Byte} (hs : s.out = { bits := bytesToBits l, closed := false })
    (hinv : t.Inv) (hp : t.phase = .fault) (ho : t.out = s.out) : t.Ended (t.errcode, l) where
  errcode := rfl
  phase := hp.trans (if_neg (hinv.errcode.mpr hp)).symm
  closed := by rw [ho, hs, hp]; rfl
  bits := by rw [ho, hs]

/-- Whole bytes take no padding (R66). -/
theorem closedOut_of_bytes {l : List Byte} (hs : s.out = { bits := bytesToBits l, closed := false }) :
    s.closedOut = { bits := bytesToBits l, closed := true } := by
  rw [closedOut, hs, bytesToBits_length, Nat.mul_mod_right]
  simp

/-- The successful end closes `OUT` (R204). -/
theorem Ended.of_done {l : List Byte} (hs : s.out = { bits := bytesToBits l, closed := false })
    (hinv : t.Inv) (hp : t.phase = .done) (ho : t.out = s.closedOut) : t.Ended (.none, l) where
  errcode := by
    by_contra he
    rw [hinv.errcode.mp he] at hp
    cases hp
  phase := hp
  closed := by rw [ho, hp]; rfl
  bits := by rw [ho, closedOut_of_bytes hs]

/-- `n` steps of the sequencer at most end the operation, with this outcome. -/
def EndsWithin (c : Config) (s : State) (n : Nat) (outcome : ErrCode × List Byte) : Prop :=
  ∃ k t, k ≤ n ∧ Runs c k s t ∧ t.Ended outcome

theorem EndsWithin.of_runs {c : Config} {m n n' : Nat} {outcome : ErrCode × List Byte} (hrun : Runs c m s t)
    (h : t.EndsWithin c n outcome) (hn : m + n ≤ n') : s.EndsWithin c n' outcome := by
  obtain ⟨k, u, hk, hrun', hended⟩ := h
  exact ⟨m + k, u, by omega, hrun.trans hrun', hended⟩

end Sys2Proof.Machine.State
end

section
/-! The phase `RD_TREE` over a whole header (R156, R165 to R168): the nodes of a tree lie in the order of their tokens. -/

namespace Sys2Proof.Machine.State

open Contract

variable {c : Config} {s t u v w : State} {d l r : Sys2Proof.Tree} {rest rest' bits : List Bool} {k n m : Nat}

/-! ### Trees in the order of their tokens -/

/-- The nodes of the tree from entry `n` of the node memory on, each before its left subtree and that before its right
subtree, as the deserializer allocates them (R166). -/
def Laid (s : State) : Nat → Sys2Proof.Tree → Prop
  | n, .leaf v => (s.nodeAt n).leaf = true ∧ (s.nodeAt n).sym = v
  | n, .node l r =>
    (s.nodeAt n).leaf = false ∧ (s.nodeAt n).left = n + 1 ∧ (s.nodeAt n).right = n + 1 + l.nodes ∧
      s.Laid (n + 1) l ∧ s.Laid (n + 1 + l.nodes) r

/-- A tree depends on its own entries only. -/
theorem Laid.congr (h : s.Laid n d) (hnode : ∀ i, n ≤ i → i < n + d.nodes → t.nodeAt i = s.nodeAt i) : t.Laid n d := by
  induction d generalizing n with
  | leaf v =>
    obtain ⟨hl, hsym⟩ := h
    have hn := hnode n le_rfl (Nat.lt_succ_self n)
    exact ⟨by rw [hn, hl], by rw [hn, hsym]⟩
  | node l r ihl ihr =>
    obtain ⟨hl, hleft, hright, hL, hR⟩ := h
    rw [Tree.nodes] at hnode
    have hn := hnode n le_rfl (by omega)
    exact ⟨by rw [hn, hl], by rw [hn, hleft], by rw [hn, hright],
      ihl hL fun i hi hlt => hnode i (by omega) (by omega), ihr hR fun i hi hlt => hnode i (by omega) (by omega)⟩

/-- What is laid out is the tree that the node memory holds (R34). -/
theorem Laid.treeAt {fuel : Nat} (h : s.Laid n d) (hn : n + d.nodes ≤ s.nnodes) (hfuel : d.nodes ≤ fuel) :
    s.treeAt fuel n = some d := by
  induction d generalizing n fuel with
  | leaf v =>
    obtain ⟨hl, hsym⟩ := h
    obtain ⟨fuel, rfl⟩ := Nat.exists_eq_add_of_le' hfuel
    show s.treeAt (fuel + 1) n = _
    rw [State.treeAt, if_pos (show n < s.nnodes from hn), if_pos hl, hsym]
  | node l r ihl ihr =>
    obtain ⟨hl, hleft, hright, hL, hR⟩ := h
    rw [Tree.nodes] at hn hfuel
    obtain ⟨fuel, rfl⟩ := Nat.exists_eq_add_of_le' (Nat.le_trans (by omega : 1 ≤ _) hfuel)
    simp only [State.treeAt, if_pos (show n < s.nnodes by omega), if_neg (Bool.eq_false_iff.mp hl), hleft, hright,
      ihl hL (fuel := fuel) (by omega) (by omega), ihr hR (fuel := fuel) (by omega) (by omega)]

/-! ### Reading -/

/-- `t` with all that `RD_TREE` writes short of its end put back to what it is in `s`. -/
def deserializeFrame (s t : State) : State :=
  { t with node := s.node, stk := s.stk, nnodes := s.nnodes, sp := s.sp, inp := s.inp, chanLog := s.chanLog }

/-- Between `s` and `t`, `RD_TREE` made `n` nodes and left `rest` to read; the nodes before and the stack stand. -/
structure Deserialized (s t : State) (n : Nat) (rest : List Bool) : Prop where
  nnodes : t.nnodes = s.nnodes + n
  kept : ∀ i, i < s.nnodes → t.nodeAt i = s.nodeAt i
  below : ∀ j, j < s.sp → t.stkAt j = s.stkAt j
  remaining : t.Remaining rest
  nodeWf : Memory.wf NodeEntry.zero t.node = true
  stkWf : Memory.wf StkEntry.zero t.stk = true
  frame : s.deserializeFrame t = s

theorem Deserialized.cfg (h : s.Deserialized t n rest) : t.cfg = s.cfg := (congrArg State.cfg h.frame :)

theorem Deserialized.phase (h : s.Deserialized t n rest) : t.phase = s.phase := (congrArg State.phase h.frame :)

theorem Deserialized.trans (h : s.Deserialized u m rest) (h' : u.Deserialized t n rest') (hsp : s.sp ≤ u.sp) :
    s.Deserialized t (m + n) rest' where
  nnodes := by rw [h'.nnodes, h.nnodes, Nat.add_assoc]
  kept i hi := (h'.kept i (by rw [h.nnodes]; omega)).trans (h.kept i hi)
  below j hj := (h'.below j (hj.trans_le hsp)).trans (h.below j hj)
  remaining := h'.remaining
  nodeWf := h'.nodeWf
  stkWf := h'.stkWf
  frame := (congrArg s.deserializeFrame h'.frame :).trans h.frame

/-- From `s` the sequencer reads the header of `d` and comes to the link-upward loop on the root of `d` (R166): the step
that reads the last token ends with the loop. -/
def ReadsTree (c : Config) (s : State) (d : Sys2Proof.Tree) (rest : List Bool) : Prop :=
  ∃ u, s.Deserialized u d.nodes rest ∧ u.Laid s.nnodes d ∧
    ∀ t, linkUp s.sp s.nnodes u = .next t → Runs c d.nodes s t

/-- A leaf token (R95, R166). -/
theorem Undisturbed.readsTree_leaf {x : Sym} (hs : s.Undisturbed c) (hp : s.phase = .rdTree)
    (hn : s.nnodes < s.cfg.nodeCap) (hr : s.Remaining (writeHeader (.leaf x) ++ rest)) :
    s.ReadsTree c (.leaf x) rest := by
  have hbits : msbFirst (1#1 ++ x) = writeHeader (.leaf x) := by rw [msbFirst_leafToken, msbFirst_eq, writeHeader]
  rw [← hbits] at hr
  obtain ⟨log, hstart⟩ := exec_phaseRdTree_loop hn hr.offers
  have hread := nodeAt_pushedLeaf (s := s) hs.inv.memories.nodeWf x
  refine ⟨_, ?_, ?_, fun t ht => hs.runs_one hp (hstart.trans ht)⟩
  · exact
      { nnodes := rfl
        kept := fun i hi => (hread i).trans (if_neg hi.ne)
        below := fun _ _ => rfl
        remaining := hr.advanced rfl
        nodeWf := Memory.wf_write _ hs.inv.memories.nodeWf _ _
        stkWf := hs.inv.memories.stkWf
        frame := rfl }
  · have hnew := (hread s.nnodes).trans (if_pos rfl)
    exact ⟨congrArg NodeEntry.leaf hnew, congrArg NodeEntry.sym hnew⟩

/-- `v` is `s` after an internal node was made and waits on the stack for its left child (R166). -/
structure InnerRead (s v : State) (rest : List Bool) : Prop where
  made : s.Deserialized v 1 rest
  sp : v.sp = s.sp + 1
  leaf : (v.nodeAt s.nnodes).leaf = false
  topNode : (v.stkAt s.sp).node = s.nnodes
  topSide : (v.stkAt s.sp).side = false

theorem Undisturbed.runs_innerToken (hs : s.Undisturbed c) (hp : s.phase = .rdTree) (hsp : s.sp ≤ s.nnodes)
    (hn : s.nnodes ≠ s.cfg.nodeCap) (hr : s.Remaining (false :: rest)) : ∃ v, Runs c 1 s v ∧ s.InnerRead v rest := by
  have hoffer : s.Offers 0#1 := offers_of_unread (b := false) hr.eod hr.unread
  obtain ⟨v, hx, hnode, hkept, htop, hbelow, hspV, hnn, hinp, hframe⟩ := (rdTreeStep s hs.inv hsp).2.2 hn hoffer
  have hrun := hs.runs_one hp hx
  have hmem := hrun.undisturbed.inv.memories
  exact ⟨v, hrun,
    { made :=
        { nnodes := hnn
          kept := fun i hi => hkept i hi.ne
          below := fun j hj => hbelow j hj.ne
          remaining := hr.advanced (l := [false]) hinp
          nodeWf := hmem.nodeWf
          stkWf := hmem.stkWf
          frame := hframe }
      sp := hspV
      leaf := by rw [hnode]
      topNode := by rw [htop]
      topSide := by rw [htop] }⟩

/-- `w` is `s` after an internal node was made and its left subtree read; the node waits for its right child (R166). -/
structure LeftRead (s w : State) (l : Sys2Proof.Tree) (rest : List Bool) : Prop where
  made : s.Deserialized w (1 + l.nodes) rest
  sp : w.sp = s.sp + 1
  leaf : (w.nodeAt s.nnodes).leaf = false
  left : (w.nodeAt s.nnodes).left = s.nnodes + 1
  laid : w.Laid (s.nnodes + 1) l
  topNode : (w.stkAt s.sp).node = s.nnodes
  topSide : (w.stkAt s.sp).side = true

/-- The loop on the root of the left subtree gives the waiting node its left child. -/
theorem InnerRead.runs_left (h : s.InnerRead v rest) (hn : s.nnodes < s.cfg.nodeCap) (hsp : s.sp ≤ s.nnodes)
    (hl : v.ReadsTree c l rest') : ∃ w, Runs c l.nodes v w ∧ s.LeftRead w l rest' := by
  obtain ⟨u, hu, hlaid, hlink⟩ := hl
  have hall := h.made.trans hu (by rw [h.sp]; omega)
  have htop : u.stkAt s.sp = v.stkAt s.sp := hu.below s.sp (by rw [h.sp]; omega)
  have hnode : (u.stkAt s.sp).node = s.nnodes := by rw [htop, h.topNode]
  have hside : (u.stkAt s.sp).side = false := by rw [htop, h.topSide]
  have hself : u.nodeAt s.nnodes = v.nodeAt s.nnodes := hu.kept _ (by rw [h.made.nnodes]; omega)
  have hturn := linkUp_of_left (d := s.nnodes + 1) (s := u) (k := s.sp)
    (by rw [hall.cfg]; exact Nat.lt_of_le_of_lt hsp hn) (by rw [hall.cfg, hnode]; exact hn) hside
  rw [h.sp, h.made.nnodes] at hlink
  rw [h.made.nnodes] at hlaid
  have hread := nodeAt_linkLeft (k := s.sp) (d := s.nnodes + 1) hu.nodeWf
  rw [hnode] at hread
  have hstk := stkAt_linkLeft (k := s.sp) (d := s.nnodes + 1) hu.stkWf
  refine ⟨_, hlink _ hturn,
    { made :=
        { hall with
          kept := fun i hi => ((hread i).trans (if_neg hi.ne)).trans (hall.kept i hi)
          below := fun j hj => ((hstk j).trans (if_neg hj.ne)).trans (hall.below j hj)
          remaining := hall.remaining.of_inp_eq rfl
          nodeWf := Memory.wf_write _ hu.nodeWf _ _
          stkWf := Memory.wf_write _ hu.stkWf _ _ }
      sp := rfl
      leaf := ?_
      left := ?_
      laid := hlaid.congr fun i hi _ => (hread i).trans (if_neg (by omega))
      topNode := ?_
      topSide := ?_ }⟩
  · rw [hread, if_pos rfl]
    exact (congrArg NodeEntry.leaf hself).trans h.leaf
  · rw [hread, if_pos rfl]
  · rw [hstk, if_pos rfl]
    exact hnode
  · rw [hstk, if_pos rfl]

/-- The loop on the root of the right subtree gives the waiting node its right child and goes on with that node. -/
theorem LeftRead.readsTree (h : s.LeftRead w l rest) (hrun : Runs c (1 + l.nodes) s w) (hn : s.nnodes < s.cfg.nodeCap)
    (hsp : s.sp ≤ s.nnodes) (hr : w.ReadsTree c r rest') : s.ReadsTree c (.node l r) rest' := by
  obtain ⟨u, hu, hlaid, hlink⟩ := hr
  have hall := h.made.trans hu (by rw [h.sp]; omega)
  have htop : u.stkAt s.sp = w.stkAt s.sp := hu.below s.sp (by rw [h.sp]; omega)
  have hnode : (u.stkAt s.sp).node = s.nnodes := by rw [htop, h.topNode]
  have hside : (u.stkAt s.sp).side = true := by rw [htop, h.topSide]
  have hroot : w.nnodes = s.nnodes + 1 + l.nodes := by rw [h.made.nnodes, Nat.add_assoc]
  have hself : u.nodeAt s.nnodes = w.nodeAt s.nnodes := hu.kept _ (by omega)
  have hturn := linkUp_of_right (d := w.nnodes) (s := u) (k := s.sp)
    (by rw [hall.cfg]; exact Nat.lt_of_le_of_lt hsp hn) (by rw [hall.cfg, hnode]; exact hn) hside
  rw [hnode] at hturn
  have hread := nodeAt_linkRight (k := s.sp) (d := w.nnodes) hu.nodeWf
  rw [hnode] at hread
  have hnodes : (Tree.node l r).nodes = 1 + l.nodes + r.nodes := rfl
  rw [h.sp] at hlink
  refine ⟨u.linkRight s.sp w.nnodes,
    { hall with
      kept := fun i hi => ((hread i).trans (if_neg hi.ne)).trans (hall.kept i hi)
      remaining := hall.remaining.of_inp_eq rfl
      nodeWf := Memory.wf_write _ hu.nodeWf _ _ },
    ⟨?_, ?_, ?_, ?_, ?_⟩, fun t ht => ?_⟩
  · rw [hread, if_pos rfl]
    exact (congrArg NodeEntry.leaf hself).trans h.leaf
  · rw [hread, if_pos rfl]
    exact (congrArg NodeEntry.left hself).trans h.left
  · rw [hread, if_pos rfl]
    exact hroot
  · exact h.laid.congr fun i hi hlt => ((hread i).trans (if_neg (by omega))).trans (hu.kept i (by omega))
  · rw [← hroot]
    exact hlaid.congr fun i hi _ => (hread i).trans (if_neg (by omega))
  · exact hrun.trans (hlink t (hturn.trans ht))

/-- `RD_TREE` takes one step per node of the tree whose header it reads (R156, R166). -/
theorem Undisturbed.readsTree (hs : s.Undisturbed c) (hp : s.phase = .rdTree) (hsp : s.sp ≤ s.nnodes)
    (hroom : s.nnodes + d.nodes ≤ s.cfg.nodeCap) (hr : s.Remaining (writeHeader d ++ rest)) :
    s.ReadsTree c d rest := by
  induction d generalizing s rest with
  | leaf x => exact hs.readsTree_leaf hp hroom hr
  | node l r ihl ihr =>
    rw [Tree.nodes] at hroom
    rw [writeHeader, List.cons_append, List.append_assoc] at hr
    have hn : s.nnodes < s.cfg.nodeCap := by omega
    obtain ⟨v, hinner, hv⟩ := hs.runs_innerToken hp hsp hn.ne hr
    have hleft := ihl hinner.undisturbed (hv.made.phase.trans hp) (by rw [hv.sp, hv.made.nnodes]; omega)
      (by rw [hv.made.nnodes, hv.made.cfg]; omega) hv.made.remaining
    obtain ⟨w, hrun, hw⟩ := hv.runs_left hn hsp hleft
    have hright := ihr hrun.undisturbed (hw.made.phase.trans hp) (by rw [hw.sp, hw.made.nnodes]; omega)
      (by rw [hw.made.nnodes, hw.made.cfg]; omega) hw.made.remaining
    exact hw.readsTree (hinner.trans hrun) hn hsp hright

/-- An internal node and its left subtree are read before the right one is (R156). -/
theorem Undisturbed.runs_leftSubtree (hs : s.Undisturbed c) (hp : s.phase = .rdTree) (hsp : s.sp ≤ s.nnodes)
    (hroom : s.nnodes + 1 + l.nodes ≤ s.cfg.nodeCap) (hr : s.Remaining (false :: (writeHeader l ++ rest))) :
    ∃ w, Runs c (1 + l.nodes) s w ∧ s.LeftRead w l rest := by
  have hn : s.nnodes < s.cfg.nodeCap := by omega
  obtain ⟨v, hinner, hv⟩ := hs.runs_innerToken hp hsp hn.ne hr
  have hleft := hinner.undisturbed.readsTree (d := l) (hv.made.phase.trans hp) (by rw [hv.sp, hv.made.nnodes]; omega)
    (by rw [hv.made.nnodes, hv.made.cfg]; exact hroom) hv.made.remaining
  obtain ⟨w, hrun, hw⟩ := hv.runs_left hn hsp hleft
  exact ⟨w, hinner.trans hrun, hw⟩

/-- Read from the start, a header makes a tree of its root and hands over to `DECODE` (R167). -/
theorem Undisturbed.runs_tree (hs : s.Undisturbed c) (hp : s.phase = .rdTree) (hsp : s.sp = 0) (hnn : s.nnodes = 0)
    (hroom : d.nodes ≤ s.cfg.nodeCap) (hr : s.Remaining (writeHeader d ++ rest)) :
    ∃ t, Runs c d.nodes s t ∧ t.phase = .decode ∧ t.cur = t.root ∧ (∃ fuel, t.treeAt fuel t.root = some d) ∧
      t.out = s.out ∧ t.Remaining rest := by
  obtain ⟨u, hu, hlaid, hlink⟩ := hs.readsTree hp (by omega) (by omega) hr
  rw [hsp, hnn] at hlink
  rw [hnn] at hlaid
  have hnodes : d.nodes ≤ u.nnodes := by rw [hu.nnodes]; omega
  refine ⟨State.treeDone 0 { u with sp := 0 }, hlink _ rfl, rfl, rfl, ⟨d.nodes, ?_⟩, (congrArg State.out hu.frame :),
    hu.remaining.of_inp_eq rfl⟩
  have hsame := treeAt_congr (t := State.treeDone 0 { u with sp := 0 }) (s := u) rfl rfl d.nodes 0
  exact hsame.trans (hlaid.treeAt (by omega) le_rfl)

/-! ### Headers that end or do not fit -/

/-- `t` is where the error `e` of `RD_TREE` leaves the machine (R166, R240). -/
structure Failed (s t : State) (e : ErrCode) : Prop where
  phase : t.phase = .fault
  errcode : t.errcode = e
  out : t.out = s.out

theorem Deserialized.failed {e : ErrCode} (h : s.Deserialized u n rest) (ht : u.Failed t e) : s.Failed t e :=
  ⟨ht.phase, ht.errcode, ht.out.trans (congrArg State.out h.frame :)⟩

/-- A full memory, before anything is read (R168). -/
theorem Undisturbed.runs_treeFull (hs : s.Undisturbed c) (hp : s.phase = .rdTree) (hn : s.nnodes = s.cfg.nodeCap) :
    ∃ t, Runs c 1 s t ∧ s.Failed t .treeOvf :=
  ⟨_, hs.runs_one hp (exec_phaseRdTree_full hn), rfl, rfl, rfl⟩

/-- A stream that ends before a token or inside it (R166). -/
theorem Undisturbed.runs_treeEnds (hs : s.Undisturbed c) (hp : s.phase = .rdTree) (hsp : s.sp ≤ s.nnodes)
    (hn : s.nnodes ≠ s.cfg.nodeCap) (h : s.Exhausted 1 ∨ (s.Offers 1#1 ∧ s.Exhausted 10)) :
    ∃ t, Runs c 1 s t ∧ s.Failed t .header := by
  obtain ⟨t, hx, herr, hphase, -, hframe⟩ := (rdTreeStep s hs.inv hsp).2.1 hn h
  exact ⟨t, hs.runs_one hp hx, hphase, herr, (congrArg State.out hframe :)⟩

/-- Where `readHeader` fails, `RD_TREE` raises its error within a step per bit left and one more. -/
theorem Undisturbed.runs_treeFails {depth room : Nat} {e : ErrCode} (hs : s.Undisturbed c) (hp : s.phase = .rdTree)
    (hsp : s.sp ≤ s.nnodes) (hroom : s.nnodes + room = s.cfg.nodeCap) (hdepth : room < depth) (hr : s.Remaining bits)
    (h : readHeaderIn depth room bits = .error e) : ∃ k t, k ≤ bits.length + 1 ∧ Runs c k s t ∧ s.Failed t e := by
  induction depth generalizing s room bits with
  | zero => exact absurd hdepth (Nat.not_lt_zero _)
  | succ depth ih =>
    cases room with
    | zero =>
      rw [readHeaderIn_full] at h
      cases h
      obtain ⟨t, hrun, ht⟩ := hs.runs_treeFull hp hroom
      exact ⟨1, t, by omega, hrun, ht⟩
    | succ room =>
      have hn : s.nnodes ≠ s.cfg.nodeCap := by omega
      obtain rfl | ⟨bits, rfl⟩ | ⟨bits, rfl, hshort⟩ | ⟨v, bits, rfl⟩ := treeToken_cases bits
      · cases h
        obtain ⟨t, hrun, ht⟩ := hs.runs_treeEnds hp hsp hn (.inl (hr.exhausted Nat.one_pos))
        exact ⟨1, t, by omega, hrun, ht⟩
      · cases hl : readHeaderIn depth room bits with
        | error e' =>
          rw [readHeaderIn_leftError hl] at h
          cases h
          obtain ⟨v, hinner, hv⟩ := hs.runs_innerToken hp hsp hn hr
          obtain ⟨k, t, hk, hrun, ht⟩ := ih hinner.undisturbed (hv.made.phase.trans hp)
            (by rw [hv.sp, hv.made.nnodes]; omega) (by rw [hv.made.nnodes, hv.made.cfg]; omega) (by omega)
            hv.made.remaining hl
          exact ⟨1 + k, t, by rw [List.length_cons]; omega, hinner.trans hrun, hv.made.failed ht⟩
        | ok x =>
          obtain ⟨l, bits', room'⟩ := x
          cases hright : readHeaderIn depth room' bits' with
          | ok y => rw [readHeaderIn_node hl hright] at h; cases h
          | error e' =>
            rw [readHeaderIn_rightError hl hright] at h
            cases h
            obtain ⟨rfl, rfl⟩ := eq_writeHeader_of_readHeaderIn hl
            have hlen := nodes_le_writeHeader_length l
            obtain ⟨w, hleft, hw⟩ := hs.runs_leftSubtree hp hsp (by omega) hr
            obtain ⟨k, t, hk, hrun, ht⟩ := ih hleft.undisturbed (hw.made.phase.trans hp)
              (by rw [hw.sp, hw.made.nnodes]; omega) (by rw [hw.made.nnodes, hw.made.cfg]; omega) (by omega)
              hw.made.remaining hright
            refine ⟨1 + l.nodes + k, t, ?_, hleft.trans hrun, hw.made.failed ht⟩
            rw [List.length_cons, List.length_append]
            omega
      · rw [readHeaderIn_shortLeaf hshort] at h
        cases h
        have hflag : s.Offers 1#1 := offers_of_unread (b := true) hr.eod hr.unread
        obtain ⟨t, hrun, ht⟩ :=
          hs.runs_treeEnds hp hsp hn (.inr ⟨hflag, hr.exhausted (by rw [List.length_cons]; omega)⟩)
        exact ⟨1, t, by omega, hrun, ht⟩
      · rw [readHeaderIn_leaf] at h
        cases h

end Sys2Proof.Machine.State
end

section
/-! The phase `DECODE` over a whole payload (R195, R201 to R204). -/

namespace Sys2Proof.Machine.State

open Contract

variable {c : Config} {s t : State} {l r d : Sys2Proof.Tree} {bits : List Bool} {written : List Byte} {fuel : Nat}

/-- The tree at the child of an internal node (R34, R202). -/
theorem treeAt_child {i : Nat} (h : s.treeAt fuel i = some (.node l r)) (b : Bool) :
    ∃ fuel, s.treeAt fuel ((s.nodeAt i).child b) = some (if b then r else l) := by
  obtain ⟨-, fuel', hleft, hright⟩ := treeAt_node h
  cases b
  · exact ⟨fuel', hleft⟩
  · exact ⟨fuel', hright⟩

/-- In `DECODE`, the walk is at a node that holds `d`, in a memory whose root holds `t`; `written` is in `OUT` and `bits`
are left to read. -/
structure Decoding (s : State) (t d : Sys2Proof.Tree) (written : List Byte) (bits : List Bool) : Prop where
  phase : s.phase = .decode
  root : ∃ fuel, s.treeAt fuel s.root = some t
  here : ∃ fuel, s.treeAt fuel s.cur = some d
  out : s.out = { bits := bytesToBits written, closed := false }
  remaining : s.Remaining bits

namespace Decoding

variable {x : Sys2Proof.Tree}

theorem openOut (h : s.Decoding x d written bits) : s.out.closed = false := congrArg OutChan.closed h.out

theorem cur_lt (h : s.Decoding x d written bits) (hinv : s.Inv) : s.cur < s.cfg.nodeCap := by
  obtain ⟨fuel, hd⟩ := h.here
  exact (treeAt_lt hd).trans_le hinv.widths.nnodes

theorem node_leaf (h : s.Decoding x (.node l r) written bits) : (s.nodeAt s.cur).leaf = false := by
  obtain ⟨fuel, hd⟩ := h.here
  exact (treeAt_node hd).1

/-- Another state of the same walk, at a node of the same memory. -/
theorem move {bits' : List Bool} {written' : List Byte} (h : s.Decoding x l written bits) (hp : t.phase = s.phase)
    (hnode : t.node = s.node) (hnn : t.nnodes = s.nnodes) (hroot : t.root = s.root)
    (hhere : ∃ fuel, s.treeAt fuel t.cur = some d) (ho : t.out = { bits := bytesToBits written', closed := false })
    (hr : t.Remaining bits') : t.Decoding x d written' bits' where
  phase := hp.trans h.phase
  root := by
    obtain ⟨fuel, hx⟩ := h.root
    exact ⟨fuel, by rw [hroot, treeAt_congr hnode hnn, hx]⟩
  here := by
    obtain ⟨fuel, hd⟩ := hhere
    exact ⟨fuel, by rw [treeAt_congr hnode hnn, hd]⟩
  out := ho
  remaining := hr

/-- The end of the stream (R201). -/
theorem runs_end (hs : s.Undisturbed c) (h : s.Decoding x (.node l r) written []) :
    ∃ t, Runs c 1 s t ∧ t.Ended (.trunc, written) := by
  have hrun := hs.runs_one h.phase
    (exec_phaseDecode_end (h.cur_lt hs.inv) h.node_leaf (h.remaining.exhausted Nat.one_pos))
  exact ⟨_, hrun, Ended.of_fault h.out hrun.undisturbed.inv rfl rfl⟩

section
variable {b : Bool} (hs : s.Undisturbed c) (h : s.Decoding x (.node l r) written (b :: bits))
include hs h

/-- One bit, one edge (R202). -/
theorem runs_edge :
    ∃ n, (∃ fuel, s.treeAt fuel n = some (if b then r else l)) ∧ Runs c 1 s (s.arrived n) ∧
      (s.arrived n).Remaining bits := by
  have hb : s.Offers (BitVec.ofBool b) := offers_of_unread h.remaining.eod h.remaining.unread
  obtain ⟨fuel, hd⟩ := h.here
  obtain ⟨fuel', hchild⟩ := treeAt_child hd b
  have hn := (treeAt_lt hchild).trans_le hs.inv.widths.nnodes
  refine ⟨_, ⟨fuel', hchild⟩, hs.runs_one h.phase (execPhaseDecode_edge (h.cur_lt hs.inv) h.node_leaf hb rfl hn), ?_⟩
  exact h.remaining.advanced (l := [b]) ((arrived_inp _ s).trans (hb.inAfter Nat.one_pos))

/-- The walk goes on in an internal node (R202). -/
theorem runs_inner {l' r' : Sys2Proof.Tree} (hsub : (if b then r else l) = .node l' r') :
    ∃ t, Runs c 1 s t ∧ t.Decoding x (.node l' r') written bits := by
  obtain ⟨n, ⟨fuel, hn⟩, hrun, hr⟩ := h.runs_edge hs
  rw [hsub] at hn
  rw [arrived_inner (treeAt_node hn).1] at hrun hr
  exact ⟨_, hrun, h.move rfl rfl rfl rfl ⟨fuel, hn⟩ h.out hr⟩

/-- On a leaf the walk acts on the leaf's symbol (R203). -/
theorem runs_leaf {v : Sym} (hsub : (if b then r else l) = .leaf v) :
    ∃ n, Runs c 1 s ((s.enter n).leafAction v) ∧ ((s.enter n).leafAction v).Remaining bits := by
  obtain ⟨n, ⟨fuel, hn⟩, hrun, hr⟩ := h.runs_edge hs
  rw [hsub] at hn
  obtain ⟨hl, rfl⟩ := treeAt_leaf hn
  rw [arrived_leaf hl] at hrun hr
  exact ⟨n, hrun, hr⟩

/-- A literal byte is written and the walk returns to the root (R203). -/
theorem runs_literal {v : Sym} (hsub : (if b then r else l) = .leaf v) (hv : v.toNat < 256) :
    ∃ t, Runs c 1 s t ∧ t.Decoding x x (written ++ [v.setWidth 8]) bits := by
  obtain ⟨n, hrun, hr⟩ := h.runs_leaf hs hsub
  rw [leafAction_literal hv] at hrun hr
  refine ⟨_, hrun, h.move rfl rfl rfl rfl h.root ?_ hr⟩
  refine (writeLiteral_out (s := s.enter n) h.openOut v).trans ?_
  show ({ s.out with bits := s.out.bits ++ msbFirst (v.setWidth 8) } : OutChan) = _
  rw [h.out, bytesToBits_append, msbFirst_eq, bytesToBits, bytesToBits, List.append_nil]

/-- The pseudo-EOF ends the operation (R203). -/
theorem runs_pseudoEof (hsub : (if b then r else l) = .leaf eofSym) :
    ∃ t, Runs c 1 s t ∧ t.Ended (.none, written) := by
  obtain ⟨n, hrun, -⟩ := h.runs_leaf hs hsub
  rw [leafAction_pseudoEof] at hrun
  exact ⟨_, hrun, Ended.of_done h.out hrun.undisturbed.inv rfl (closeOut_open (s := s.enter n) h.openOut)⟩

/-- A reserved symbol is an error (R203). -/
theorem runs_reserved {v : Sym} (hsub : (if b then r else l) = .leaf v) (hv : 256 < v.toNat) :
    ∃ t, Runs c 1 s t ∧ t.Ended (.symRange, written) := by
  obtain ⟨n, hrun, -⟩ := h.runs_leaf hs hsub
  rw [leafAction_reserved hv] at hrun
  exact ⟨_, hrun, Ended.of_fault h.out hrun.undisturbed.inv rfl rfl⟩

end

end Decoding

/-- `DECODE` takes a step per bit left at most, and one for the end of the stream; its outcome and its bytes are those of
the walk of the contract (R195). -/
theorem Undisturbed.ends_decode {tl tr : Sys2Proof.Tree} (hs : s.Undisturbed c)
    (h : s.Decoding (.node tl tr) (.node l r) written bits) :
    s.EndsWithin c (bits.length + 1)
      ((walk (.node tl tr) (.node l r) bits).1, written ++ (walk (.node tl tr) (.node l r) bits).2) := by
  induction bits generalizing s l r written with
  | nil =>
    obtain ⟨t, hrun, hended⟩ := h.runs_end hs
    rw [walk_nil, List.append_nil]
    exact ⟨1, t, le_rfl, hrun, hended⟩
  | cons b bits ih =>
    have hcount : 1 + (bits.length + 1) ≤ (b :: bits).length + 1 := by rw [List.length_cons]; omega
    cases hsub : (if b then r else l) with
    | node l' r' =>
      obtain ⟨u, hstep, hu⟩ := h.runs_inner hs hsub
      rw [walk_to_node hsub]
      exact .of_runs hstep (ih hstep.undisturbed hu) hcount
    | leaf v =>
      rw [walk_to_leaf hsub]
      obtain hlit | heof | hres := Nat.lt_trichotomy v.toNat 256
      · obtain ⟨u, hstep, hu⟩ := h.runs_literal hs hsub hlit
        have hends := ih hstep.undisturbed hu
        rw [List.append_assoc] at hends
        rw [arrival_literal hlit]
        exact .of_runs hstep hends hcount
      · obtain rfl : v = eofSym := BitVec.eq_of_toNat_eq heof
        obtain ⟨t, hrun, hended⟩ := h.runs_pseudoEof hs hsub
        rw [arrival_pseudoEof, List.append_nil]
        exact ⟨1, t, by omega, hrun, hended⟩
      · obtain ⟨t, hrun, hended⟩ := h.runs_reserved hs hsub hres
        rw [arrival_reserved hres, List.append_nil]
        exact ⟨1, t, by omega, hrun, hended⟩

end Sys2Proof.Machine.State
end

section
/-! A whole decompress (R195, R211, R275). -/

namespace Sys2Proof.Machine

open Contract

namespace State

variable {c : Config} {s : State} {bits : List Bool}

/-- A root that is a leaf ends the operation at once, before anything is written (R199). -/
theorem Undisturbed.ends_leafRoot {v : Sym} (hs : s.Undisturbed c) (hp : s.phase = .decode) (hcur : s.cur = s.root)
    (hd : ∃ fuel, s.treeAt fuel s.root = some (.leaf v)) (ho : s.out = { bits := [], closed := false }) :
    s.EndsWithin c 1 (if v = eofSym then (.none, []) else (.leafRoot, [])) := by
  obtain ⟨fuel, hd⟩ := hd
  rw [← hcur] at hd
  obtain ⟨hl, rfl⟩ := treeAt_leaf hd
  obtain ⟨heof, hother⟩ := decodeLeafRootStep s ((treeAt_lt hd).trans_le hs.inv.widths.nnodes) hl
    (congrArg OutChan.closed ho)
  split
  next hv =>
    obtain ⟨t, hx, hout, hpt, -⟩ := heof hv
    have hrun := hs.runs_one hp hx
    exact ⟨1, t, le_rfl, hrun, Ended.of_done (l := []) ho hrun.undisturbed.inv hpt hout⟩
  next hv =>
    have hrun := hs.runs_one hp (hother hv)
    exact ⟨1, _, le_rfl, hrun, Ended.of_fault (l := []) ho hrun.undisturbed.inv rfl rfl⟩

/-- From the header on (R195): a step per bit left at most, and one more. -/
theorem Undisturbed.ends_header (hs : s.Undisturbed c) (hp : s.phase = .rdTree) (hsp : s.sp = 0) (hnn : s.nnodes = 0)
    (ho : s.out = { bits := [], closed := false }) (hr : s.Remaining bits) :
    s.EndsWithin c (bits.length + 1) (decompress c (bitsMsb 32 c.magic.toNat ++ bits)) := by
  cases hread : readHeaderIn (c.nodeCap + 1) c.nodeCap bits with
  | error e =>
    have hheader : readHeader c bits = .error e := by rw [readHeader, hread]
    rw [decompress_headerError hheader]
    obtain ⟨k, t, hk, hrun, hphase, rfl, hout⟩ := hs.runs_treeFails hp (by omega)
      (by rw [hnn, Nat.zero_add, hs.cfg]) (Nat.lt_succ_self _) hr hread
    exact ⟨k, t, hk, hrun, Ended.of_fault (l := []) ho hrun.undisturbed.inv hphase hout⟩
  | ok x =>
    obtain ⟨d, rest, room⟩ := x
    have hheader : readHeader c bits = .ok (d, rest) := by rw [readHeader, hread]
    obtain ⟨rfl, hroom⟩ := eq_writeHeader_of_readHeaderIn hread
    obtain ⟨u, hrun, hpu, hcur, hroot, hout, hrest⟩ :=
      hs.runs_tree hp hsp hnn (by rw [hs.cfg, hroom]; exact Nat.le_add_right _ _) hr
    have hlen := nodes_le_writeHeader_length d
    have ho' := hout.trans ho
    rw [List.length_append]
    cases d with
    | leaf v =>
      rw [decompress_leafRoot hheader]
      exact .of_runs hrun (hrun.undisturbed.ends_leafRoot hpu hcur hroot ho') (by omega)
    | node l r =>
      rw [decompress_walk hheader]
      have hstart : u.Decoding (.node l r) (.node l r) [] rest := ⟨hpu, hroot, hcur ▸ hroot, ho', hrest⟩
      exact .of_runs hrun (hrun.undisturbed.ends_decode hstart) (by omega)

/-- A whole decompress, from its first step on (R195, R275). -/
theorem Undisturbed.ends_decompress (hs : s.Undisturbed c) (hp : s.phase = .rdMagic) (hnn : s.nnodes = 0)
    (ho : s.out = { bits := [], closed := false }) (hr : s.Remaining bits) :
    s.EndsWithin c (bits.length + 2) (decompress c bits) := by
  obtain ⟨hmagic, hother, hshort⟩ := rdMagicStep s
  obtain hlt | hge := Nat.lt_or_ge bits.length 32
  · obtain ⟨t, hx, herr, hpt, -, hframe⟩ := hshort (hr.exhausted hlt)
    have hrun := hs.runs_one hp hx
    rw [decompress_short hlt, ← herr]
    exact ⟨1, t, by omega, hrun, Ended.of_fault (l := []) ho hrun.undisturbed.inv hpt (congrArg State.out hframe :)⟩
  obtain ⟨w, rest, rfl⟩ := exists_bitsMsb_append hge
  have hoffer : s.Offers w := Remaining.offers (by rw [msbFirst_eq]; exact hr)
  by_cases hw : w = c.magic
  · subst hw
    obtain ⟨t, hx, hsp, hpt, hinp, hframe⟩ := hmagic (by rw [hs.cfg]; exact hoffer)
    have hrun := hs.runs_one hp hx
    have hrest : t.Remaining rest := hr.advanced (by rw [bitsMsb_length]; exact hinp)
    refine .of_runs hrun (hrun.undisturbed.ends_header hpt hsp ((congrArg State.nnodes hframe :).trans hnn)
      ((congrArg State.out hframe :).trans ho) hrest) ?_
    rw [List.length_append]
    omega
  · obtain ⟨t, hx, herr, hpt, -, hframe⟩ := hother w hoffer (by rw [hs.cfg]; exact hw)
    have hrun := hs.runs_one hp hx
    rw [decompress_otherWord hw, ← herr]
    exact ⟨1, t, by omega, hrun, Ended.of_fault (l := []) ho hrun.undisturbed.inv hpt (congrArg State.out hframe :)⟩

end State

/-- Settles O60: magic, header and payload are runs that follow on each other, and each ends as the contract says. -/
theorem decompressRefines : Obligations.DecompressRefines := by
  intro s bits hinv hpending hphase hin hout
  have haccepts : s.phase.accepts = true := by obtain e | e := hphase <;> rw [e] <;> rfl
  have hstart : (s.accept .decompress .rdMagic).Undisturbed s.cfg :=
    ⟨hinv.accept (by decide) (by decide) (fun _ => rfl), rfl, hpending⟩
  have hr : (s.accept .decompress .rdMagic).Remaining bits :=
    ⟨congrArg InChan.eod hin, by rw [State.accept_inp, hin]; rfl⟩
  obtain ⟨k, t, hk, hrun, hended⟩ := hstart.ends_decompress rfl rfl hout hr
  exact ⟨_, t, k, congrArg Host.Outcome.next (if_pos haccepts), hk, hrun.run, hended.errcode, hended.phase,
    hended.closed, hended.bits⟩

end Sys2Proof.Machine
end

section
/-! The command register (R216 to R221): the four commands by the class of `PHASE`; the phases without a step (R225). -/

namespace Sys2Proof

/-- The decoder takes the two low bits of a command word (R105). -/
theorem toNat_lowBits (v : Word) : (v.extractLsb' 0 2).toNat = v.toNat % 4 := by
  rw [BitVec.extractLsb'_toNat, Nat.shiftRight_zero]

theorem decodeCmd_nop {v : Word} (h : v.extractLsb' 0 2 = 0) : decodeCmd v = .nop := by
  have hv : v.toNat % 4 = 0 := by rw [← toNat_lowBits, h]; rfl
  rw [decodeCmd, if_pos hv]

theorem decodeCmd_compress {v : Word} (h : v.extractLsb' 0 2 = 1) : decodeCmd v = .compress := by
  have hv : v.toNat % 4 = 1 := by rw [← toNat_lowBits, h]; rfl
  rw [decodeCmd, hv]
  rfl

theorem decodeCmd_decompress {v : Word} (h : v.extractLsb' 0 2 = 2) : decodeCmd v = .decompress := by
  have hv : v.toNat % 4 = 2 := by rw [← toNat_lowBits, h]; rfl
  rw [decodeCmd, hv]
  rfl

theorem decodeCmd_eq_clear {v : Word} : decodeCmd v = .clear ↔ v.extractLsb' 0 2 = 3 := by
  rw [← BitVec.toNat_inj, toNat_lowBits]
  have hlt := Nat.mod_lt v.toNat (show 0 < 4 by decide)
  show _ ↔ v.toNat % 4 = 3
  unfold decodeCmd
  split_ifs <;> simp <;> omega

end Sys2Proof

namespace Sys2Proof.Machine

/-! ### The classes of `PHASE` -/

theorem Phase.accepts_eq_true {p : Phase} (h : p = .idle ∨ p = .done) : p.accepts = true := by
  obtain rfl | rfl := h <;> rfl

theorem Phase.accepts_eq_false {p : Phase} (h : p = .fault ∨ p.busy = true) : p.accepts = false := by
  obtain rfl | h := h
  · rfl
  · revert h; cases p <;> decide

theorem Phase.clears_eq_true {p : Phase} (h : p = .done ∨ p = .fault) : p.clears = true := by
  obtain rfl | rfl := h <;> rfl

theorem Phase.clears_eq_false {p : Phase} (hd : p ≠ .done) (hf : p ≠ .fault) : p.clears = false := by
  revert hd hf; cases p <;> decide

theorem Phase.ne_of_idle_or_busy {p : Phase} (h : p = .idle ∨ p.busy = true) : p ≠ .done ∧ p ≠ .fault := by
  obtain rfl | h := h
  · exact ⟨nofun, nofun⟩
  · constructor <;> rintro rfl <;> cases h

/-! ### The commands -/

variable {s t : State}

theorem exec_compress_accepted (h : s.phase = .idle ∨ s.phase = .done) :
    exec .compress s = .next (s.accept .compress .count) := congrArg _ (if_pos (Phase.accepts_eq_true h))

theorem exec_decompress_accepted (h : s.phase = .idle ∨ s.phase = .done) :
    exec .decompress s = .next (s.accept .decompress .rdMagic) := congrArg _ (if_pos (Phase.accepts_eq_true h))

theorem exec_compress_ignored (h : s.phase = .fault ∨ s.phase.busy = true) : exec .compress s = .next s :=
  congrArg _ (if_neg (Bool.eq_false_iff.mp (Phase.accepts_eq_false h)))

theorem exec_decompress_ignored (h : s.phase = .fault ∨ s.phase.busy = true) : exec .decompress s = .next s :=
  congrArg _ (if_neg (Bool.eq_false_iff.mp (Phase.accepts_eq_false h)))

theorem exec_clear_effective (h : s.phase = .done ∨ s.phase = .fault) : exec .clear s = .next s.acknowledge :=
  congrArg _ (if_pos (Phase.clears_eq_true h))

theorem exec_clear_ignored (hd : s.phase ≠ .done) (hf : s.phase ≠ .fault) : exec .clear s = .next s :=
  congrArg _ (if_neg (Bool.eq_false_iff.mp (Phase.clears_eq_false hd hf)))

/-- Acceptance of an operation is the initialisation of R219, whatever the mode and the first phase. -/
theorem State.accept_initialised (h : Memory.wf CodeEntry.zero s.code = true) (m : Mode) (p : Phase) :
    s.Initialised (s.accept m p) where
  freq := fun _ => rfl
  live := fun _ => rfl
  code := State.read_invalidate h
  nsym := rfl
  nnodes := rfl
  sp := rfl
  scan := rfl
  root := rfl
  cur := rfl
  errcode := rfl

/-- Settles O11, by the operation in the two low bits and the class of `PHASE`. -/
theorem commandTable : Obligations.CommandTable := by
  intro s v rest hwf hp u
  have hstep : step s = exec (decodeCmd v) u := step_regWrite_cmd hp
  rw [hstep]
  refine ⟨fun h => ?nop, fun h hs => ?compress, fun h hs => ?decompress, fun h hs => ?turnedAway, fun h hs => ?clear,
    fun h hs => ?notCleared⟩
  case nop => rw [decodeCmd_nop h]; rfl
  case compress =>
    rw [decodeCmd_compress h]
    exact ⟨_, exec_compress_accepted hs, State.accept_initialised (s := u) hwf _ _, rfl, rfl⟩
  case decompress =>
    rw [decodeCmd_decompress h]
    exact ⟨_, exec_decompress_accepted hs, State.accept_initialised (s := u) hwf _ _, rfl, rfl⟩
  case turnedAway =>
    obtain h | h := h
    · rw [decodeCmd_compress h]; exact exec_compress_ignored hs
    · rw [decodeCmd_decompress h]; exact exec_decompress_ignored hs
  case clear => rw [decodeCmd_eq_clear.mpr h]; exact exec_clear_effective hs
  case notCleared =>
    obtain ⟨hd, hf⟩ := Phase.ne_of_idle_or_busy hs
    rw [decodeCmd_eq_clear.mpr h]
    exact exec_clear_ignored hd hf

/-- Settles O12: the state accepted has the phase and the mode that the flags and `STATUS` are read off. -/
theorem compressAccepted : Obligations.CompressAccepted := fun _ hwf hs =>
  ⟨_, exec_compress_accepted hs, State.accept_initialised hwf _ _, rfl, rfl, rfl, rfl, rfl, rfl, rfl⟩

/-- Settles O13, as O12. -/
theorem decompressAccepted : Obligations.DecompressAccepted := fun _ hwf hs =>
  ⟨_, exec_decompress_accepted hs, State.accept_initialised hwf _ _, rfl, rfl, rfl, rfl, rfl, rfl, rfl⟩

/-- Settles O14, by whether `CLEAR` is effective in the phase. -/
theorem nopAndClear : Obligations.NopAndClear := fun _ =>
  ⟨rfl, fun hs => ⟨_, exec_clear_effective hs, rfl, rfl, rfl⟩, exec_clear_ignored⟩

/-! ### The phases without a step -/

/-- In a resting phase the sequencer's slot leaves the state as it is (R225). -/
theorem exec_phase_resting (h : s.phase = .idle ∨ s.phase = .done ∨ s.phase = .fault) :
    exec (phaseInstr s.phase) s = .next s := by
  obtain h | h | h := h <;> rw [h] <;> rfl

/-- Settles O49: with no host access waiting the step is the sequencer's slot. -/
theorem restingPhases : Obligations.RestingPhases := fun _ =>
  ⟨rfl, rfl, rfl, fun hp hs => (step_idleHost hp).trans (exec_phase_resting hs)⟩

/-! ### Leaving `FAULT` -/

/-- A transaction of the channels moves no phase (R62 to R66). -/
theorem State.transact_phase (s : State) (i : Instr) : (s.transact i).phase = s.phase := by
  cases i <;> rfl

/-- In `FAULT` a command other than `CLEAR` does nothing (R216). -/
theorem exec_command_fault {v : Word} (hs : s.phase = .fault) (hx : exec (decodeCmd v) s = .next t) :
    t = s ∨ v.extractLsb' 0 2 = 3 ∧ t = s.acknowledge := by
  obtain e | e | e | e := decodeCmd_cases v <;> rw [e] at hx
  · cases hx; exact .inl rfl
  · cases (exec_compress_ignored (.inl hs)).symm.trans hx; exact .inl rfl
  · cases (exec_decompress_ignored (.inl hs)).symm.trans hx; exact .inl rfl
  · cases (exec_clear_effective (.inr hs)).symm.trans hx; exact .inr ⟨decodeCmd_eq_clear.mp e, rfl⟩

/-- Settles O15, by the slot the step takes: every slot but `CLEAR` and the two resets leaves `PHASE` as it is. -/
theorem faultIsLeftOnlyByClearOrReset : Obligations.FaultIsLeftOnlyByClearOrReset := by
  intro s t hs hx hne
  have hrest {u : State} (hu : u.phase = .fault) (hx : exec (phaseInstr u.phase) u = .next t) : t.phase = .fault := by
    cases (exec_phase_resting (.inr (.inr hu))).symm.trans hx
    exact hu
  rcases hp : s.pending with _ | ⟨e, rest⟩
  · rw [step_idleHost hp] at hx
    exact absurd (hrest hs hx) hne
  cases e with
  | seq =>
    rw [step_seq hp] at hx
    exact absurd (hrest (u := { s with pending := rest }) hs hx) hne
  | regWrite k v =>
    by_cases hk : k = 0
    · subst hk
      rw [step_regWrite_cmd hp] at hx
      obtain rfl | ⟨hv, rfl⟩ := exec_command_fault (s := { s with pending := rest }) hs hx
      · exact absurd hs hne
      · exact ⟨rfl, rfl, _, _, rfl, .inr (.inr ⟨v, rfl, hv⟩)⟩
    · cases (step_regWrite_readOnly hk hp).symm.trans hx
      exact absurd hs hne
  | regRead k =>
    cases (step_regRead hp).symm.trans hx
    exact absurd hs hne
  | reset =>
    cases (step_reset hp).symm.trans hx
    exact ⟨rfl, rfl, _, _, rfl, .inl rfl⟩
  | resetDuring k =>
    obtain ⟨u, -, rfl⟩ := cutByReset_next ((step_resetDuring hp).symm.trans hx)
    exact ⟨rfl, rfl, _, _, rfl, .inr (.inl ⟨k, rfl⟩)⟩
  | launch b =>
    cases (step_launch hp).symm.trans hx
    exact absurd hs hne
  | swapIn b =>
    cases (step_swapIn hp).symm.trans hx
    exact absurd hs hne
  | chan w =>
    cases hw : decodeChan w with
    | ok i =>
      rw [step_chan hp hw] at hx
      rw [exec_transaction_next hw hx, State.transact_phase] at hne
      exact absurd hs hne
    | error e => cases (step_chan_refused hp hw).symm.trans hx

end Sys2Proof.Machine
end

section
/-! The sound states (`Sound`) as one entry condition per phase (R32, R123, R124, R139, R163, R165, R169), and what outside
a phase's own step keeps them: acts of the host and the environment, commands, and reset. -/

namespace Sys2Proof.Machine

namespace State

variable {s t : State} {p : Phase}

/-- What phase `p` finds. -/
def Entry (s : State) : Phase → Prop
  | .idle | .done | .fault => True
  | .count => s.live = [] ∧ s.nnodes = 0 ∧ ∀ i, s.freqAt i ≤ s.nsym
  | .buildInit => s.freqAt 256 = 1 ∧ s.nnodes ≤ s.scan.toNat ∧ s.popcount = s.nnodes ∧ s.LiveAllocated ∧ s.Built
  | .buildMerge => s.freqAt 256 = 1 ∧ 1 ≤ s.popcount ∧ s.nnodes + s.popcount ≤ 514 ∧ s.LiveAllocated ∧ s.Built
  | .wrMagic => s.live = [] ∧ s.freqAt 256 = 1 ∧ s.root < s.nnodes ∧ s.Built
  | .derive | .wrTree => s.live = [] ∧ s.freqAt 256 = 1 ∧ s.root < s.nnodes ∧ s.Built ∧ s.StackFits
  | .rewind | .encode | .wrEof | .close => s.live = [] ∧ s.freqAt 256 = 1
  | .rdMagic => s.live = [] ∧ s.nnodes = 0 ∧ s.sp = 0
  | .rdTree => s.live = [] ∧ s.Reading
  | .decode => s.live = [] ∧ s.cur < s.nnodes ∧ s.root < s.nnodes ∧ ∀ i, i < s.nnodes → s.Complete i

namespace Sound

theorem entry (h : s.Sound) (hp : s.phase = p) : s.Entry p := by
  subst hp
  have hlive := h.unqueued
  have hfreq := h.pseudoEof
  cases hp : s.phase <;> rw [hp] at hlive hfreq
  case idle | done | fault => trivial
  case count => exact ⟨hlive rfl, h.counting hp⟩
  case buildInit => exact ⟨hfreq rfl, h.inserting hp⟩
  case buildMerge => exact ⟨hfreq rfl, h.merging hp⟩
  case derive =>
    obtain ⟨hroot, hbuilt⟩ := h.traversing (.inl hp)
    exact ⟨hlive rfl, hfreq rfl, hroot, hbuilt, h.stacked (.inl hp)⟩
  case wrMagic => exact ⟨hlive rfl, hfreq rfl, h.traversing (.inr (.inl hp))⟩
  case wrTree =>
    obtain ⟨hroot, hbuilt⟩ := h.traversing (.inr (.inr hp))
    exact ⟨hlive rfl, hfreq rfl, hroot, hbuilt, h.stacked (.inr hp)⟩
  case rewind | encode | wrEof | close => exact ⟨hlive rfl, hfreq rfl⟩
  case rdMagic => exact ⟨hlive rfl, h.starting hp⟩
  case rdTree => exact ⟨hlive rfl, h.reading hp⟩
  case decode => exact ⟨hlive rfl, h.walking hp⟩


end Sound

/-- In a busy phase outside the builder's no node is live (R32). -/
theorem Entry.live (h : s.Entry p) (hp : p.unqueued = true) : s.live = [] := by
  cases p
  case idle | buildInit | buildMerge | done | fault => exact absurd hp (by decide)
  case count | derive | wrMagic | wrTree | rewind | encode | wrEof | close | rdMagic | rdTree | decode => exact h.1

/-- After `COUNT` the pseudo-EOF symbol has its count (R124). -/
theorem Entry.pseudoEof (h : s.Entry p) (hp : p.counted = true) : s.freqAt 256 = 1 := by
  cases p
  case idle | count | rdMagic | rdTree | decode | done | fault => exact absurd hp (by decide)
  case buildInit | buildMerge => exact h.1
  case derive | wrMagic | wrTree => exact h.2.1
  case rewind | encode | wrEof | close => exact h.2

/-- Every transaction word that waits on the host's list is one of the contract (R67). -/
def TransactionsDefined (s : State) : Prop := ∀ w, HostEvent.chan w ∈ s.pending → ∃ i, decodeChan w = .ok i ∧ i.wf = true

/-- With the invariant and defined transactions, the entry condition of the phase is all of `Sound`. -/
theorem Sound.of_entry (hinv : s.Inv) (hdefined : s.TransactionsDefined) (h : s.Entry s.phase) : s.Sound := by
  have at_phase {q : Phase} (hq : s.phase = q) : s.Entry q := hq ▸ h
  exact
    { inv := hinv
      transactions := hdefined
      unqueued := h.live
      pseudoEof := h.pseudoEof
      counting := fun hq => (at_phase hq).2
      inserting := fun hq => (at_phase hq).2
      merging := fun hq => (at_phase hq).2
      traversing := by
        rintro (hq | hq | hq) <;> obtain ⟨-, -, hroot, hbuilt⟩ := at_phase hq
        · exact ⟨hroot, hbuilt.1⟩
        · exact ⟨hroot, hbuilt⟩
        · exact ⟨hroot, hbuilt.1⟩
      stacked := by
        rintro (hq | hq) <;> obtain ⟨-, -, -, -, hstack⟩ := at_phase hq <;> exact hstack
      starting := fun hq => (at_phase hq).2
      reading := fun hq => (at_phase hq).2
      walking := fun hq => (at_phase hq).2 }

namespace Sound

/-! ### The host and the environment -/

/-- What is outside the core may change freely, but the cursor stays inside `IN` (R61). -/
theorem setEnvironment (h : s.Sound) {i : InChan} (hi : i.pos ≤ i.bits.length) (o : OutChan)
    (log : List (ChanReq × ChanResp)) (reads : List (Nat × Word)) (ctr : Nat) :
    ({ s with inp := i, out := o, chanLog := log, hostReads := reads, freeCtr := ctr } : State).Sound :=
  { h with inv := h.inv.setEnvironment hi o log reads s.pending ctr }

/-- The host's list advances (log 6). -/
theorem advance (h : s.Sound) {e : HostEvent} {rest : List HostEvent} (hp : s.pending = e :: rest) :
    ({ s with pending := rest } : State).Sound :=
  { h with
    inv := h.inv.setPending rest
    transactions := fun w hw => h.transactions w (hp ▸ List.mem_cons_of_mem e hw) }

theorem hostRead (h : s.Sound) (k : Nat) : (s.hostRead k).Sound := h.setEnvironment h.inv.cursor ..

theorem launch (h : s.Sound) (b : List Byte) : (s.launch b).Sound :=
  h.setEnvironment (i := { bits := bytesToBits b, pos := 0, eod := false }) (Nat.zero_le _) ..

theorem swapIn (h : s.Sound) (b : List Byte) : (s.swapIn b).Sound := h.setEnvironment (Nat.min_le_right _ _) ..

/-- A transaction of another agent touches the channels only (log 19). -/
theorem transact (h : s.Sound) (i : Instr) : (s.transact i).Sound := by
  unfold State.transact
  split
  · exact h.setEnvironment (by rw [inAfter_bits]; exact inAfter_pos_le s _) ..
  · exact h.setEnvironment (i := { s.inp with pos := 0, eod := false }) (Nat.zero_le _) ..
  · exact h.setEnvironment h.inv.cursor ..
  · exact h.setEnvironment h.inv.cursor ..
  all_goals exact h

theorem replay (h : s.Sound) (ws : List ChanReq) : (replay ws s).Sound := by
  induction ws generalizing s with
  | nil => exact h
  | cons w ws ih =>
    unfold State.replay
    split
    · exact ih (h.transact _)
    · exact ih h

/-! ### Reset and the commands -/

/-- A reset in any phase leads to `IDLE`, which asks for nothing (R260). -/
theorem resetEvent (h : s.Sound) : s.resetEvent.Sound := .of_entry h.inv.resetEvent h.transactions trivial

theorem acknowledge (h : s.Sound) : s.acknowledge.Sound := .of_entry h.inv.acknowledge h.transactions trivial

/-- The initialisation is what `COUNT` finds (R217, R219). -/
theorem acceptCompress (h : s.Sound) : (s.accept .compress .count).Sound :=
  .of_entry (h.inv.accept nofun (fun _ => rfl) nofun) h.transactions ⟨rfl, rfl, fun _ => Nat.le_refl 0⟩

/-- The initialisation is what `RD_MAGIC` finds (R218, R219). -/
theorem acceptDecompress (h : s.Sound) : (s.accept .decompress .rdMagic).Sound :=
  .of_entry (h.inv.accept nofun nofun (fun _ => rfl)) h.transactions ⟨rfl, rfl, rfl⟩

/-- A command written by the host (R216). -/
theorem exec_command (h : s.Sound) (v : Word) : ∃ t, exec (decodeCmd v) s = .next t ∧ t.Sound := by
  obtain e | e | e | e := decodeCmd_cases v <;> rw [e] <;> refine ⟨_, rfl, ?_⟩
  · exact h
  · split
    · exact h.acceptCompress
    · exact h
  · split
    · exact h.acceptDecompress
    · exact h
  · split
    · exact h.acknowledge
    · exact h

end Sound

end State

end Sys2Proof.Machine
end

section
/-! A compress never stops: from what a phase finds, its step answers a next state, which is what the phase it is in
finds. -/

namespace Sys2Proof.Machine

open State

variable {s t : State} {p : Phase} {k : Nat}

/-- The outcome is a next state, and that state is what its own phase finds. -/
def Continues (r : Result) : Prop := ∃ t : State, r = .next t ∧ t.Entry t.phase

theorem Continues.intro {r : Result} (hr : r = .next t) (hp : t.phase = p) (h : t.Entry p) : Continues r :=
  ⟨t, hr, hp ▸ h⟩

/-- The two outcomes of a read (R62). -/
theorem State.exhausted_or_offers (s : State) (n : Nat) : s.Exhausted n ∨ ∃ v : BitVec n, s.Offers v := by
  cases h : s.canRead n with
  | false => exact .inl (exhausted_iff.mpr h)
  | true => exact .inr ⟨_, offers_of_canRead h⟩

/-! ### What does not depend on the rest of the state -/

theorem State.freqAt_congr (h : t.freq = s.freq) (i : Nat) : t.freqAt i = s.freqAt i := congrArg (Memory.read 0 · i) h

theorem State.Built.congr (h : s.Built) (hnode : t.node = s.node) (hnn : t.nnodes = s.nnodes) : t.Built := by
  intro i hi
  rw [nodeAt, hnode]
  exact h i (hnn ▸ hi)

/-! ### `COUNT` -/

/-- With no node allocated there is nothing to ask of the nodes. -/
theorem State.built_of_no_nodes (h : s.nnodes = 0) : s.Built := fun i hi => absurd (h ▸ hi) i.not_lt_zero

theorem State.popcount_of_live_nil (h : s.live = []) : s.popcount = 0 := by rw [popcount, h]; rfl

theorem State.liveAllocated_of_live_nil (h : s.live = []) : s.LiveAllocated := by
  intro i hi
  rw [liveAt, h] at hi
  cases hi

theorem State.Sound.count (h : s.Sound) (hp : s.phase = .count) : Continues (exec .phaseCount s) := by
  obtain ⟨hlive, hnn, hle⟩ := h.entry hp
  have hwf : Memory.wf 0 (s.afterRead 8).freq = true := h.inv.memories.freqWf
  obtain he | ⟨r, hr⟩ := s.exhausted_or_offers 8
  · exact .intro (exec_phaseCount_end he) rfl ⟨(freqAt_countEnd hwf 256).trans (if_pos rfl), hnn.le,
      (popcount_of_live_nil hlive).trans hnn.symm, liveAllocated_of_live_nil hlive, built_of_no_nodes hnn⟩
  by_cases hn : s.nsym = s.cfg.maxInput
  · exact .intro (exec_phaseCount_tooLong hr hn) rfl trivial
  · have hlt : s.nsym < s.cfg.maxInput := Nat.lt_of_le_of_ne h.inv.widths.nsym hn
    refine .intro (exec_phaseCount_byte hr hn) hp ⟨hlive, hnn, fun i => ?_⟩
    have hnsym : ((s.afterRead 8).countByte r.toNat).nsym = s.nsym + 1 := cntAdd_one_of_lt hlt
    have hbyte : (s.afterRead 8).cntAdd (s.freqAt r.toNat) 1 = s.freqAt r.toNat + 1 :=
      cntAdd_one_of_lt (s := s) (Nat.lt_of_le_of_lt (hle _) hlt)
    rw [freqAt_countByte hwf, hnsym]
    split
    · exact hbyte.trans_le (Nat.succ_le_succ (hle _))
    · exact (hle i).trans s.nsym.le_succ

/-! ### `BUILD_INIT` and `BUILD_MERGE` -/

/-- A new node that is live is allocated. -/
theorem State.LiveAllocated.insert (h : s.LiveAllocated) (hlive : ∀ i, t.liveAt i = true → i = s.nnodes ∨ s.liveAt i = true)
    (hnn : t.nnodes = s.nnodes + 1) : t.LiveAllocated := by
  intro i hi
  rw [hnn]
  obtain rfl | hi := hlive i hi
  · exact Nat.lt_succ_self _
  · exact Nat.lt_succ_of_lt (h i hi)

theorem State.LiveAllocated.liveAt_nnodes (h : s.LiveAllocated) : s.liveAt s.nnodes = false :=
  Bool.eq_false_iff.mpr fun hlive => Nat.lt_irrefl _ (h _ hlive)

/-- A new node that is the builder's leaves the nodes the builder's (R139). -/
theorem State.Built.insert {n : NodeEntry} (h : s.Built)
    (hnode : ∀ i, t.nodeAt i = if i = s.nnodes then n else s.nodeAt i) (hnn : t.nnodes = s.nnodes + 1)
    (hleaf : n.leaf = true → n.sym.toNat ≤ 256) (hinner : n.leaf = false → n.left < s.nnodes ∧ n.right < s.nnodes) :
    t.Built := by
  intro i hi
  rw [hnode]
  split
  · subst i
    exact ⟨hleaf, hinner⟩
  · exact h i (by omega)

theorem toNat_scan_succ {v : Sym} (h : v.toNat ≤ 256) : (v + 1).toNat = v.toNat + 1 := by bv_omega

/-- The end of a step of `BUILD_INIT`: the next symbol has room, and after the last there is a live node (R133). -/
theorem State.continues_nextSymbol (hp : s.phase = .buildInit) (hfreq : s.freqAt 256 = 1) (hscan : s.scan.toNat ≤ 256)
    (hle : s.nnodes ≤ s.scan.toNat + 1) (hlast : s.scan = eofSym → s.nnodes ≠ 0) (hpop : s.popcount = s.nnodes)
    (halloc : s.LiveAllocated) (hbuilt : s.Built) : Continues (.next s.nextSymbol) := by
  obtain ⟨heof, e⟩ | ⟨-, e⟩ := nextSymbol_cases s <;> rw [e]
  · have hpos := hlast heof
    have hnn : s.nnodes ≤ 257 := by rw [heof] at hle; exact hle
    exact .intro rfl rfl ⟨hfreq, show 1 ≤ s.popcount by omega, show s.nnodes + s.popcount ≤ 514 by omega, halloc, hbuilt⟩
  · exact .intro rfl hp ⟨hfreq, hle.trans_eq (toNat_scan_succ hscan).symm, hpop, halloc, hbuilt⟩

theorem State.Sound.buildInit (h : s.Sound) (hp : s.phase = .buildInit) : Continues (exec .phaseBuildInit s) := by
  obtain ⟨hfreq, hle, hpop, halloc, hbuilt⟩ := h.entry hp
  have hscan := h.inv.widths.scan
  by_cases hf : s.freqAt s.scan.toNat = 0
  · have hne : s.scan ≠ eofSym := by
      intro heof
      rw [heof, show eofSym.toNat = 256 from rfl] at hf
      omega
    rw [exec_phaseBuildInit_noLeaf hscan hf]
    exact continues_nextSymbol hp hfreq hscan (by omega) (fun heof => absurd heof hne) hpop halloc hbuilt
  · have hcap : s.nnodes < s.cfg.nodeCap := by
      have := h.inv.nodeCap_ge
      omega
    have hnn := insertNode_nnodes_of_lt (s := s.setNode s.nnodes s.builtLeaf) hcap
    have hnode := nodeAt_setNode h.inv.memories.nodeWf s.nnodes (v := s.builtLeaf)
    have hlive := liveAt_insertNode (s := s.setNode s.nnodes s.builtLeaf) h.inv.memories.liveWf
    rw [exec_phaseBuildInit_leaf hscan hf hcap]
    refine continues_nextSymbol hp hfreq hscan ?_ (fun _ => ?_) ?_ (halloc.insert (fun i hi => ?_) hnn)
      (hbuilt.insert hnode hnn (fun _ => hscan) nofun)
    · rw [hnn]; exact Nat.succ_le_succ hle
    · rw [hnn]; exact Nat.succ_ne_zero _
    · rw [hnn]
      exact (popcount_setLive_true h.inv.memories.liveWf halloc.liveAt_nnodes).trans (congrArg (· + 1) hpop)
    · rw [hlive] at hi
      split at hi
      · exact .inl ‹_›
      · exact .inr hi

/-- With a node live there is a least live node (R134). -/
theorem State.exists_minlive (h : Memory.wf false s.live = true) (hpop : s.popcount ≠ 0) :
    ∃ i, s.minlive = some i ∧ s.liveAt i = true := by
  cases hmin : s.minlive with
  | none => exact absurd ((popcount_eq_zero h).mpr ((minlive_eq_none h).mp hmin)) hpop
  | some i => exact ⟨i, rfl, ((minlive_eq_some h).mp hmin).1⟩

/-- In canonical form `LIVE` lists the live nodes only. -/
theorem State.live_eq_nil (h : Memory.wf false s.live = true) (hpop : s.popcount = 0) : s.live = [] := by
  have hall : ∀ e ∈ s.live, e.2 = true := fun e he => Bool.ne_false_iff.mp (Memory.wf_ne_default false h e he)
  rw [popcount, List.filter_eq_self.mpr hall] at hpop
  exact List.length_eq_zero_iff.mp hpop

/-- The root alone on the stack fits (R163). -/
theorem State.stackFits_start (hsp : s.sp = 1) (htop : s.stkAt 0 = StkEntry.start s.root) : s.StackFits := by
  intro j hj
  obtain rfl : j = 0 := by omega
  rw [htop]
  exact Nat.le_refl _

/-- The finishing step takes the last node out of the priority structure (R135). -/
theorem State.Sound.finish {a : Nat} (h : s.Sound) (hp : s.phase = .buildMerge) (hmin : s.minlive = some a)
    (ha : s.liveAt a = true) (hpop : s.popcount = 1) : Continues (exec .phaseBuildMerge s) := by
  obtain ⟨hfreq, -, -, halloc, hbuilt⟩ := h.entry hp
  have hwf := h.inv.memories.liveWf
  have hnone : (s.setLive a false).live = [] :=
    live_eq_nil (wf_setLive hwf a false) (Nat.succ_injective ((popcount_setLive_false hwf ha).trans hpop))
  have htop := (stkAt_finished (r := a) h.inv.memories.stkWf 0).trans (if_pos rfl)
  exact .intro (exec_phaseBuildMerge_finish hmin hpop h.inv.stackCap_pos) rfl
    ⟨hnone, hfreq, halloc a ha, hbuilt, stackFits_start rfl htop⟩

/-- A merge takes two nodes out of the priority structure and puts one in (R135). -/
theorem State.Sound.merge {a : Nat} (h : s.Sound) (hp : s.phase = .buildMerge) (hmin : s.minlive = some a)
    (ha : s.liveAt a = true) (hpop : s.popcount ≠ 1) : Continues (exec .phaseBuildMerge s) := by
  obtain ⟨hfreq, hpos, hroom, halloc, hbuilt⟩ := h.entry hp
  have hwf := h.inv.memories.liveWf
  have hwfA := wf_setLive hwf a false
  have hpopA := popcount_setLive_false hwf ha
  obtain ⟨b, hnext, hb⟩ := exists_minlive hwfA (by omega)
  have hpopB := popcount_setLive_false hwfA hb
  have hcap : s.nnodes < s.cfg.nodeCap := by
    have := h.inv.nodeCap_ge
    omega
  have hnn : (s.merged a b).nnodes = s.nnodes + 1 := idxInc_of_lt hcap
  have hlive := liveAt_merged (a := a) (b := b) hwf
  have hb := ((liveAt_setLive_false hwf).mp hb).2
  have hnew : ((s.setLive a false).setLive b false).liveAt s.nnodes = false :=
    Bool.eq_false_iff.mpr fun hi => by
      obtain ⟨-, hi⟩ := (liveAt_setLive_false hwfA).mp hi
      exact Nat.lt_irrefl _ (halloc _ ((liveAt_setLive_false hwf).mp hi).2)
  have hpopN : (s.merged a b).popcount = ((s.setLive a false).setLive b false).popcount + 1 :=
    popcount_setLive_true (wf_setLive hwfA b false) hnew
  have hframe := merged_frame s a b
  refine .intro (exec_phaseBuildMerge_merge hmin hpop hnext hcap) ((congrArg State.phase hframe :).trans hp)
    ⟨(freqAt_congr (congrArg State.freq hframe :) 256).trans hfreq, by omega, by omega, halloc.insert (fun i hi => ?_) hnn,
      hbuilt.insert (nodeAt_merged h.inv.memories.nodeWf) hnn nofun fun _ => ⟨halloc a ha, halloc b hb⟩⟩
  rw [hlive] at hi
  split_ifs at hi
  · exact .inl ‹_›
  · exact .inr hi

theorem State.Sound.buildMerge (h : s.Sound) (hp : s.phase = .buildMerge) : Continues (exec .phaseBuildMerge s) := by
  obtain ⟨-, hpos, -⟩ := h.entry hp
  obtain ⟨a, hmin, ha⟩ := exists_minlive h.inv.memories.liveWf (Nat.ne_of_gt hpos)
  by_cases hpop : s.popcount = 1
  · exact h.finish hp hmin ha hpop
  · exact h.merge hp hmin ha hpop

/-! ### The traversals of `DERIVE` and `WR_TREE` -/

theorem State.StackFits.pop (h : s.StackFits) (hsp : s.sp = k + 1) (hstk : t.stk = s.stk) (ht : t.sp = k)
    (hroot : t.root = s.root) : t.StackFits := by
  intro j hj
  rw [stkAt, hstk, hroot]
  exact h j (by omega)

/-- The children of the node on top take its place: both have smaller indices (R139, R163). -/
theorem State.StackFits.push {l r : Nat} (h : s.StackFits) (hsp : s.sp = k + 1) (hl : l < (s.stkAt k).node)
    (hr : r < (s.stkAt k).node) (ht : t.sp = k + 2) (hroot : t.root = s.root)
    (hstk : ∀ i, (t.stkAt i).node = if i = k + 1 then l else if i = k then r else (s.stkAt i).node) : t.StackFits := by
  intro j hj
  have htop := h k (by omega)
  rw [hstk, hroot]
  split_ifs with hj1 hjk
  · omega
  · omega
  · exact h j (by omega)

/-- The node on top of a stack that fits is allocated. -/
theorem State.StackFits.top_lt (h : s.StackFits) (hsp : s.sp = k + 1) (hroot : s.root < s.nnodes) :
    (s.stkAt k).node < s.nnodes := by
  have := h k (by omega)
  omega

/-- Above an internal node on top there is room for one entry more (R163). -/
theorem State.StackFits.succ_lt_stackCap {l : Nat} (h : s.StackFits) (hinv : s.Inv) (hsp : s.sp = k + 1)
    (hroot : s.root < s.nnodes) (hl : l < (s.stkAt k).node) : k + 1 < s.cfg.stackCap := by
  have htop := h k (by omega)
  have hcap : s.nnodes ≤ s.cfg.stackCap := hinv.widths.nnodes
  omega

theorem State.Sound.derive (h : s.Sound) (hp : s.phase = .derive) : Continues (exec .phaseDerive s) := by
  obtain ⟨hlive, hfreq, hroot, hbuilt, hfits⟩ := h.entry hp
  cases hsp : s.sp with
  | zero => exact .intro (exec_phaseDerive_empty hsp) rfl ⟨hlive, hfreq, hroot, hbuilt⟩
  | succ k =>
    have hnn := hfits.top_lt hsp hroot
    have hn := hnn.trans_le h.inv.widths.nnodes
    obtain ⟨hsym, hchildren⟩ := hbuilt _ hnn
    cases hl : (s.nodeAt (s.stkAt k).node).leaf with
    | true =>
      exact .intro (exec_phaseDerive_leaf hsp (h.inv.top_lt_stackCap hsp) hn hl (hsym hl)) hp
        ⟨hlive, hfreq, hroot, hbuilt, hfits.pop hsp rfl rfl rfl⟩
    | false =>
      obtain ⟨hleft, hright⟩ := hchildren hl
      refine .intro (exec_phaseDerive_internal hsp hn hl (hfits.succ_lt_stackCap h.inv hsp hroot hleft)) hp
        ⟨hlive, hfreq, hroot, hbuilt, hfits.push hsp hleft hright rfl rfl fun i => ?_⟩
      rw [stkAt_pushedChildren h.inv.memories.stkWf]
      split_ifs <;> rfl

theorem State.Sound.wrMagic (h : s.Sound) (hp : s.phase = .wrMagic) : Continues (exec .phaseWrMagic s) := by
  obtain ⟨hlive, hfreq, hroot, hbuilt⟩ := h.entry hp
  have htop := (stkAt_magicWritten h.inv.memories.stkWf 0).trans (if_pos rfl)
  exact .intro (exec_phaseWrMagic h.inv.stackCap_pos) rfl ⟨hlive, hfreq, hroot, hbuilt, stackFits_start rfl htop⟩

/-- The write of node fields of the stack moves nothing else. -/
theorem State.pushedNodes_frame (s : State) (k : Nat) (n : NodeEntry) :
    { s.pushedNodes k n with stk := s.stk, sp := s.sp } = s := by
  simp only [pushedNodes, setStkNode, setStk]

theorem State.Sound.wrTree (h : s.Sound) (hp : s.phase = .wrTree) : Continues (exec .phaseWrTree s) := by
  obtain ⟨hlive, hfreq, hroot, hbuilt, hfits⟩ := h.entry hp
  cases hsp : s.sp with
  | zero => exact .intro (exec_phaseWrTree_empty hsp) rfl ⟨hlive, hfreq⟩
  | succ k =>
    have hnn := hfits.top_lt hsp hroot
    have hn := hnn.trans_le h.inv.widths.nnodes
    obtain ⟨-, hchildren⟩ := hbuilt _ hnn
    cases hl : (s.nodeAt (s.stkAt k).node).leaf with
    | true =>
      exact .intro (exec_phaseWrTree_leaf hsp (h.inv.top_lt_stackCap hsp) hn hl) hp
        ⟨hlive, hfreq, hroot, hbuilt, hfits.pop hsp rfl rfl rfl⟩
    | false =>
      obtain ⟨hleft, hright⟩ := hchildren hl
      have hframe := pushedNodes_frame s.writeInnerToken k (s.nodeAt (s.stkAt k).node)
      have hnodes : _ = s.nnodes := (congrArg State.nnodes hframe :)
      have hroots : _ = s.root := (congrArg State.root hframe :)
      refine .intro (exec_phaseWrTree_internal hsp hn hl (hfits.succ_lt_stackCap h.inv hsp hroot hleft))
        ((congrArg State.phase hframe :).trans hp)
        ⟨(congrArg State.live hframe :).trans hlive, (freqAt_congr (congrArg State.freq hframe :) 256).trans hfreq,
          hroots.trans_lt (hroot.trans_eq hnodes.symm), hbuilt.congr (congrArg State.node hframe :) hnodes,
          hfits.push hsp hleft hright rfl hroots fun i => ?_⟩
      rw [stkAt_pushedNodes (s := s.writeInnerToken) h.inv.memories.stkWf]
      rfl

/-! ### The stream -/

theorem State.Sound.encode (h : s.Sound) (hp : s.phase = .encode) : Continues (exec .phaseEncode s) := by
  obtain ⟨hlive, hfreq⟩ := h.entry hp
  obtain he | ⟨r, hr⟩ := s.exhausted_or_offers 8
  · exact .intro (exec_phaseEncode_end he) rfl ⟨hlive, hfreq⟩
  cases hc : (s.codeAt r.toNat).valid with
  | false => exact .intro (exec_phaseEncode_noCode hr hc) rfl trivial
  | true =>
    exact .intro (exec_phaseEncode_byte hr hc) ((emit_phase ..).trans hp)
      ⟨(emit_live ..).trans hlive, (freqAt_congr (emit_freq ..) 256).trans hfreq⟩

theorem State.Sound.wrEof (h : s.Sound) (hp : s.phase = .wrEof) : Continues (exec .phaseWrEof s) := by
  obtain ⟨hlive, hfreq⟩ := h.entry hp
  exact .intro rfl rfl ⟨(emit_live ..).trans hlive, (freqAt_congr (emit_freq ..) 256).trans hfreq⟩

end Sys2Proof.Machine
end

section
/-! A decompress never stops, and with it no sound state does. -/

namespace Sys2Proof.Machine

open State

variable {s t : State} {k d : Nat}

/-! ### `RD_MAGIC` -/

theorem State.Sound.rdMagic (h : s.Sound) (hp : s.phase = .rdMagic) : Continues (exec .phaseRdMagic s) := by
  obtain ⟨hlive, hnn, -⟩ := h.entry hp
  obtain he | ⟨v, hv⟩ := s.exhausted_or_offers 32
  · exact .intro (exec_phaseRdMagic_short he) rfl trivial
  by_cases hm : v = s.cfg.magic
  · subst hm
    exact .intro (exec_phaseRdMagic_magic hv) rfl ⟨hlive, Nat.zero_le _, fun j hj => absurd hj j.not_lt_zero,
      fun i hi => absurd (hnn ▸ hi) i.not_lt_zero⟩
  · exact .intro (exec_phaseRdMagic_otherWord hv hm) rfl trivial

/-! ### `RD_TREE` -/

/-- The new node of a token `I` is one more waiting node (R165). -/
theorem State.Reading.pushedInner (h : s.Reading) (hnode : Memory.wf NodeEntry.zero s.node = true)
    (hstk : Memory.wf StkEntry.zero s.stk = true) : s.pushedInner.Reading := by
  obtain ⟨hsp, hwaits, hcomplete⟩ := h
  have hn := nodeAt_pushedInner hnode
  have hs := stkAt_pushedInner hstk
  have hold {i : Nat} (hi : i < s.nnodes) : s.pushedInner.nodeAt i = s.nodeAt i := (hn i).trans (if_neg hi.ne)
  have htop := (hs s.sp).trans (if_pos rfl)
  refine ⟨Nat.succ_le_succ hsp, fun j hj => ?waits, fun i hi => ?complete⟩
  case waits =>
    obtain hj | rfl := Nat.lt_succ_iff_lt_or_eq.mp hj
    · obtain ⟨halloc, hleft⟩ := hwaits j hj
      rw [hs, if_neg hj.ne, hold halloc]
      exact ⟨Nat.lt_succ_of_lt halloc, fun hside => Nat.lt_succ_of_lt (hleft hside)⟩
    · rw [htop]
      exact ⟨Nat.lt_succ_self _, nofun⟩
  case complete =>
    obtain hi | rfl := Nat.lt_succ_iff_lt_or_eq.mp hi
    · obtain ⟨j, hj, e⟩ | hc := hcomplete i hi
      · exact .inl ⟨j, Nat.lt_succ_of_lt hj, by rw [hs, if_neg hj.ne]; exact e⟩
      · refine .inr fun hl => ?_
        rw [hold hi] at hl ⊢
        obtain ⟨hleft, hright⟩ := hc hl
        exact ⟨Nat.lt_succ_of_lt hleft, Nat.lt_succ_of_lt hright⟩
    · exact .inl ⟨s.sp, Nat.lt_succ_self _, by rw [htop]⟩

/-- The new node of a token `L(v)` is complete (R166). -/
theorem State.Reading.pushedLeaf (h : s.Reading) (hnode : Memory.wf NodeEntry.zero s.node = true) (v : Sym) :
    (s.pushedLeaf v).Reading := by
  obtain ⟨hsp, hwaits, hcomplete⟩ := h
  have hn := nodeAt_pushedLeaf hnode v
  have hold {i : Nat} (hi : i < s.nnodes) : (s.pushedLeaf v).nodeAt i = s.nodeAt i := (hn i).trans (if_neg hi.ne)
  refine ⟨Nat.le_succ_of_le hsp, fun j hj => ?waits, fun i hi => ?complete⟩
  case waits =>
    obtain ⟨halloc, hleft⟩ := hwaits j hj
    refine ⟨Nat.lt_succ_of_lt halloc, fun hside => ?_⟩
    show ((s.pushedLeaf v).nodeAt (s.stkAt j).node).left < s.nnodes + 1
    rw [hold halloc]
    exact Nat.lt_succ_of_lt (hleft hside)
  case complete =>
    obtain hi | rfl := Nat.lt_succ_iff_lt_or_eq.mp hi
    · refine (hcomplete i hi).imp_right fun hc hl => ?_
      rw [hold hi] at hl ⊢
      obtain ⟨hleft, hright⟩ := hc hl
      exact ⟨Nat.lt_succ_of_lt hleft, Nat.lt_succ_of_lt hright⟩
    · refine .inr fun hl => ?_
      rw [hn, if_pos rfl] at hl
      cases hl

/-- The waiting node on top, which has its left child, is complete with its right one and waits no more (R165). -/
theorem State.Reading.linkRight (h : s.Reading) (hnode : Memory.wf NodeEntry.zero s.node = true) (hsp : s.sp = k + 1)
    (hside : (s.stkAt k).side = true) (hd : d < s.nnodes) : (s.linkRight k d).Reading := by
  obtain ⟨hle, hwaits, hcomplete⟩ := h
  rw [hsp] at hle hwaits hcomplete
  have hn := nodeAt_linkRight (k := k) (d := d) hnode
  have hleft (i : Nat) : ((s.linkRight k d).nodeAt i).left = (s.nodeAt i).left := by
    rw [hn]
    split
    · subst i; rfl
    · rfl
  refine ⟨Nat.le_of_succ_le hle, fun j hj => ?waits, fun i hi => ?complete⟩
  case waits =>
    obtain ⟨halloc, hside⟩ := hwaits j (Nat.lt_succ_of_lt hj)
    exact ⟨halloc, fun hs => (hleft _).trans_lt (hside hs)⟩
  case complete =>
    by_cases htop : i = (s.stkAt k).node
    · refine .inr fun _ => ⟨(hleft i).trans_lt ?_, ?_⟩
      · rw [htop]
        exact (hwaits k (Nat.lt_succ_self k)).2 hside
      · rw [hn, if_pos htop]
        exact hd
    · obtain ⟨j, hj, e⟩ | hc := hcomplete i hi
      · have hjk : j ≠ k := by rintro rfl; exact htop e.symm
        exact .inl ⟨j, Nat.lt_of_le_of_ne (Nat.le_of_lt_succ hj) hjk, e⟩
      · refine .inr fun hl => ?_
        rw [hn, if_neg htop] at hl ⊢
        exact hc hl

/-- The waiting node on top has its left child and waits for its right one (R165). -/
theorem State.Reading.linkLeft (h : s.Reading) (hnode : Memory.wf NodeEntry.zero s.node = true)
    (hstk : Memory.wf StkEntry.zero s.stk = true) (hsp : s.sp = k + 1) (hd : d < s.nnodes) : (s.linkLeft k d).Reading := by
  obtain ⟨hle, hwaits, hcomplete⟩ := h
  rw [hsp] at hle hwaits hcomplete
  have hn := nodeAt_linkLeft (k := k) (d := d) hnode
  have hs := stkAt_linkLeft (k := k) (d := d) hstk
  have hsame (j : Nat) : ((s.linkLeft k d).stkAt j).node = (s.stkAt j).node := by
    rw [hs]
    split
    · subst j; rfl
    · rfl
  refine ⟨hle, fun j hj => ?waits, fun i hi => ?complete⟩
  case waits =>
    obtain ⟨halloc, hleft⟩ := hwaits j hj
    rw [hsame]
    refine ⟨halloc, fun hside => ?_⟩
    rw [hn]
    split
    · exact hd
    · have hjk : j ≠ k := by rintro rfl; contradiction
      rw [hs, if_neg hjk] at hside
      exact hleft hside
  case complete =>
    by_cases htop : i = (s.stkAt k).node
    · exact .inl ⟨k, Nat.lt_succ_self k, (hsame k).trans htop.symm⟩
    · obtain ⟨j, hj, e⟩ | hc := hcomplete i hi
      · exact .inl ⟨j, hj, (hsame j).trans e⟩
      · refine .inr fun hl => ?_
        rw [hn, if_neg htop] at hl ⊢
        exact hc hl

/-- The link-upward loop ends: it stops at a node that waits for its left child, or hands over to `DECODE` (R166). -/
theorem State.Reading.continues_linkUp (h : s.Reading) (hp : s.phase = .rdTree) (hlive : s.live = [])
    (hnode : Memory.wf NodeEntry.zero s.node = true) (hstk : Memory.wf StkEntry.zero s.stk = true)
    (hcap : s.nnodes ≤ s.cfg.nodeCap) (hsp : s.sp = k) (hd : d < s.nnodes) : Continues (linkUp k d s) := by
  induction k generalizing d s with
  | zero =>
    obtain ⟨-, -, hcomplete⟩ := h
    refine .intro (t := ({ s with sp := 0 } : State).treeDone d) rfl rfl ⟨hlive, hd, hd, fun i hi => ?_⟩
    exact (hcomplete i hi).resolve_left fun ⟨j, hj, _⟩ => absurd (hsp ▸ hj) j.not_lt_zero
  | succ k ih =>
    have hk : k < s.cfg.stackCap := (hsp.ge.trans h.1).trans hcap
    have halloc : (s.stkAt k).node < s.nnodes := (h.2.1 k (by omega)).1
    have hn := halloc.trans_le hcap
    cases hside : (s.stkAt k).side with
    | true =>
      rw [linkUp_of_right hk hn hside]
      exact ih (h.linkRight hnode hsp hside hd) hp hlive (Memory.wf_write _ hnode _ _) hstk hcap rfl halloc
    | false => exact .intro (linkUp_of_left hk hn hside) hp ⟨hlive, h.linkLeft hnode hstk hsp hd⟩

/-- What the reads of `RD_TREE` can find (R94, R95, R101). -/
theorem State.treeToken_offers (s : State) : s.Exhausted 1 ∨ s.Offers 0#1 ∨
    (s.Offers 1#1 ∧ (s.afterRead 1).Exhausted 9) ∨ ∃ v : Sym, s.Offers (1#1 ++ v) := by
  cases heod : s.inp.eod with
  | true => exact .inl (.inl heod)
  | false =>
    have hr : s.Remaining (s.inp.bits.drop s.inp.pos) := ⟨heod, rfl⟩
    obtain e | ⟨rest, e⟩ | ⟨rest, e, hshort⟩ | ⟨v, rest, e⟩ := treeToken_cases (s.inp.bits.drop s.inp.pos) <;>
      rw [e] at hr
    · exact .inl (hr.exhausted Nat.one_pos)
    · exact .inr (.inl (hr.offers (v := 0#1)))
    · have hflag : s.Offers 1#1 := hr.offers (v := 1#1)
      have hten : s.Exhausted 10 := hr.exhausted (by rw [List.length_cons]; omega)
      exact .inr (.inr (.inl ⟨hflag, hflag.exhausted_symbol hten⟩))
    · rw [← msbFirst_eq, ← msbFirst_leafToken] at hr
      exact .inr (.inr (.inr ⟨v, hr.offers⟩))

theorem State.Sound.rdTree (h : s.Sound) (hp : s.phase = .rdTree) : Continues (exec .phaseRdTree s) := by
  obtain ⟨hlive, hreading⟩ := h.entry hp
  have hnode := h.inv.memories.nodeWf
  have hstk := h.inv.memories.stkWf
  by_cases hfull : s.nnodes = s.cfg.nodeCap
  · exact .intro (exec_phaseRdTree_full hfull) rfl trivial
  have hn : s.nnodes < s.cfg.nodeCap := Nat.lt_of_le_of_ne h.inv.widths.nnodes hfull
  obtain he | hinner | ⟨hflag, he⟩ | ⟨v, hleaf⟩ := s.treeToken_offers
  · exact .intro (exec_phaseRdTree_noFlag hfull he) rfl trivial
  · have hframe := pushedInner_frame (s.afterRead 1)
    rw [exec_phaseRdTree_inner hfull hinner]
    exact .intro (takeInner_of_lt (s := s.afterRead 1) hn (Nat.lt_of_le_of_lt hreading.1 hn))
      ((congrArg State.phase hframe :).trans hp)
      ⟨(congrArg State.live hframe :).trans hlive, State.Reading.pushedInner (s := s.afterRead 1) hreading hnode hstk⟩
  · exact .intro (exec_phaseRdTree_noSymbol hfull hflag he) rfl trivial
  · obtain ⟨log, hstart⟩ := exec_phaseRdTree_loop hn hleaf
    have hpushed := hreading.pushedLeaf hnode v
    rw [hstart]
    exact State.Reading.continues_linkUp (s := { s.pushedLeaf v with inp := s.inp.advanced 10, chanLog := log }) hpushed hp
      hlive (Memory.wf_write _ hnode _ _) hstk hn rfl (Nat.lt_succ_self _)

/-! ### `DECODE` -/

theorem State.Complete.congr {i : Nat} (h : s.Complete i) (hnode : t.node = s.node) (hnn : t.nnodes = s.nnodes) :
    t.Complete i := by
  rw [Complete, nodeAt, hnode, hnn]
  exact h

/-- The walk is at an allocated node, and every child of one is allocated (R169). -/
theorem State.Sound.decode (h : s.Sound) (hp : s.phase = .decode) : Continues (exec .phaseDecode s) := by
  obtain ⟨hlive, hcur, hroot, hcomplete⟩ := h.entry hp
  have hcap := h.inv.widths.nnodes
  cases hl : (s.nodeAt s.cur).leaf with
  | true =>
    rw [exec_phaseDecode_leaf (hcur.trans_le hcap) hl]
    obtain ⟨-, e⟩ | ⟨-, e⟩ := leafRoot_cases s (s.nodeAt s.cur).sym <;> rw [e] <;> exact .intro rfl rfl trivial
  | false =>
    obtain he | ⟨b, hb⟩ := s.exhausted_or_offers 1
    · exact .intro (exec_phaseDecode_end (hcur.trans_le hcap) hl he) rfl trivial
    obtain ⟨b, rfl⟩ := exists_eq_ofBool b
    obtain ⟨hleft, hright⟩ := hcomplete _ hcur hl
    have hc : (s.nodeAt s.cur).child b < s.nnodes := by cases b <;> assumption
    have hx : exec .phaseDecode s = .next (s.arrived ((s.nodeAt s.cur).child b)) :=
      execPhaseDecode_edge (hcur.trans_le hcap) hl hb rfl (hc.trans_le hcap)
    rw [hx]
    cases hleaf : (s.nodeAt ((s.nodeAt s.cur).child b)).leaf with
    | false =>
      rw [arrived_inner hleaf]
      exact .intro rfl hp ⟨hlive, hc, hroot, fun i hi => (hcomplete i hi).congr rfl rfl⟩
    | true =>
      rw [arrived_leaf hleaf]
      obtain ⟨-, e⟩ | ⟨-, -, e⟩ | ⟨-, e⟩ := leafAction_cases (s.enter ((s.nodeAt s.cur).child b))
        (s.nodeAt ((s.nodeAt s.cur).child b)).sym <;> rw [e]
      · exact .intro rfl rfl trivial
      · exact .intro rfl rfl trivial
      · exact .intro rfl hp ⟨hlive, hroot, hroot, fun i hi => (hcomplete i hi).congr rfl rfl⟩

/-! ### The whole machine -/

namespace State.Sound

/-- No phase's step stops, phase by phase. -/
theorem continues (h : s.Sound) : Continues (exec (phaseInstr s.phase) s) := by
  cases hp : s.phase
  case idle | done | fault => exact .intro rfl hp trivial
  case count => exact h.count hp
  case buildInit => exact h.buildInit hp
  case buildMerge => exact h.buildMerge hp
  case derive => exact h.derive hp
  case wrMagic => exact h.wrMagic hp
  case wrTree => exact h.wrTree hp
  case rewind => exact .intro rfl rfl (h.entry hp)
  case encode => exact h.encode hp
  case wrEof => exact h.wrEof hp
  case close => exact .intro rfl rfl trivial
  case rdMagic => exact h.rdMagic hp
  case rdTree => exact h.rdTree hp
  case decode => exact h.decode hp

/-- The sequencer's step leads from a sound state to a sound state. -/
theorem exec_phase (h : s.Sound) : ∃ t, exec (phaseInstr s.phase) s = .next t ∧ t.Sound := by
  obtain ⟨t, hx, hentry⟩ := h.continues
  have hpending := (Phase.Permits.exec_phase hx).pending
  exact ⟨t, hx, .of_entry (h.inv.exec_phase hx) (fun w hw => h.transactions w (hpending ▸ hw)) hentry⟩

end State.Sound

/-- A transaction of the contract runs as the instruction of its word (R62 to R66). -/
theorem exec_transaction {w : ChanReq} {i : Instr} (hw : decodeChan w = .ok i) (hwf : i.wf = true) :
    exec i s = .next (s.transact i) := by
  obtain ⟨n, rfl⟩ | rfl | ⟨n, v, rfl⟩ | rfl := decodeChan_cases hw
  · exact if_pos hwf
  · rfl
  · exact if_pos hwf
  · rfl

/-- Settles O57, by the slot the step takes: the sequencer's step, a command, or an act of the host or the environment. -/
theorem soundStateNeverStops : Obligations.SoundStateNeverStops := by
  intro s h
  rcases hp : s.pending with _ | ⟨e, rest⟩
  · rw [step_idleHost hp]
    exact h.exec_phase
  have hu := h.advance hp
  cases e with
  | seq =>
    rw [step_seq hp]
    exact hu.exec_phase
  | regWrite k v =>
    by_cases hk : k = 0
    · subst hk
      rw [step_regWrite_cmd hp]
      exact hu.exec_command v
    · exact ⟨_, step_regWrite_readOnly hk hp, hu⟩
  | regRead k => exact ⟨_, step_regRead hp, hu.hostRead k⟩
  | reset => exact ⟨_, step_reset hp, hu.resetEvent⟩
  | resetDuring k =>
    obtain ⟨t, hx, -⟩ := hu.exec_phase
    exact ⟨_, (step_resetDuring hp).trans (congrArg (cutByReset k _) hx), (hu.replay _).resetEvent⟩
  | launch b => exact ⟨_, step_launch hp, hu.launch b⟩
  | swapIn b => exact ⟨_, step_swapIn hp, hu.swapIn b⟩
  | chan w =>
    obtain ⟨i, hw, hwf⟩ := h.transactions w (hp ▸ List.mem_cons_self)
    exact ⟨_, (step_chan hp hw).trans (exec_transaction hw hwf), hu.transact i⟩

end Sys2Proof.Machine
end

section
/-! The errors of each phase (R231) and what a step that takes one leaves as it was (R234, R240): one lemma per phase, from
the cases of its step. Each of those cases calls `fault(c)` last or does not leave `PHASE` at `FAULT`. -/

namespace Sys2Proof.Machine

open State

variable {s t : State}

/-- `t` with the fields that a faulting step may write as they are in `s`: the code, `PHASE`, the input read and the walk's
position. -/
def State.errorFrame (s t : State) : State :=
  { t with errcode := s.errcode, phase := s.phase, inp := s.inp, cur := s.cur, chanLog := s.chanLog }

/-- If `PHASE` is `FAULT` in `t`, a step of phase `p` from `s` to `t` took one of the errors of `p` and wrote nothing else. -/
def Phase.FaultsAs (p : Phase) (s t : State) : Prop := t.phase = .fault → t.errcode ∈ p.errors ∧ s.errorFrame t = s

namespace Phase.FaultsAs

theorem of_ne {p : Phase} (h : t.phase ≠ .fault) : p.FaultsAs s t := fun hf => absurd hf h

/-- `fault(c)` after the step did no more than read and walk (R240). -/
theorem raise {p : Phase} {u : State} {c : ErrCode} (hc : c ∈ p.errors) (hu : s.errorFrame u = s) :
    p.FaultsAs s (u.raise c) := fun _ => ⟨hc, hu⟩

theorem count (hs : s.phase = .count) (hx : execPhaseCount s = .next t) : Phase.count.FaultsAs s t := by
  obtain ⟨-, rfl⟩ | ⟨r, -, ⟨-, rfl⟩ | ⟨-, rfl⟩⟩ := execPhaseCount_next hx
  · exact of_ne (by simp)
  · exact raise (by simp [errors]) rfl
  · exact of_ne (by simp [hs])

theorem buildInit (hs : s.phase = .buildInit) (hx : execPhaseBuildInit s = .next t) :
    Phase.buildInit.FaultsAs s t := by
  obtain ⟨-, ⟨-, rfl⟩ | ⟨-, -, rfl⟩⟩ := execPhaseBuildInit_next hx
  · obtain ⟨-, e⟩ | ⟨-, e⟩ := nextSymbol_cases s <;> exact of_ne (by simp [e, hs])
  · obtain ⟨-, e⟩ | ⟨-, e⟩ := nextSymbol_cases (s.setNode s.nnodes s.builtLeaf).insertNode <;>
      exact of_ne (by simp [e, hs])

theorem buildMerge (hs : s.phase = .buildMerge) (hx : execPhaseBuildMerge s = .next t) :
    Phase.buildMerge.FaultsAs s t := by
  obtain ⟨a, -, ⟨-, hx⟩ | ⟨-, hx⟩⟩ := execPhaseBuildMerge_next hx
  · obtain ⟨-, rfl⟩ := finishTree_next hx
    exact of_ne (by simp)
  · obtain ⟨b, -, -, rfl⟩ := merge_next hx
    exact of_ne (by simp [hs])

theorem derive (hs : s.phase = .derive) (hx : execPhaseDerive s = .next t) : Phase.derive.FaultsAs s t := by
  obtain ⟨-, rfl⟩ | ⟨k, -, -, -, ⟨-, -, rfl⟩ | ⟨-, -, rfl⟩⟩ := execPhaseDerive_next hx <;> exact of_ne (by simp [hs])

theorem wrMagic (hx : execPhaseWrMagic s = .next t) : Phase.wrMagic.FaultsAs s t := by
  obtain ⟨-, rfl⟩ := execPhaseWrMagic_next hx
  exact of_ne (by simp)

theorem wrTree (hs : s.phase = .wrTree) (hx : execPhaseWrTree s = .next t) : Phase.wrTree.FaultsAs s t := by
  obtain ⟨-, rfl⟩ | ⟨k, -, -, -, ⟨-, rfl⟩ | ⟨-, -, rfl⟩⟩ := execPhaseWrTree_next hx <;>
    exact of_ne (by simp [hs, writeLeafToken, writeInnerToken])

theorem encode (hs : s.phase = .encode) (hx : execPhaseEncode s = .next t) : Phase.encode.FaultsAs s t := by
  obtain ⟨-, rfl⟩ | ⟨r, -, ⟨-, rfl⟩ | ⟨-, rfl⟩⟩ := execPhaseEncode_next hx
  · exact of_ne (by simp)
  · exact of_ne (by simp [hs])
  · exact raise (by simp [errors]) rfl

theorem rdMagic (hx : execPhaseRdMagic s = .next t) : Phase.rdMagic.FaultsAs s t := by
  obtain ⟨-, rfl⟩ | ⟨-, rfl⟩ := execPhaseRdMagic_next hx
  · exact of_ne (by simp)
  · exact raise (by simp [errors]) rfl

theorem rdTree (hs : s.phase = .rdTree) (hx : execPhaseRdTree s = .next t) : Phase.rdTree.FaultsAs s t := by
  obtain ⟨-, rfl⟩ | ⟨-, ⟨-, rfl⟩ | ⟨-, hx⟩ | ⟨f, -, -, ⟨-, rfl⟩ | ⟨v, -, hx⟩⟩⟩ := execPhaseRdTree_next hx
  · exact raise (by simp [errors]) rfl
  · exact raise (by simp [errors]) rfl
  · obtain ⟨-, -, rfl⟩ := takeInner_next hx
    exact of_ne (by simp [hs])
  · exact raise (by simp [errors]) rfl
  · obtain ⟨-, hx⟩ := takeLeaf_next hx
    obtain e | e := linkUp_phase hx <;> exact of_ne (by simp [e, hs])

theorem decode (hs : s.phase = .decode) (hx : execPhaseDecode s = .next t) : Phase.decode.FaultsAs s t := by
  obtain ⟨-, ⟨-, rfl⟩ | ⟨-, ⟨-, rfl⟩ | ⟨b, c, -, -, -, rfl⟩⟩⟩ := execPhaseDecode_next hx
  · obtain ⟨-, e⟩ | ⟨-, e⟩ := leafRoot_cases s (s.nodeAt s.cur).sym <;> rw [e]
    · exact of_ne (by simp)
    · exact raise (by simp [errors]) rfl
  · exact raise (by simp [errors]) rfl
  · split
    · obtain ⟨-, e⟩ | ⟨-, -, e⟩ | ⟨-, e⟩ :=
        leafAction_cases { s.afterRead 1 with cur := c } (s.nodeAt c).sym <;> rw [e]
      · exact of_ne (by simp)
      · exact raise (by simp [errors]) rfl
      · exact of_ne (by simp [hs])
    · exact of_ne (by simp [hs])

/-- From a phase other than `FAULT`, every phase's step takes only the phase's errors. -/
theorem exec_phase (h : s.phase ≠ .fault) (hx : exec (phaseInstr s.phase) s = .next t) : s.phase.FaultsAs s t := by
  cases hs : s.phase <;> rw [hs] at hx
  case count => exact count hs hx
  case buildInit => exact buildInit hs hx
  case buildMerge => exact buildMerge hs hx
  case derive => exact derive hs hx
  case wrMagic => exact wrMagic hx
  case wrTree => exact wrTree hs hx
  case encode => exact encode hs hx
  case rdMagic => exact rdMagic hx
  case rdTree => exact rdTree hs hx
  case decode => exact decode hs hx
  case rewind | wrEof | close => cases hx; exact of_ne nofun
  case idle | done => cases hx; exact of_ne h
  case fault => exact absurd hs h

end Phase.FaultsAs

/-- Settles O50: the errors and the frame, phase by phase. -/
theorem errorsByPhase : Obligations.ErrorsByPhase := fun _ _ h hx => Phase.FaultsAs.exec_phase h hx

end Sys2Proof.Machine
end

section
/-! What the transactions of a step do to the channels (R74, R77, R260): replaying the requests a phase's step issued makes
the channels that the step leaves, one lemma per phase. Reset during a step and the two streams follow from it. -/

namespace Sys2Proof.Machine

open State

variable {s t u : State}

/-! ### One transaction, and a list of them -/

namespace State

/-- The registers and memories of `s` with the channels of `t`, and what a transaction consults besides them. -/
def withChannels (s t : State) : State :=
  { s with cfg := t.cfg, inp := t.inp, out := t.out, chanLog := t.chanLog, freeCtr := t.freeCtr }

/-- A transaction reads and writes no register and no memory of the core (R60, R73). -/
theorem transact_withChannels (s t : State) (i : Instr) :
    (s.withChannels t).transact i = s.withChannels (t.transact i) := by
  cases i <;> rfl

theorem replay_withChannels (ws : List ChanReq) (s t : State) :
    replay ws (s.withChannels t) = s.withChannels (replay ws t) := by
  induction ws generalizing t with
  | nil => rfl
  | cons w ws ih =>
    simp only [replay]
    split
    · rw [transact_withChannels, ih]
    · exact ih t

/-- What every transaction keeps, a list of them keeps. -/
theorem replay_keeps {α : Type} (f : State → α) (hf : ∀ s i, f (s.transact i) = f s) (ws : List ChanReq) (s : State) :
    f (replay ws s) = f s := by
  induction ws generalizing s with
  | nil => rfl
  | cons w ws ih =>
    simp only [replay]
    split
    · rw [ih, hf]
    · exact ih s

@[simp] theorem replay_cfg (ws : List ChanReq) (s : State) : (replay ws s).cfg = s.cfg :=
  replay_keeps State.cfg (fun _ i => by cases i <;> rfl) ws s

@[simp] theorem replay_pending (ws : List ChanReq) (s : State) : (replay ws s).pending = s.pending :=
  replay_keeps State.pending (fun _ i => by cases i <;> rfl) ws s

@[simp] theorem replay_hostReads (ws : List ChanReq) (s : State) : (replay ws s).hostReads = s.hostReads :=
  replay_keeps State.hostReads (fun _ i => by cases i <;> rfl) ws s

@[simp] theorem transact_inBits (s : State) (i : Instr) : (s.transact i).inp.bits = s.inp.bits := by
  cases i
  case inRead n => exact inAfter_bits s n.toNat
  all_goals rfl

/-- No transaction writes the contents of `IN` (R266). -/
@[simp] theorem replay_inBits (ws : List ChanReq) (s : State) : (replay ws s).inp.bits = s.inp.bits :=
  replay_keeps (fun s => s.inp.bits) transact_inBits ws s

/-- A transaction adds at most one entry to the log. -/
theorem transact_log (s : State) (i : Instr) :
    s.chanLog <:+ (s.transact i).chanLog ∧ (s.transact i).chanLog.length ≤ s.chanLog.length + 1 := by
  cases i
  case inRead | inReset | outWrite | outClose => exact ⟨List.suffix_cons _ _, le_refl _⟩
  all_goals exact ⟨List.suffix_refl _, Nat.le_succ _⟩

/-- Replaying adds to the log at most one entry for each request. -/
theorem replay_log (ws : List ChanReq) (s : State) :
    s.chanLog <:+ (replay ws s).chanLog ∧ (replay ws s).chanLog.length ≤ s.chanLog.length + ws.length := by
  induction ws generalizing s with
  | nil => exact ⟨List.suffix_refl _, le_refl _⟩
  | cons w ws ih =>
    simp only [replay, List.length_cons]
    split
    next i _ =>
      obtain ⟨hone, hlen⟩ := transact_log s i
      obtain ⟨hrest, hlens⟩ := ih (s.transact i)
      exact ⟨hone.trans hrest, by omega⟩
    next =>
      obtain ⟨hrest, hlens⟩ := ih s
      exact ⟨hrest, by omega⟩

/-! ### The streams under a list of transactions -/

/-- `close()` appends to an open `OUT` too: the padding (R66). -/
theorem transact_out_prefix (h : s.out.closed = false) (i : Instr) : s.out.bits <+: (s.transact i).out.bits := by
  cases i
  case outWrite n v => exact writeBits_open h n.toNat v ▸ List.prefix_append _ _
  case outClose => exact closeOut_open h ▸ List.prefix_append _ _
  all_goals exact List.prefix_refl _

theorem transact_open (h : s.out.closed = false) {i : Instr} (hi : i ≠ .outClose) :
    (s.transact i).out.closed = false := by
  cases i
  case outClose => exact absurd rfl hi
  all_goals exact h

/-- An open `OUT` keeps its bits under transactions of which none but the last is `close()`. -/
theorem replay_out_prefix {ws : List ChanReq} (hws : ws.Pairwise fun w _ => decodeChan w ≠ .ok .outClose)
    (h : s.out.closed = false) : s.out.bits <+: (replay ws s).out.bits := by
  induction ws generalizing s with
  | nil => exact List.prefix_refl _
  | cons w ws ih =>
    obtain ⟨hw, hws⟩ := List.pairwise_cons.mp hws
    simp only [replay]
    split
    next i hi =>
      cases ws with
      | nil => exact transact_out_prefix h i
      | cons w' ws =>
        have hne : i ≠ .outClose := fun e => hw w' List.mem_cons_self (e ▸ hi)
        exact (transact_out_prefix h i).trans (ih hws (transact_open h hne))
    next => exact ih hws h

/-- A read moves the cursor forward, to the end if it finds too few bits (R62). -/
theorem pos_le_inAfter (h : s.inp.pos ≤ s.inp.bits.length) (n : Nat) : s.inp.pos ≤ (s.inAfter n).pos := by
  unfold inAfter
  split
  · exact Nat.le_add_right ..
  · exact h

theorem transact_pos (h : s.inp.pos ≤ s.inp.bits.length) {i : Instr} (hi : i ≠ .inReset) :
    s.inp.pos ≤ (s.transact i).inp.pos ∧ (s.transact i).inp.pos ≤ s.inp.bits.length := by
  cases i
  case inRead n => exact ⟨pos_le_inAfter h n.toNat, inAfter_pos_le s n.toNat⟩
  case inReset => exact absurd rfl hi
  all_goals exact ⟨le_refl _, h⟩

/-- The cursor never moves back under transactions without `IN.reset()`. -/
theorem replay_pos {ws : List ChanReq} (hws : ∀ w ∈ ws, decodeChan w ≠ .ok .inReset)
    (h : s.inp.pos ≤ s.inp.bits.length) : s.inp.pos ≤ (replay ws s).inp.pos := by
  induction ws generalizing s with
  | nil => exact le_refl _
  | cons w ws ih =>
    obtain ⟨hw, hws⟩ := List.forall_mem_cons.mp hws
    simp only [replay]
    split
    next i hi =>
      obtain ⟨hpos, hend⟩ := transact_pos h (i := i) fun e => hw (e ▸ hi)
      exact hpos.trans (ih hws (by rwa [transact_inBits]))
    next => exact ih hws h

/-! ### The requests of a step -/

theorem Issues.length_eq {ws : List ChanReq} (h : s.Issues t ws) :
    t.chanLog.length = ws.length + s.chanLog.length := by
  have hlen := congrArg List.length h
  simpa using hlen

/-- The requests read off the log (R77) are the ones issued. -/
theorem Issues.issued_eq {ws : List ChanReq} (h : s.Issues t ws) : s.issued t = ws := by
  have hlen : t.chanLog.length - s.chanLog.length = ws.reverse.length := by
    rw [h.length_eq, List.length_reverse, Nat.add_sub_cancel]
  rw [issued, List.map_reverse, List.map_take, show t.chanLog.map (·.1) = _ from h, hlen, List.take_left,
    List.reverse_reverse]

/-- From `s` to `t` the channels changed by the transactions the log records, and by nothing else. -/
def Replays (s t : State) : Prop := ∃ ws, s.Issues t ws ∧ replay ws s = s.withChannels t

namespace Replays

theorem refl (s : State) : s.Replays s := ⟨[], rfl, rfl⟩

theorem trans (h : s.Replays t) (h' : t.Replays u) : s.Replays u := by
  obtain ⟨ws, hlog, hrep⟩ := h
  obtain ⟨ws', hlog', hrep'⟩ := h'
  refine ⟨ws ++ ws', hlog.trans hlog', ?_⟩
  rw [replay_append, hrep, replay_withChannels, hrep']
  rfl

/-- Writes of registers and memories, which leave the channels as they are. -/
theorem core (h : s.Replays t) (e : t.withChannels u = t) : s.Replays u := by
  show s.Replays (t.withChannels u)
  rw [e]
  exact h

/-- A transaction recorded under its own word. -/
theorem of_transact {i : Instr} (hdec : decodeChan (encodeChan i) = .ok i)
    (hlog : s.Issues (s.transact i) [encodeChan i]) : s.Replays (s.transact i) := by
  refine ⟨_, hlog, ?_⟩
  simp only [replay, hdec]
  exact transact_withChannels s s i

theorem read (n : BitVec 6) (s : State) : s.Replays (s.afterRead n.toNat) :=
  of_transact (i := .inRead n) (decodeChan_inRead n) (by simp [Issues, transact])

theorem reset (s : State) : s.Replays s.resetIn := of_transact (i := .inReset) decodeChan_inReset rfl

theorem write (n : BitVec 6) (v : Word) (s : State) : s.Replays (s.writeBits n.toNat v) :=
  of_transact (i := .outWrite n v) (decodeChan_outWrite n v) (by simp [Issues, transact, writeBits])

theorem close (s : State) : s.Replays s.closeOut := of_transact (i := .outClose) decodeChan_outClose rfl

theorem emitBits (val : CodeVal) (k : Nat) (s : State) : s.Replays (emitBits val k s) := by
  induction k generalizing s with
  | zero => exact refl s
  | succ k ih => exact (write 1 _ s).trans (ih _)

theorem emit (c : CodeEntry) (s : State) : s.Replays (s.emit c) := emitBits ..

theorem linkUp {k d : Nat} (h : s.Replays t) (hx : linkUp k d t = .next u) : s.Replays u :=
  h.core (by
    simp only [withChannels, linkUp_cfg hx, linkUp_inp hx, linkUp_out hx, linkUp_chanLog hx, linkUp_freeCtr hx])

/-! ### Each phase -/

theorem count (hx : execPhaseCount s = .next t) : s.Replays t := by
  have hread := read 8 s
  obtain ⟨-, rfl⟩ | ⟨r, -, ⟨-, rfl⟩ | ⟨-, rfl⟩⟩ := execPhaseCount_next hx <;> exact hread.core rfl

theorem nextSymbol (h : s.Replays t) : s.Replays t.nextSymbol := by
  obtain ⟨-, e⟩ | ⟨-, e⟩ := nextSymbol_cases t <;> rw [e] <;> exact h.core rfl

theorem buildInit (hx : execPhaseBuildInit s = .next t) : s.Replays t := by
  obtain ⟨-, ⟨-, rfl⟩ | ⟨-, -, rfl⟩⟩ := execPhaseBuildInit_next hx
  · exact (refl s).nextSymbol
  · have hinsert : s.Replays (s.setNode s.nnodes s.builtLeaf).insertNode := (refl s).core rfl
    exact hinsert.nextSymbol

theorem buildMerge (hx : execPhaseBuildMerge s = .next t) : s.Replays t := by
  obtain ⟨a, -, ⟨-, hx⟩ | ⟨-, hx⟩⟩ := execPhaseBuildMerge_next hx
  · obtain ⟨-, rfl⟩ := finishTree_next hx
    exact (refl s).core rfl
  · obtain ⟨b, -, -, rfl⟩ := merge_next hx
    exact (refl s).core (by simp [withChannels])

theorem derive (hx : execPhaseDerive s = .next t) : s.Replays t := by
  obtain ⟨-, rfl⟩ | ⟨k, -, -, -, ⟨-, -, rfl⟩ | ⟨-, -, rfl⟩⟩ := execPhaseDerive_next hx <;> exact (refl s).core rfl

theorem wrMagic (hx : execPhaseWrMagic s = .next t) : s.Replays t := by
  obtain ⟨-, rfl⟩ := execPhaseWrMagic_next hx
  exact (write 32 s.cfg.magic s).core rfl

theorem wrTree (hx : execPhaseWrTree s = .next t) : s.Replays t := by
  obtain ⟨-, rfl⟩ | ⟨k, -, -, -, ⟨-, rfl⟩ | ⟨-, -, rfl⟩⟩ := execPhaseWrTree_next hx
  · exact (refl s).core rfl
  · exact ((write 1 1 s).trans (write 9 _ _)).core rfl
  · exact (write 1 0 s).core rfl

theorem encode (hx : execPhaseEncode s = .next t) : s.Replays t := by
  have hread := read 8 s
  obtain ⟨-, rfl⟩ | ⟨r, -, ⟨-, rfl⟩ | ⟨-, rfl⟩⟩ := execPhaseEncode_next hx
  · exact hread.core rfl
  · exact hread.trans (emit ..)
  · exact hread.core rfl

theorem rdMagic (hx : execPhaseRdMagic s = .next t) : s.Replays t := by
  have hread := read 32 s
  obtain ⟨-, rfl⟩ | ⟨-, rfl⟩ := execPhaseRdMagic_next hx <;> exact hread.core rfl

theorem takeLeaf {v : Sym} (h : s.Replays t) (hx : t.takeLeaf v = .next u) : s.Replays u := by
  obtain ⟨-, hx⟩ := takeLeaf_next hx
  refine linkUp ?_ hx
  exact h.core rfl

theorem rdTree (hx : execPhaseRdTree s = .next t) : s.Replays t := by
  have hflag := read 1 s
  have hsymbol := hflag.trans (read 9 _)
  obtain ⟨-, rfl⟩ | ⟨-, ⟨-, rfl⟩ | ⟨-, hx⟩ | ⟨f, -, -, ⟨-, rfl⟩ | ⟨v, -, hx⟩⟩⟩ := execPhaseRdTree_next hx
  · exact (refl s).core rfl
  · exact hflag.core rfl
  · obtain ⟨-, -, rfl⟩ := takeInner_next hx
    exact hflag.core rfl
  · exact hsymbol.core rfl
  · exact hsymbol.takeLeaf hx

theorem leafRoot (v : Sym) (s : State) : s.Replays (s.leafRoot v) := by
  obtain ⟨-, e⟩ | ⟨-, e⟩ := leafRoot_cases s v <;> rw [e]
  · exact (close s).core rfl
  · exact (refl s).core rfl

theorem leafAction (h : s.Replays t) (v : Sym) : s.Replays (t.leafAction v) := by
  obtain ⟨-, e⟩ | ⟨-, -, e⟩ | ⟨-, e⟩ := leafAction_cases t v <;> rw [e]
  · exact (h.trans (close t)).core rfl
  · exact h.core rfl
  · exact (h.trans (write 8 _ t)).core rfl

theorem decode (hx : execPhaseDecode s = .next t) : s.Replays t := by
  have hread := read 1 s
  obtain ⟨-, ⟨-, rfl⟩ | ⟨-, ⟨-, rfl⟩ | ⟨b, c, -, -, -, rfl⟩⟩⟩ := execPhaseDecode_next hx
  · exact leafRoot ..
  · exact hread.core rfl
  · have hmoved : s.Replays { s.afterRead 1 with cur := c } := hread.core rfl
    split
    · exact hmoved.leafAction _
    · exact hmoved

/-- Every phase's step changes the channels by its transactions alone. -/
theorem exec_phase (hx : exec (phaseInstr s.phase) s = .next t) : s.Replays t := by
  cases hs : s.phase <;> rw [hs] at hx
  case count => exact count hx
  case buildInit => exact buildInit hx
  case buildMerge => exact buildMerge hx
  case derive => exact derive hx
  case wrMagic => exact wrMagic hx
  case wrTree => exact wrTree hx
  case rewind => cases hx; exact (reset s).core rfl
  case encode => exact encode hx
  case wrEof => cases hx; exact (emit _ s).core rfl
  case close => cases hx; exact (close s).core rfl
  case rdMagic => exact rdMagic hx
  case rdTree => exact rdTree hx
  case decode => exact decode hx
  case idle | done | fault => cases hx; exact refl s

end Replays

end State

/-! ### Reset during a step -/

/-- A cut after `k` requests leaves the step's log without its later entries: each request adds at most one entry, and all
of them together add one each. -/
theorem State.replay_take_log {ws : List ChanReq} (hlog : s.Issues t ws) (hrep : replay ws s = s.withChannels t)
    (k : Nat) : (replay (ws.take k) s).chanLog = t.chanLog.drop (ws.length - k) := by
  have hwhole : t.chanLog = (replay (ws.drop k) (replay (ws.take k) s)).chanLog := by
    rw [← replay_append, List.take_append_drop, hrep]; rfl
  obtain ⟨-, hcut⟩ := replay_log (ws.take k) s
  obtain ⟨hsuffix, hlater⟩ := replay_log (ws.drop k) (replay (ws.take k) s)
  rw [← hwhole] at hsuffix hlater
  rw [List.length_take] at hcut
  rw [List.length_drop] at hlater
  have hlen := hlog.length_eq
  rw [List.suffix_iff_eq_drop.mp hsuffix]
  congr 1
  omega

/-- Settles O22: the step's transactions replayed up to the cut, then the reset event. -/
theorem resetDuringAStep : Obligations.ResetDuringAStep := by
  intro s u k rest hp hx n
  obtain ⟨ws, hlog, hrep⟩ := Replays.exec_phase (s := { s with pending := rest }) hx
  have hissued : s.issued u = ws := hlog.issued_eq
  have hn : n = ws.length := Nat.sub_eq_of_eq_add hlog.length_eq
  have hstep := step_resetDuring hp
  rw [hx, cutByReset, show State.issued { s with pending := rest } u = ws from hissued] at hstep
  have hchannels : replay (ws.take k) { s with pending := rest } = _ :=
    replay_withChannels (ws.take k) { s with pending := rest } s
  have hinp := congrArg State.inp hchannels
  have hout := congrArg State.out hchannels
  rw [hissued, hn]
  refine ⟨_, hstep, resetEvent_registers _, replay_inBits .., replay_cfg .., replay_pending .., replay_hostReads ..,
    replay_take_log hlog hrep k, hinp, hout, ?_, ?_⟩
  · rintro rfl
    exact ⟨rfl, rfl, rfl⟩
  · intro hk
    rw [List.take_of_length_le hk, hrep]
    exact ⟨rfl, rfl, rfl⟩

/-! ### The two streams -/

/-- The requests of emitted bits are writes (R181). -/
theorem bitRequests_write (bits : List Bool) :
    ∀ w ∈ bits.map bitRequest, decodeChan w ≠ .ok .inReset ∧ decodeChan w ≠ .ok .outClose := by
  intro w hw
  obtain ⟨b, -, rfl⟩ := List.mem_map.mp hw
  rw [bitRequest, decodeChan_outWrite]
  exact ⟨nofun, nofun⟩

/-- R73: `IN.reset()` is a request of `REWIND` alone, and no request of a step follows its `close()`. -/
theorem Phase.issues_order {c : Config} {p : Phase} {ws : List ChanReq} (h : p.issues c ws) :
    (p ≠ .rewind → ∀ w ∈ ws, decodeChan w ≠ .ok .inReset) ∧
    ws.Pairwise fun w _ => decodeChan w ≠ .ok .outClose := by
  cases p <;> simp only [Phase.issues] at h
  case wrTree => obtain rfl | rfl | ⟨v, rfl⟩ := h <;> simp [decodeChan_outWrite]
  case encode =>
    obtain ⟨bits, rfl⟩ := h
    have hbits := bitRequests_write bits
    exact ⟨fun _ => List.forall_mem_cons.mpr ⟨by simp [decodeChan_inRead], fun w hw => (hbits w hw).1⟩,
      List.pairwise_cons.mpr ⟨by simp [decodeChan_inRead],
        List.pairwise_of_forall_mem_list fun w hw _ _ => (hbits w hw).2⟩⟩
  case wrEof =>
    obtain ⟨bits, rfl⟩ := h
    have hbits := bitRequests_write bits
    exact ⟨fun _ w hw => (hbits w hw).1, List.pairwise_of_forall_mem_list fun w hw _ _ => (hbits w hw).2⟩
  case rdTree => obtain rfl | rfl | rfl := h <;> simp [decodeChan_inRead]
  case decode =>
    obtain rfl | rfl | rfl | rfl | ⟨v, rfl⟩ := h <;> simp [decodeChan_inRead, decodeChan_outWrite, decodeChan_outClose]
  case count | rdMagic => simp [h, decodeChan_inRead]
  case wrMagic => simp [h, decodeChan_outWrite]
  case rewind => simp [h, decodeChan_inReset]
  case close => simp [h, decodeChan_outClose]
  case idle | buildInit | buildMerge | derive | done | fault => simp [h]

/-- Settles O53: what holds of the transactions that R73 gives the phase, in their order. -/
theorem streamsKeepTheirBits : Obligations.StreamsKeepTheirBits := by
  intro s t hpos hx
  obtain ⟨ws, hlog, hrep⟩ := Replays.exec_phase hx
  obtain ⟨ws', hissues, hlog'⟩ := Phase.Logs.exec_phase hx
  obtain rfl : ws' = ws := hlog'.issued_eq.symm.trans hlog.issued_eq
  obtain ⟨hreset, hclose⟩ := Phase.issues_order hissues
  have hinp : (replay ws' s).inp = t.inp := by rw [hrep]; rfl
  have hout : (replay ws' s).out = t.out := by rw [hrep]; rfl
  rw [← hinp, ← hout]
  exact ⟨replay_inBits ws' s, replay_out_prefix hclose, fun hp => replay_pos (hreset hp) hpos⟩

end Sys2Proof.Machine
end
